-- ==== Sys2Proof/Word.lean ====
section
/-! DEFINITION. The word types of the block. Rule R8 of spec/00_scope.md: every value is an unsigned
integer of a fixed number of bits, bit 0 the least significant; the register window moves 16 bits at a
time (R80, R85) and the images and the sector buffer are byte stores (R9, R80). -/

namespace Sys2Proof

/-- One byte of an image or of the sector buffer (`u8`, R8). -/
abbrev Byte := BitVec 8

/-- The unit of one register-window access, one FIFO slot and one EEPROM word (`u16`, R8, R80). -/
abbrev Half := BitVec 16

/-- A whole register `X.hi ++ X.lo`, and the CD-unit accumulator (`u32`, R8, R22, R60). -/
abbrev Word := BitVec 32

end Sys2Proof
end

