-- ==== Sys2Proof/Config.lean ====
section
/-! DEFINITION. What an implementation fixes: the named parameters of rule R7 (spec/00_scope.md) with
their defaults, and the free values. A configuration is plain data carried by the state and changed by no
operation, so a statement about every state speaks of every configuration (R7: "A model takes them as
fields of its configuration"; spec/92_eei_decisions.md, Open parameters). -/

namespace Sys2Proof

/-- `PUMP_REARM_WHILE_ARMED` (R7, R233): what an enabling write does while the pump is armed. -/
inductive RearmPolicy where
  | idempotent
  | refuse
deriving DecidableEq, Repr

/-- `CART_UNEXPECTED_NEXT` (R7, R269): the state after a clocked bit in `READ_OUT` or `BUSY`. -/
inductive UnexpectedNext where
  | start
  | opA
deriving DecidableEq, Repr

/-- Which half of a 32-bit register (R22: `.hi` at the lower address, `.lo` at that address plus 2). -/
inductive RegHalf where
  | hi
  | lo
deriving DecidableEq, Repr

/-- `UNIT_CLOCK_EVENT` (R7, R304): what counts as a clock pulse of the CD-unit engine. -/
inductive ClockEvent where
  | risingEdge
  | levelPerWrite
deriving DecidableEq, Repr

/-- The parameters of R7, one field each, in the order of its table. -/
structure Config where
  /-- `BUTCH_BASE` -/
  butchBase : Nat
  /-- `BUTCH_WINDOW` -/
  butchWindow : Nat
  opcPlayTrack : BitVec 8
  opcStop : BitVec 8
  opcReadToc : BitVec 8
  opcPause : BitVec 8
  opcUnpause : BitVec 8
  opcGotoMin : BitVec 8
  opcGotoSec : BitVec 8
  opcGotoFrm : BitVec 8
  opcReadLongToc : BitVec 8
  opcSetMode : BitVec 8
  opcOversample : BitVec 8
  txpendBit : Fin 32
  rxpendBit : Fin 32
  /-- `CTRL_OVERLAY_BIT`: OPEN in R7. -/
  ctrlOverlayBit : Fin 32
  i2sEnDiscBit : Fin 32
  i2sEnConsumerBit : Fin 32
  i2sEnXferBit : Fin 32
  pumpRearmWhileArmed : RearmPolicy
  pcmLittleEndian : Bool
  /-- `WS_FALLING_BIT`: of the external mode register, whose width is the model's choice (notes/assumptions/18.md). -/
  wsFallingBit : Fin 32
  /-- `WS_FALLING_VALUE` -/
  wsFallingValue : Bool
  cartPortDo : Nat
  cartPortDi : Nat
  cartPortCs : Nat
  cartUnexpectedNext : UnexpectedNext
  cartErasePersists : Bool
  cartWenAtReset : Bool
  cartBusyWhenGated : Bool
  /-- `UNIT_BUS_HALF`: the half of `eebus` that carries the lines. -/
  unitBusHalf : RegHalf
  unitCsBit : Fin 16
  unitClkBit : Fin 16
  unitDiBit : Fin 16
  unitDoMask : Half
  unitClockEvent : ClockEvent
  unitStartBitCheck : Bool
  unitErasePersists : Bool
  /-- `LONG_TOC_ATTR(t)`: the tracks whose attribute is not the default 0, with their attributes. -/
  longTocAttr : List (Nat × Half)
  /-- `LEADOUT_ID`: OPEN in R7; the handle for which the adapter reports the lead-out LSN. -/
  leadoutId : Nat
deriving DecidableEq, Repr

/-- `CTRL_OVERLAY_BIT` has no default (R7, D21): an unknown bit position of the control register. -/
opaque Config.openCtrlOverlayBit : Fin 32

/-- `LEADOUT_ID` has no default (R7, D15): an unknown track handle. -/
opaque Config.openLeadoutId : Nat

/-- FREE VALUE. What the sector buffer holds after a `ReadSector` that returned false, one value for each
draw: "returns false and leaves `buf` unspecified" (R84, R237; U7 of spec/93_implementation_defined.md). -/
opaque Config.failedReadBytes : Nat → List Byte

/-- FREE VALUE. The `u16` that a TOC field holds when the number to be stored does not fit in 16 bits: the
spec gives the field 16 bits (R35) and says "No wrap-around is applied" (R131), so it states no result. -/
opaque Config.beyondU16 : Nat → Half

/-- The default of every parameter that has one (third column of R7's table); the two OPEN ones are unknown
constants. -/
def Config.default : Config where
  butchBase := 0xDFFF00
  butchWindow := 0x100
  opcPlayTrack := 0x01
  opcStop := 0x02
  opcReadToc := 0x03
  opcPause := 0x04
  opcUnpause := 0x05
  opcGotoMin := 0x10
  opcGotoSec := 0x11
  opcGotoFrm := 0x12
  opcReadLongToc := 0x14
  opcSetMode := 0x15
  opcOversample := 0x70
  txpendBit := 12
  rxpendBit := 13
  ctrlOverlayBit := Config.openCtrlOverlayBit
  i2sEnDiscBit := 0
  i2sEnConsumerBit := 1
  i2sEnXferBit := 2
  pumpRearmWhileArmed := .idempotent
  pcmLittleEndian := true
  wsFallingBit := 4
  wsFallingValue := true
  cartPortDo := 0xF14001
  cartPortDi := 0xF14801
  cartPortCs := 0xF15001
  cartUnexpectedNext := .start
  cartErasePersists := false
  cartWenAtReset := false
  cartBusyWhenGated := true
  unitBusHalf := .lo
  unitCsBit := 0
  unitClkBit := 1
  unitDiBit := 2
  unitDoMask := 0x0008
  unitClockEvent := .risingEdge
  unitStartBitCheck := true
  unitErasePersists := true
  longTocAttr := []
  leadoutId := Config.openLeadoutId

end Sys2Proof
end

