-- ==== Sys2Proof/Syntax.lean ====
section
/-! DEFINITION. The operations of the block as terms: one constructor of `Instr` for every row of
spec/opcode_table.json, and the encoded form in which one of them is presented to the block (`Access`: a port
and the bits at it). The block fetches no instructions (R21); its "instructions" are the operations of
spec/00_scope.md R10 and the encoded commands they carry (spec/30_encoding.md R100 to R113, decision D1). -/

namespace Sys2Proof

/-- The eleven registers of the BUTCH bundle (R22). -/
inductive RegName where
  | ctrl
  | dsctrl
  | dsdata
  | i2cntrl
  | sbcntrl
  | subdata
  | subdatb
  | sbtime
  | fifodata
  | i2sdat2
  | eebus
deriving DecidableEq, Repr

/-- The eleven DSA commands of R104; each has its opcode number in the configuration. -/
inductive DsaKind where
  | playTrack
  | stop
  | readToc
  | pause
  | unpause
  | gotoMin
  | gotoSec
  | gotoFrm
  | readLongToc
  | setMode
  | oversample
deriving DecidableEq, Repr

/-- Direction of a bus access (R102). -/
inductive Dir where
  | read
  | write
deriving DecidableEq, Repr

/-- Width of a bus access in bits; only 16 has a meaning in the window (R90). -/
inductive Width where
  | w8
  | w16
  | w32
deriving DecidableEq, Repr

/-- Where an operation is presented to the block: one port for each input format of spec/30_encoding.md. -/
inductive Port where
  /-- Format BUS (R102): an access to the register window, by byte offset from `BUTCH_BASE`. -/
  | window (dir : Dir) (width : Width)
  /-- The same access, and the three cartridge ports (R111), by system bus address. -/
  | system (dir : Dir) (width : Width)
  /-- Format DSA (R103): a command word for `dsdata.lo`. -/
  | dsa
  /-- Format CE (R106): a cartridge frame, clocked bit by bit. -/
  | cartFrame
  /-- `CartChipSelect` (R111). -/
  | cartSelect
  /-- `CartClock(b)` (R111). -/
  | cartClock
  /-- `CartReadDO` (R111). -/
  | cartQuery
  /-- Format UE (R108): a CD-unit packet, clocked pulse by pulse. -/
  | unitPacket
  /-- Format LINES (R110): a value written to the line half of `eebus`. -/
  | linesWrite
  /-- Format LINES (R110): a read of the line half of `eebus`. -/
  | linesRead
  /-- The timer agent (R5, R231). -/
  | timer
  /-- Reset (R5, R370). -/
  | resetLine
deriving DecidableEq, Repr

/-- One encoded operation: the port, its first word and its operand word. The spec gives a bus address no width: DESIGN CHOICE,
it has 32 bits, so a base or a cartridge port at 2^32 or above is addressed by no access (notes/assumptions/25.md).

| port | `head` | `data` |
|---|---|---|
| `window` | byte offset in bits 15:0 (R102) | the 16-bit value of a write |
| `system` | bus address, 32 bits | the 16-bit value of a write |
| `dsa` | the command word in bits 15:0 (R103) | |
| `cartFrame` | `s` bit 8, `op` bits 7:6, `a` bits 5:0: the nine clocks, first clock highest (R106) | `d15..d0` |
| `cartClock` | the value written to the port: `b` is bit 0 (R111) | |
| `unitPacket` | `unit.cmd` in bits 8:0, first pulse highest (R108) | `d15..d0` |
| `linesWrite` | the written value in bits 15:0 (R110) | | -/
structure Access where
  port : Port
  head : BitVec 32
  data : Half
deriving DecidableEq, Repr

/-- What the decoder needs to know of the engines: "same line encoding as COMMAND_BIT; the engine phase
selects" (opcode table, UNIT.DATA_BIT), "a clocked bit in state READ_OUT or BUSY" (CART.UNEXPECTED_CLOCK). -/
structure Phase where
  /-- `cart.state` is `READ_OUT` or `BUSY` (R269). -/
  cartStalled : Bool
  /-- `unit.ready` and `unit.cmd_cnt < 9`: the command phase (R301). -/
  unitCommand : Bool
  /-- `unit.dop` is not `NONE`: the data phase (R301). -/
  unitData : Bool
  /-- `unit.prev_clk` (R302). -/
  unitPrevClk : Bool
deriving DecidableEq, Repr

/-- The phase of both engines right after reset: idle. -/
def Phase.idle : Phase := ⟨false, false, false, false⟩

/-- Why the decoder reads no operation from an access. -/
inductive Reject where
  /-- The access is not 16-bit at an even offset (R90, R212). -/
  | unsupportedAccessWidth
  /-- The offset lies at or beyond `BUTCH_WINDOW`: "accesses outside the window never reach the block" (R212). -/
  | outsideWindow
  /-- The bus address is neither in the window nor a cartridge port in that direction (R4 item b, R82, R111). -/
  | notAddressed
deriving DecidableEq, Repr

/-- One constructor per row of spec/opcode_table.json. -/
inductive Instr where
  -- Format BUS: register accesses (R102, R190)
  /-- R16.CTRL_HI: R194 -/
  | r16CtrlHi
  /-- R16.CTRL_LO: R194 -/
  | r16CtrlLo
  /-- W16.CTRL_HI: R195 -/
  | w16CtrlHi (v : Half)
  /-- W16.CTRL_LO: R195 -/
  | w16CtrlLo (v : Half)
  /-- R16.DSCTRL_HI: R196 -/
  | r16DsctrlHi
  /-- W16.DSCTRL_HI: R196 -/
  | w16DsctrlHi (v : Half)
  /-- R16.DSCTRL_LO: R198 -/
  | r16DsctrlLo
  /-- W16.DSCTRL_LO: R197 -/
  | w16DsctrlLo (v : Half)
  /-- R16.DSDATA_HI: R199 -/
  | r16DsdataHi
  /-- W16.DSDATA_HI: R199 -/
  | w16DsdataHi (v : Half)
  /-- R16.DSDATA_LO: R201 -/
  | r16DsdataLo
  /-- W16.DSDATA_LO: R200 -/
  | w16DsdataLo (v : Half)
  /-- R16.I2CNTRL_HI: R202 -/
  | r16I2cntrlHi
  /-- R16.I2CNTRL_LO: R202 -/
  | r16I2cntrlLo
  /-- W16.I2CNTRL_HI: R203 -/
  | w16I2cntrlHi (v : Half)
  /-- W16.I2CNTRL_LO: R203 -/
  | w16I2cntrlLo (v : Half)
  /-- R16.SBCNTRL_HI: R204 -/
  | r16SbcntrlHi
  /-- W16.SBCNTRL_HI: R204 -/
  | w16SbcntrlHi (v : Half)
  /-- R16.SBCNTRL_LO: R204 -/
  | r16SbcntrlLo
  /-- W16.SBCNTRL_LO: R204 -/
  | w16SbcntrlLo (v : Half)
  /-- R16.SUBDATA_HI: R204 -/
  | r16SubdataHi
  /-- W16.SUBDATA_HI: R204 -/
  | w16SubdataHi (v : Half)
  /-- R16.SUBDATA_LO: R204 -/
  | r16SubdataLo
  /-- W16.SUBDATA_LO: R204 -/
  | w16SubdataLo (v : Half)
  /-- R16.SUBDATB_HI: R204 -/
  | r16SubdatbHi
  /-- W16.SUBDATB_HI: R204 -/
  | w16SubdatbHi (v : Half)
  /-- R16.SUBDATB_LO: R204 -/
  | r16SubdatbLo
  /-- W16.SUBDATB_LO: R204 -/
  | w16SubdatbLo (v : Half)
  /-- R16.SBTIME_HI: R204 -/
  | r16SbtimeHi
  /-- W16.SBTIME_HI: R204 -/
  | w16SbtimeHi (v : Half)
  /-- R16.SBTIME_LO: R204 -/
  | r16SbtimeLo
  /-- W16.SBTIME_LO: R204 -/
  | w16SbtimeLo (v : Half)
  /-- R16.FIFODATA_HI: R205 -/
  | r16FifodataHi
  /-- W16.FIFODATA_HI: R205 -/
  | w16FifodataHi (v : Half)
  /-- R16.FIFODATA_LO: R205 -/
  | r16FifodataLo
  /-- W16.FIFODATA_LO: R205 -/
  | w16FifodataLo (v : Half)
  /-- R16.I2SDAT2_HI: R205 -/
  | r16I2sdat2Hi
  /-- W16.I2SDAT2_HI: R205 -/
  | w16I2sdat2Hi (v : Half)
  /-- R16.I2SDAT2_LO: R205 -/
  | r16I2sdat2Lo
  /-- W16.I2SDAT2_LO: R205 -/
  | w16I2sdat2Lo (v : Half)
  /-- R16.EEBUS_HI: R206 -/
  | r16EebusHi
  /-- W16.EEBUS_HI: R206 -/
  | w16EebusHi (v : Half)
  /-- R16.EEBUS_LO: R208 -/
  | r16EebusLo
  /-- W16.EEBUS_LO: R207 -/
  | w16EebusLo (v : Half)
  /-- R16.UNRECOGNIZED: R211 -/
  | r16Unrecognized (off : Half)
  /-- W16.UNRECOGNIZED: R211 -/
  | w16Unrecognized (off : Half) (v : Half)
  -- Format DSA: command words (R103, R104); `p` is the parameter
  /-- DSA.PLAY_TRACK: R165 -/
  | dsaPlayTrack (p : Byte)
  /-- DSA.STOP: R166 -/
  | dsaStop (p : Byte)
  /-- DSA.READ_TOC: R169 -/
  | dsaReadToc (p : Byte)
  /-- DSA.PAUSE: R167 -/
  | dsaPause (p : Byte)
  /-- DSA.UNPAUSE: R168 -/
  | dsaUnpause (p : Byte)
  /-- DSA.GOTO_MIN: R171 -/
  | dsaGotoMin (p : Byte)
  /-- DSA.GOTO_SEC: R172 -/
  | dsaGotoSec (p : Byte)
  /-- DSA.GOTO_FRM: R173 -/
  | dsaGotoFrm (p : Byte)
  /-- DSA.READ_LONG_TOC: R170 -/
  | dsaReadLongToc (p : Byte)
  /-- DSA.SET_MODE: R174 -/
  | dsaSetMode (p : Byte)
  /-- DSA.OVERSAMPLE: R175 -/
  | dsaOversample (p : Byte)
  /-- DSA.ZERO_WORD: R160 -/
  | dsaZeroWord
  /-- DSA.UNRECOGNIZED: R176 -/
  | dsaUnrecognized (opc : Byte) (p : Byte)
  -- Format CE and the cartridge ports (R106, R107, R111): `s` start bit, `x` ignored address bits
  /-- CART.EWDS: R266 -/
  | cartEwds (s : Bool) (x : BitVec 4)
  /-- CART.WRAL: R271 -/
  | cartWral (s : Bool) (x : BitVec 4) (d : Half)
  /-- CART.ERAL: R273 -/
  | cartEral (s : Bool) (x : BitVec 4)
  /-- CART.EWEN: R267 -/
  | cartEwen (s : Bool) (x : BitVec 4)
  /-- CART.WRITE: R270 -/
  | cartWrite (s : Bool) (a : BitVec 6) (d : Half)
  /-- CART.READ: R274 -/
  | cartRead (s : Bool) (a : BitVec 6)
  /-- CART.ERASE: R272 -/
  | cartErase (s : Bool) (a : BitVec 6)
  /-- CART.CHIPSELECT: R261 -/
  | cartChipselect
  /-- CART.CLOCK: R263 -/
  | cartClock (b : Bool)
  /-- CART.READDO: R275 -/
  | cartReaddo
  /-- CART.UNEXPECTED_CLOCK: R269 -/
  | cartUnexpectedClock (b : Bool)
  -- Format UE (R108, R109): `s` is bit 8 of the packet; `unitWral`, `unitWrite` carry the 16 data pulses
  /-- UNIT.EWDS: R309 -/
  | unitEwds (s : Bool) (x : BitVec 4)
  /-- UNIT.WRAL: R312 -/
  | unitWral (s : Bool) (x : BitVec 4) (d : Half)
  /-- UNIT.ERAL: R316 -/
  | unitEral (s : Bool) (x : BitVec 4)
  /-- UNIT.EWEN: R310 -/
  | unitEwen (s : Bool) (x : BitVec 4)
  /-- UNIT.WRITE: R311 -/
  | unitWrite (s : Bool) (a : BitVec 6) (d : Half)
  /-- UNIT.READ: R314 -/
  | unitRead (s : Bool) (a : BitVec 6)
  /-- UNIT.ERASE: R315 -/
  | unitErase (s : Bool) (a : BitVec 6)
  /-- UNIT.MALFORMED: R308 -/
  | unitMalformed (op : BitVec 2) (a : BitVec 6)
  -- Format LINES (R110): `v` is the whole value written to the line half
  /-- UNIT.LINES_WRITE: R302 -/
  | unitLinesWrite (v : Half)
  /-- UNIT.CHIPSELECT: R303 -/
  | unitChipselect (v : Half)
  /-- UNIT.COMMAND_BIT: R307 -/
  | unitCommandBit (v : Half)
  /-- UNIT.DATA_BIT: R313 -/
  | unitDataBit (v : Half)
  /-- UNIT.LINES_READ: R318 -/
  | unitLinesRead
  -- The timer agent and reset (R5)
  /-- PUMP.TICK: R240 -/
  | pumpTick
  /-- RESET: R370 -/
  | reset
deriving DecidableEq, Repr

end Sys2Proof
end

