-- ==== Sys2Proof/WellFormed.lean ====
section
/-! DEFINITION. When an operation is well formed: its operands are ones the encodings of
spec/30_encoding.md can carry, under the configuration and in the engine phase at hand. -/

namespace Sys2Proof

/-- The opcode number of a DSA command (R7, R104). -/
def Config.opc (c : Config) : DsaKind → Byte
  | .playTrack => c.opcPlayTrack
  | .stop => c.opcStop
  | .readToc => c.opcReadToc
  | .pause => c.opcPause
  | .unpause => c.opcUnpause
  | .gotoMin => c.opcGotoMin
  | .gotoSec => c.opcGotoSec
  | .gotoFrm => c.opcGotoFrm
  | .readLongToc => c.opcReadLongToc
  | .setMode => c.opcSetMode
  | .oversample => c.opcOversample

/-- The eleven DSA commands in the order of R160's decode. -/
def DsaKind.all : List DsaKind :=
  [.playTrack, .stop, .pause, .unpause, .readToc, .readLongToc, .gotoMin, .gotoSec, .gotoFrm, .setMode, .oversample]

/-- "The `OPC_*` values must be pairwise different" (R104). -/
def Config.opcsDistinct (c : Config) : Bool :=
  decide (DsaKind.all.map c.opc).Nodup

/-- Byte offset of a register half (R22, R190). -/
def halfOffset : RegName → RegHalf → Nat
  | .ctrl, .hi => 0x00
  | .ctrl, .lo => 0x02
  | .dsctrl, .hi => 0x04
  | .dsctrl, .lo => 0x06
  | .dsdata, .hi => 0x08
  | .dsdata, .lo => 0x0A
  | .i2cntrl, .hi => 0x10
  | .i2cntrl, .lo => 0x12
  | .sbcntrl, .hi => 0x14
  | .sbcntrl, .lo => 0x16
  | .subdata, .hi => 0x18
  | .subdata, .lo => 0x1A
  | .subdatb, .hi => 0x1C
  | .subdatb, .lo => 0x1E
  | .sbtime, .hi => 0x20
  | .sbtime, .lo => 0x22
  | .fifodata, .hi => 0x24
  | .fifodata, .lo => 0x26
  | .i2sdat2, .hi => 0x28
  | .i2sdat2, .lo => 0x2A
  | .eebus, .hi => 0x2C
  | .eebus, .lo => 0x2E

/-- One of the 22 recognized halves, by offset (R81, R190). -/
def recognizedOffset (off : Nat) : Bool :=
  off % 2 == 0 && (off ≤ 0x0A || (0x10 ≤ off && off ≤ 0x2E))

/-- The chip-select line of a value written to the line half (R110). -/
def Config.lineCs (c : Config) (v : Half) : Bool := v.getLsbD c.unitCsBit

/-- The strobe line of a value written to the line half (R110). -/
def Config.lineClk (c : Config) (v : Half) : Bool := v.getLsbD c.unitClkBit

/-- The data line of a value written to the line half (R110). -/
def Config.lineDi (c : Config) (v : Half) : Bool := v.getLsbD c.unitDiBit

/-- A clock pulse: a write with the strobe at 1 that also, under `rising_edge`, follows one with the strobe
at 0 (R302, R304). Chip-select is tested before it. -/
def Config.pulse (c : Config) (clk prevClk : Bool) : Bool :=
  match c.unitClockEvent with
  | .risingEdge => clk && !prevClk
  | .levelPerWrite => clk

/-- The DSA word `(opc << 8) | p` (R103). -/
def dsaWord (opc p : Byte) : Half := opc ++ p

/-- A command of R104 can be told by its word: the opcode numbers differ and the word is not 0x0000. -/
def Config.dsaOk (c : Config) (k : DsaKind) (p : Byte) : Bool :=
  c.opcsDistinct && dsaWord (c.opc k) p != 0

/-- Bit 8 of a CD-unit packet is 1 unless the check is off (R108). -/
def Config.startOk (c : Config) (s : Bool) : Bool := s || !c.unitStartBitCheck

/-- Well-formedness of an operation. Register accesses lie inside the window (R102); an unrecognized offset is even,
inside it and none of the 22; an unrecognized DSA word is neither zero nor one of the eleven commands (R176); a
clock is unexpected exactly in `READ_OUT` and `BUSY` (R269); a packet has its start bit (R108) and is malformed only
under the check (R308); a line write is the row its chip-select, its strobe and the phase select (R302). -/
def Instr.wf (c : Config) (ph : Phase) : Instr → Bool
  | .r16CtrlHi => halfOffset .ctrl .hi < c.butchWindow
  | .r16CtrlLo => halfOffset .ctrl .lo < c.butchWindow
  | .w16CtrlHi _ => halfOffset .ctrl .hi < c.butchWindow
  | .w16CtrlLo _ => halfOffset .ctrl .lo < c.butchWindow
  | .r16DsctrlHi => halfOffset .dsctrl .hi < c.butchWindow
  | .w16DsctrlHi _ => halfOffset .dsctrl .hi < c.butchWindow
  | .r16DsctrlLo => halfOffset .dsctrl .lo < c.butchWindow
  | .w16DsctrlLo _ => halfOffset .dsctrl .lo < c.butchWindow
  | .r16DsdataHi => halfOffset .dsdata .hi < c.butchWindow
  | .w16DsdataHi _ => halfOffset .dsdata .hi < c.butchWindow
  | .r16DsdataLo => halfOffset .dsdata .lo < c.butchWindow
  | .w16DsdataLo _ => halfOffset .dsdata .lo < c.butchWindow
  | .r16I2cntrlHi => halfOffset .i2cntrl .hi < c.butchWindow
  | .r16I2cntrlLo => halfOffset .i2cntrl .lo < c.butchWindow
  | .w16I2cntrlHi _ => halfOffset .i2cntrl .hi < c.butchWindow
  | .w16I2cntrlLo _ => halfOffset .i2cntrl .lo < c.butchWindow
  | .r16SbcntrlHi => halfOffset .sbcntrl .hi < c.butchWindow
  | .w16SbcntrlHi _ => halfOffset .sbcntrl .hi < c.butchWindow
  | .r16SbcntrlLo => halfOffset .sbcntrl .lo < c.butchWindow
  | .w16SbcntrlLo _ => halfOffset .sbcntrl .lo < c.butchWindow
  | .r16SubdataHi => halfOffset .subdata .hi < c.butchWindow
  | .w16SubdataHi _ => halfOffset .subdata .hi < c.butchWindow
  | .r16SubdataLo => halfOffset .subdata .lo < c.butchWindow
  | .w16SubdataLo _ => halfOffset .subdata .lo < c.butchWindow
  | .r16SubdatbHi => halfOffset .subdatb .hi < c.butchWindow
  | .w16SubdatbHi _ => halfOffset .subdatb .hi < c.butchWindow
  | .r16SubdatbLo => halfOffset .subdatb .lo < c.butchWindow
  | .w16SubdatbLo _ => halfOffset .subdatb .lo < c.butchWindow
  | .r16SbtimeHi => halfOffset .sbtime .hi < c.butchWindow
  | .w16SbtimeHi _ => halfOffset .sbtime .hi < c.butchWindow
  | .r16SbtimeLo => halfOffset .sbtime .lo < c.butchWindow
  | .w16SbtimeLo _ => halfOffset .sbtime .lo < c.butchWindow
  | .r16FifodataHi => halfOffset .fifodata .hi < c.butchWindow
  | .w16FifodataHi _ => halfOffset .fifodata .hi < c.butchWindow
  | .r16FifodataLo => halfOffset .fifodata .lo < c.butchWindow
  | .w16FifodataLo _ => halfOffset .fifodata .lo < c.butchWindow
  | .r16I2sdat2Hi => halfOffset .i2sdat2 .hi < c.butchWindow
  | .w16I2sdat2Hi _ => halfOffset .i2sdat2 .hi < c.butchWindow
  | .r16I2sdat2Lo => halfOffset .i2sdat2 .lo < c.butchWindow
  | .w16I2sdat2Lo _ => halfOffset .i2sdat2 .lo < c.butchWindow
  | .r16EebusHi => halfOffset .eebus .hi < c.butchWindow
  | .w16EebusHi _ => halfOffset .eebus .hi < c.butchWindow
  | .r16EebusLo => halfOffset .eebus .lo < c.butchWindow
  | .w16EebusLo _ => halfOffset .eebus .lo < c.butchWindow
  | .r16Unrecognized off => off.toNat < c.butchWindow && off.toNat % 2 == 0 && !recognizedOffset off.toNat
  | .w16Unrecognized off _ => off.toNat < c.butchWindow && off.toNat % 2 == 0 && !recognizedOffset off.toNat
  | .dsaPlayTrack p => c.dsaOk .playTrack p
  | .dsaStop p => c.dsaOk .stop p
  | .dsaReadToc p => c.dsaOk .readToc p
  | .dsaPause p => c.dsaOk .pause p
  | .dsaUnpause p => c.dsaOk .unpause p
  | .dsaGotoMin p => c.dsaOk .gotoMin p
  | .dsaGotoSec p => c.dsaOk .gotoSec p
  | .dsaGotoFrm p => c.dsaOk .gotoFrm p
  | .dsaReadLongToc p => c.dsaOk .readLongToc p
  | .dsaSetMode p => c.dsaOk .setMode p
  | .dsaOversample p => c.dsaOk .oversample p
  | .dsaZeroWord => true
  | .dsaUnrecognized opc p => dsaWord opc p != 0 && !(DsaKind.all.map c.opc).contains opc
  | .cartEwds _ _ => true
  | .cartWral _ _ _ => true
  | .cartEral _ _ => true
  | .cartEwen _ _ => true
  | .cartWrite _ _ _ => true
  | .cartRead _ _ => true
  | .cartErase _ _ => true
  | .cartChipselect => true
  | .cartClock _ => !ph.cartStalled
  | .cartReaddo => true
  | .cartUnexpectedClock _ => ph.cartStalled
  | .unitEwds s _ => c.startOk s
  | .unitWral s _ _ => c.startOk s
  | .unitEral s _ => c.startOk s
  | .unitEwen s _ => c.startOk s
  | .unitWrite s _ _ => c.startOk s
  | .unitRead s _ => c.startOk s
  | .unitErase s _ => c.startOk s
  | .unitMalformed _ _ => c.unitStartBitCheck
  | .unitLinesWrite v => !c.lineCs v && !(c.pulse (c.lineClk v) ph.unitPrevClk && (ph.unitCommand || ph.unitData))
  | .unitChipselect v => c.lineCs v
  | .unitCommandBit v => !c.lineCs v && c.pulse (c.lineClk v) ph.unitPrevClk && ph.unitCommand
  | .unitDataBit v => !c.lineCs v && c.pulse (c.lineClk v) ph.unitPrevClk && !ph.unitCommand && ph.unitData
  | .unitLinesRead => true
  | .pumpTick => true
  | .reset => true

end Sys2Proof
end

