-- ==== Sys2Proof/Decode.lean ====
section
/-! DEFINITION. Reading an operation from an access, total, rejecting by name; and the encoder, written from
the same tables of spec/30_encoding.md. -/

namespace Sys2Proof

/-! ## Field extraction -/

/-- Bits 7:6 of a serial frame head: the opcode (R106, R108). -/
def frameOp (head : BitVec 32) : BitVec 2 := head.extractLsb' 6 2

/-- Bits 5:0 of a serial frame head: the address (R106, R108). -/
def frameAddr (head : BitVec 32) : BitVec 6 := head.extractLsb' 0 6

/-- Bits 5:4: the sub-opcode, meaningful when the opcode is 00 (R106, R108). -/
def subOp (a : BitVec 6) : BitVec 2 := a.extractLsb' 4 2

/-- Bits 3:0 of the address: ignored when the opcode is 00 (R106, R112). -/
def subRest (a : BitVec 6) : BitVec 4 := a.extractLsb' 0 4

/-- Bit 8 of a serial frame head: the first clocked bit (R106, R108). -/
def frameStart (head : BitVec 32) : Bool := head.getLsbD 8

/-- High byte of a DSA word (R103). -/
def dsaOpc (w : Half) : Byte := w.extractLsb' 8 8

/-- Low byte of a DSA word (R103). -/
def dsaParam (w : Half) : Byte := w.extractLsb' 0 8

/-! ## Format BUS -/

/-- The register half at an offset (R190). -/
def halfAt (off : Nat) : Option (RegName × RegHalf) :=
  match off with
  | 0x00 => some (.ctrl, .hi)
  | 0x02 => some (.ctrl, .lo)
  | 0x04 => some (.dsctrl, .hi)
  | 0x06 => some (.dsctrl, .lo)
  | 0x08 => some (.dsdata, .hi)
  | 0x0A => some (.dsdata, .lo)
  | 0x10 => some (.i2cntrl, .hi)
  | 0x12 => some (.i2cntrl, .lo)
  | 0x14 => some (.sbcntrl, .hi)
  | 0x16 => some (.sbcntrl, .lo)
  | 0x18 => some (.subdata, .hi)
  | 0x1A => some (.subdata, .lo)
  | 0x1C => some (.subdatb, .hi)
  | 0x1E => some (.subdatb, .lo)
  | 0x20 => some (.sbtime, .hi)
  | 0x22 => some (.sbtime, .lo)
  | 0x24 => some (.fifodata, .hi)
  | 0x26 => some (.fifodata, .lo)
  | 0x28 => some (.i2sdat2, .hi)
  | 0x2A => some (.i2sdat2, .lo)
  | 0x2C => some (.eebus, .hi)
  | 0x2E => some (.eebus, .lo)
  | _ => none

/-- The read row of a register half (R190). -/
def readInstr : RegName → RegHalf → Instr
  | .ctrl, .hi => .r16CtrlHi
  | .ctrl, .lo => .r16CtrlLo
  | .dsctrl, .hi => .r16DsctrlHi
  | .dsctrl, .lo => .r16DsctrlLo
  | .dsdata, .hi => .r16DsdataHi
  | .dsdata, .lo => .r16DsdataLo
  | .i2cntrl, .hi => .r16I2cntrlHi
  | .i2cntrl, .lo => .r16I2cntrlLo
  | .sbcntrl, .hi => .r16SbcntrlHi
  | .sbcntrl, .lo => .r16SbcntrlLo
  | .subdata, .hi => .r16SubdataHi
  | .subdata, .lo => .r16SubdataLo
  | .subdatb, .hi => .r16SubdatbHi
  | .subdatb, .lo => .r16SubdatbLo
  | .sbtime, .hi => .r16SbtimeHi
  | .sbtime, .lo => .r16SbtimeLo
  | .fifodata, .hi => .r16FifodataHi
  | .fifodata, .lo => .r16FifodataLo
  | .i2sdat2, .hi => .r16I2sdat2Hi
  | .i2sdat2, .lo => .r16I2sdat2Lo
  | .eebus, .hi => .r16EebusHi
  | .eebus, .lo => .r16EebusLo

/-- The write row of a register half (R190). -/
def writeInstr (v : Half) : RegName → RegHalf → Instr
  | .ctrl, .hi => .w16CtrlHi v
  | .ctrl, .lo => .w16CtrlLo v
  | .dsctrl, .hi => .w16DsctrlHi v
  | .dsctrl, .lo => .w16DsctrlLo v
  | .dsdata, .hi => .w16DsdataHi v
  | .dsdata, .lo => .w16DsdataLo v
  | .i2cntrl, .hi => .w16I2cntrlHi v
  | .i2cntrl, .lo => .w16I2cntrlLo v
  | .sbcntrl, .hi => .w16SbcntrlHi v
  | .sbcntrl, .lo => .w16SbcntrlLo v
  | .subdata, .hi => .w16SubdataHi v
  | .subdata, .lo => .w16SubdataLo v
  | .subdatb, .hi => .w16SubdatbHi v
  | .subdatb, .lo => .w16SubdatbLo v
  | .sbtime, .hi => .w16SbtimeHi v
  | .sbtime, .lo => .w16SbtimeLo v
  | .fifodata, .hi => .w16FifodataHi v
  | .fifodata, .lo => .w16FifodataLo v
  | .i2sdat2, .hi => .w16I2sdat2Hi v
  | .i2sdat2, .lo => .w16I2sdat2Lo v
  | .eebus, .hi => .w16EebusHi v
  | .eebus, .lo => .w16EebusLo v

/-- An access at a byte offset: outside the window it is not this block's (R212), inside it only an aligned 16-bit
access has a meaning (R90), and an offset that is none of the 22 halves is unrecognized (R102, R211). For an odd `BUTCH_WINDOW`,
which no rule excludes, R102 and R190 differ on the even offset `BUTCH_WINDOW` - 1: DESIGN CHOICE, it is inside
(notes/assumptions/24.md). -/
def decodeWindow (c : Config) (dir : Dir) (width : Width) (off : Nat) (v : Half) : Except Reject Instr :=
  if off ≥ c.butchWindow then .error .outsideWindow
  else if width ≠ .w16 ∨ off % 2 = 1 then .error .unsupportedAccessWidth
  else
    match halfAt off, dir with
    | some (r, h), .read => .ok (readInstr r h)
    | some (r, h), .write => .ok (writeInstr v r h)
    | none, .read => .ok (.r16Unrecognized (BitVec.ofNat 16 off))
    | none, .write => .ok (.w16Unrecognized (BitVec.ofNat 16 off) v)

/-! ## Format DSA -/

/-- The command an opcode selects (R104, R160). -/
def Config.dsaKind (c : Config) (opc : Byte) : Option DsaKind :=
  DsaKind.all.find? (fun k => c.opc k == opc)

/-- The row of a DSA command (R104). -/
def dsaInstr (p : Byte) : DsaKind → Instr
  | .playTrack => .dsaPlayTrack p
  | .stop => .dsaStop p
  | .readToc => .dsaReadToc p
  | .pause => .dsaPause p
  | .unpause => .dsaUnpause p
  | .gotoMin => .dsaGotoMin p
  | .gotoSec => .dsaGotoSec p
  | .gotoFrm => .dsaGotoFrm p
  | .readLongToc => .dsaReadLongToc p
  | .setMode => .dsaSetMode p
  | .oversample => .dsaOversample p

/-- A DSA word: the zero word, one of the eleven commands, or unrecognized (R104, R112). -/
def decodeDsa (c : Config) (w : Half) : Instr :=
  if w = 0 then .dsaZeroWord
  else
    match c.dsaKind (dsaOpc w) with
    | some k => dsaInstr (dsaParam w) k
    | none => .dsaUnrecognized (dsaOpc w) (dsaParam w)

/-! ## Formats CE, UE and LINES -/

/-- The cartridge opcode map, total (R107). -/
def decodeCartFrame (head : BitVec 32) (d : Half) : Instr :=
  let s := frameStart head
  let a := frameAddr head
  match frameOp head with
  | 0 =>
    match subOp a with
    | 0 => .cartEwds s (subRest a)
    | 1 => .cartWral s (subRest a) d
    | 2 => .cartEral s (subRest a)
    | 3 => .cartEwen s (subRest a)
  | 1 => .cartWrite s a d
  | 2 => .cartRead s a
  | 3 => .cartErase s a

/-- The CD-unit opcode map (R109): with the check, a packet whose bit 8 is 0 is malformed. -/
def decodeUnitPacket (c : Config) (head : BitVec 32) (d : Half) : Instr :=
  let s := frameStart head
  let a := frameAddr head
  if c.startOk s then
    match frameOp head with
    | 0 =>
      match subOp a with
      | 0 => .unitEwds s (subRest a)
      | 1 => .unitWral s (subRest a) d
      | 2 => .unitEral s (subRest a)
      | 3 => .unitEwen s (subRest a)
    | 1 => .unitWrite s a d
    | 2 => .unitRead s a
    | 3 => .unitErase s a
  else .unitMalformed (frameOp head) a

/-- The row of a value written to the line half: chip-select first, then the strobe, then the phase (R302). -/
def decodeLines (c : Config) (ph : Phase) (v : Half) : Instr :=
  if c.lineCs v then .unitChipselect v
  else if c.pulse (c.lineClk v) ph.unitPrevClk then
    if ph.unitCommand then .unitCommandBit v
    else if ph.unitData then .unitDataBit v
    else .unitLinesWrite v
  else .unitLinesWrite v

/-- A clock of the cartridge engine, expected or not (R263, R269). -/
def decodeCartClock (ph : Phase) (b : Bool) : Instr :=
  if ph.cartStalled then .cartUnexpectedClock b else .cartClock b

/-! ## System bus addresses -/

/-- An access by system bus address (of 32 bits, DESIGN CHOICE: notes/assumptions/25.md): the window stands at
`BUTCH_BASE` (R81, D3); the cartridge engine is behind three ports (R111, D28), of which `CART_PORT_CS` takes reads and
writes. Where the parameters put a port inside the window, or two ports at one address, the spec gives no priority:
DESIGN CHOICE, the window comes first, then `CART_PORT_CS`, then the data ports (notes/assumptions/23.md). -/
def decodeSystem (c : Config) (ph : Phase) (dir : Dir) (width : Width) (addr : Nat) (v : Half) : Except Reject Instr :=
  if c.butchBase ≤ addr ∧ addr < c.butchBase + c.butchWindow then
    decodeWindow c dir width (addr - c.butchBase) v
  else if addr = c.cartPortCs then .ok .cartChipselect
  else
    match dir with
    | .read => if addr = c.cartPortDo then .ok .cartReaddo else .error .notAddressed
    | .write => if addr = c.cartPortDi then .ok (decodeCartClock ph (v.getLsbD 0)) else .error .notAddressed

/-! ## The decoder -/

/-- The operation an access carries. Total: every access is an operation or is rejected by name. A window smaller than the
register map is not excluded by R341, and the spec says nothing of it: DESIGN CHOICE, only the ports of window accesses are cut
off by it, not `dsa`, `unitPacket`, `linesWrite` and `linesRead`, which carry no address (notes/assumptions/24.md). -/
def decode (c : Config) (ph : Phase) (acc : Access) : Except Reject Instr :=
  match acc.port with
  | .window dir width => decodeWindow c dir width (acc.head.setWidth 16).toNat acc.data
  | .system dir width => decodeSystem c ph dir width acc.head.toNat acc.data
  | .dsa => .ok (decodeDsa c (acc.head.setWidth 16))
  | .cartFrame => .ok (decodeCartFrame acc.head acc.data)
  | .cartSelect => .ok .cartChipselect
  | .cartClock => .ok (decodeCartClock ph (acc.head.getLsbD 0))
  | .cartQuery => .ok .cartReaddo
  | .unitPacket => .ok (decodeUnitPacket c acc.head acc.data)
  | .linesWrite => .ok (decodeLines c ph (acc.head.setWidth 16))
  | .linesRead => .ok .unitLinesRead
  | .timer => .ok .pumpTick
  | .resetLine => .ok .reset

/-! ## The encoder -/

/-- A read of the window (R102). -/
def encodeRead (off : Nat) : Access := ⟨.window .read .w16, BitVec.ofNat 32 off, 0⟩

/-- A write of the window (R102). -/
def encodeWrite (off : Nat) (v : Half) : Access := ⟨.window .write .w16, BitVec.ofNat 32 off, v⟩

/-- A DSA word (R103). -/
def encodeDsa (opc p : Byte) : Access := ⟨.dsa, (dsaWord opc p).setWidth 32, 0⟩

/-- The nine bits `s op a` of a serial frame, `s` highest (R106, R108). -/
def frameHead (s : Bool) (op : BitVec 2) (a : BitVec 6) : BitVec 32 := ((BitVec.ofBool s ++ op ++ a : BitVec 9)).setWidth 32

/-- A cartridge frame (R107). -/
def encodeCart (s : Bool) (op : BitVec 2) (a : BitVec 6) (d : Half) : Access := ⟨.cartFrame, frameHead s op a, d⟩

/-- A CD-unit packet (R109). -/
def encodeUnit (s : Bool) (op : BitVec 2) (a : BitVec 6) (d : Half) : Access := ⟨.unitPacket, frameHead s op a, d⟩

/-- A value for the line half (R110). -/
def encodeLines (v : Half) : Access := ⟨.linesWrite, v.setWidth 32, 0⟩

/-- The access of an operation, from the tables R104, R107, R109, R110, R111 and R190. -/
def encode (c : Config) : Instr → Access
  | .r16CtrlHi => encodeRead 0x00
  | .r16CtrlLo => encodeRead 0x02
  | .w16CtrlHi v => encodeWrite 0x00 v
  | .w16CtrlLo v => encodeWrite 0x02 v
  | .r16DsctrlHi => encodeRead 0x04
  | .w16DsctrlHi v => encodeWrite 0x04 v
  | .r16DsctrlLo => encodeRead 0x06
  | .w16DsctrlLo v => encodeWrite 0x06 v
  | .r16DsdataHi => encodeRead 0x08
  | .w16DsdataHi v => encodeWrite 0x08 v
  | .r16DsdataLo => encodeRead 0x0A
  | .w16DsdataLo v => encodeWrite 0x0A v
  | .r16I2cntrlHi => encodeRead 0x10
  | .r16I2cntrlLo => encodeRead 0x12
  | .w16I2cntrlHi v => encodeWrite 0x10 v
  | .w16I2cntrlLo v => encodeWrite 0x12 v
  | .r16SbcntrlHi => encodeRead 0x14
  | .w16SbcntrlHi v => encodeWrite 0x14 v
  | .r16SbcntrlLo => encodeRead 0x16
  | .w16SbcntrlLo v => encodeWrite 0x16 v
  | .r16SubdataHi => encodeRead 0x18
  | .w16SubdataHi v => encodeWrite 0x18 v
  | .r16SubdataLo => encodeRead 0x1A
  | .w16SubdataLo v => encodeWrite 0x1A v
  | .r16SubdatbHi => encodeRead 0x1C
  | .w16SubdatbHi v => encodeWrite 0x1C v
  | .r16SubdatbLo => encodeRead 0x1E
  | .w16SubdatbLo v => encodeWrite 0x1E v
  | .r16SbtimeHi => encodeRead 0x20
  | .w16SbtimeHi v => encodeWrite 0x20 v
  | .r16SbtimeLo => encodeRead 0x22
  | .w16SbtimeLo v => encodeWrite 0x22 v
  | .r16FifodataHi => encodeRead 0x24
  | .w16FifodataHi v => encodeWrite 0x24 v
  | .r16FifodataLo => encodeRead 0x26
  | .w16FifodataLo v => encodeWrite 0x26 v
  | .r16I2sdat2Hi => encodeRead 0x28
  | .w16I2sdat2Hi v => encodeWrite 0x28 v
  | .r16I2sdat2Lo => encodeRead 0x2A
  | .w16I2sdat2Lo v => encodeWrite 0x2A v
  | .r16EebusHi => encodeRead 0x2C
  | .w16EebusHi v => encodeWrite 0x2C v
  | .r16EebusLo => encodeRead 0x2E
  | .w16EebusLo v => encodeWrite 0x2E v
  | .r16Unrecognized off => encodeRead off.toNat
  | .w16Unrecognized off v => encodeWrite off.toNat v
  | .dsaPlayTrack p => encodeDsa c.opcPlayTrack p
  | .dsaStop p => encodeDsa c.opcStop p
  | .dsaReadToc p => encodeDsa c.opcReadToc p
  | .dsaPause p => encodeDsa c.opcPause p
  | .dsaUnpause p => encodeDsa c.opcUnpause p
  | .dsaGotoMin p => encodeDsa c.opcGotoMin p
  | .dsaGotoSec p => encodeDsa c.opcGotoSec p
  | .dsaGotoFrm p => encodeDsa c.opcGotoFrm p
  | .dsaReadLongToc p => encodeDsa c.opcReadLongToc p
  | .dsaSetMode p => encodeDsa c.opcSetMode p
  | .dsaOversample p => encodeDsa c.opcOversample p
  | .dsaZeroWord => encodeDsa 0 0
  | .dsaUnrecognized opc p => encodeDsa opc p
  | .cartEwds s x => encodeCart s 0 (0#2 ++ x) 0
  | .cartWral s x d => encodeCart s 0 (1#2 ++ x) d
  | .cartEral s x => encodeCart s 0 (2#2 ++ x) 0
  | .cartEwen s x => encodeCart s 0 (3#2 ++ x) 0
  | .cartWrite s a d => encodeCart s 1 a d
  | .cartRead s a => encodeCart s 2 a 0
  | .cartErase s a => encodeCart s 3 a 0
  | .cartChipselect => ⟨.cartSelect, 0, 0⟩
  | .cartClock b => ⟨.cartClock, (BitVec.ofBool b).setWidth 32, 0⟩
  | .cartReaddo => ⟨.cartQuery, 0, 0⟩
  | .cartUnexpectedClock b => ⟨.cartClock, (BitVec.ofBool b).setWidth 32, 0⟩
  | .unitEwds s x => encodeUnit s 0 (0#2 ++ x) 0
  | .unitWral s x d => encodeUnit s 0 (1#2 ++ x) d
  | .unitEral s x => encodeUnit s 0 (2#2 ++ x) 0
  | .unitEwen s x => encodeUnit s 0 (3#2 ++ x) 0
  | .unitWrite s a d => encodeUnit s 1 a d
  | .unitRead s a => encodeUnit s 2 a 0
  | .unitErase s a => encodeUnit s 3 a 0
  | .unitMalformed op a => encodeUnit false op a 0
  | .unitLinesWrite v => encodeLines v
  | .unitChipselect v => encodeLines v
  | .unitCommandBit v => encodeLines v
  | .unitDataBit v => encodeLines v
  | .unitLinesRead => ⟨.linesRead, 0, 0⟩
  | .pumpTick => ⟨.timer, 0, 0⟩
  | .reset => ⟨.resetLine, 0, 0⟩

/-! ## Words as the opcode table numbers them -/

/-- The access a bare word of spec/opcode_table.json stands for. The table gives a row's bits and not its port, so words of
different formats coincide (a read and a write of one offset; a DSA word and a packet). The port is chosen by length and
parity: up to 8 bits, an even word is a 16-bit READ at that offset and an odd one, which is no offset (R90), a value
of the line half; up to 16 bits, a word 0x0110 to 0x01FF is a CD-unit packet and any other a DSA word; a longer word
is a cartridge frame with its data above bit 8. Every bit above `nbits` is 0. -/
def tableAccess (nbits w : Nat) : Access :=
  let v := w % 2 ^ nbits
  if nbits ≤ 8 then
    if v % 2 = 0 then ⟨.window .read .w16, BitVec.ofNat 32 v, 0⟩
    else ⟨.linesWrite, BitVec.ofNat 32 v, 0⟩
  else if nbits ≤ 16 then
    if 0x0110 ≤ v ∧ v < 0x0200 then ⟨.unitPacket, BitVec.ofNat 32 v, 0⟩
    else ⟨.dsa, BitVec.ofNat 32 v, 0⟩
  else ⟨.cartFrame, BitVec.ofNat 32 (v % 2 ^ 9), BitVec.ofNat 16 (v / 2 ^ 9)⟩

/-- The operation the decoder reads from a bare word of the opcode table, with the default configuration and both
engines idle. -/
def decodeTableWord (nbits w : Nat) : Option Instr :=
  match decode Config.default Phase.idle (tableAccess nbits w) with
  | .ok i => some i
  | .error _ => none

end Sys2Proof
end

