-- ==== Sys2Proof/Machine/State.lean ====
section
/-! DEFINITION. The state of the block (spec/10_state.md R20 to R73), as plain data, with what the model adds to it: the
configuration, the environment's answers (the disc adapter, the external mode register), the operations waiting to be
presented, the value the last read returned and the trace of events; the reasons a step stops; the state after reset. -/

namespace Sys2Proof.Machine

/-! ## Byte stores -/

/-- The three byte-addressed stores of the block (R9, R80). -/
inductive Space where
  | nvCart
  | nvUnit
  | sector
deriving DecidableEq, Repr

/-- Bytes of a store: an image is 128 bytes (R70), the sector buffer 2352 + 96 (R41, R84). -/
def Space.size : Space → Nat
  | .nvCart => 128
  | .nvUnit => 128
  | .sector => 2448

/-- What an address without an entry reads as: the erased value in an image (R70), zero in the sector buffer. The spec
leaves the buffer's content after reset unspecified and never read (R41, U7); see notes/assumptions/5.md. -/
def Space.unlisted : Space → Byte
  | .nvCart => 0xFF
  | .nvUnit => 0xFF
  | .sector => 0x00

/-- A byte store: pairs of address and byte, addresses rising, no pair holding the unlisted byte. -/
abbrev Memory := List Host.Cell

/-! ## The register bundle -/

/-- A 32-bit register as its two stored halves (R22). -/
structure Reg32 where
  hi : Half
  lo : Half
deriving DecidableEq, Repr

/-- The eleven registers of the bundle (R22). -/
structure Regs where
  ctrl : Reg32
  dsctrl : Reg32
  dsdata : Reg32
  i2cntrl : Reg32
  sbcntrl : Reg32
  subdata : Reg32
  subdatb : Reg32
  sbtime : Reg32
  fifodata : Reg32
  i2sdat2 : Reg32
  eebus : Reg32
deriving DecidableEq, Repr

/-! ## Command FIFO, dispatcher, TOC table -/

/-- The command FIFO (R32): 512 slots and two cursors 0..511. -/
structure Fifo where
  slots : Vector Half 512
  rd : Fin 512
  wr : Fin 512
deriving DecidableEq, Repr

/-- Dispatcher state (R34). -/
structure Dispatcher where
  adapterOk : Bool
  gotoMin : Byte
  gotoSec : Byte
  gotoFrm : Byte
  targetSector : Int
  playMode : Byte
deriving DecidableEq, Repr

/-- `TOCEntry` (R35): five `u16` fields. -/
structure TocEntry where
  firstTrack : Half
  lastTrack : Half
  minutes : Half
  seconds : Half
  frames : Half
deriving DecidableEq, Repr

/-- The TOC table and its bounds (R35): entry 0 the last short TOC, entries 1..99 the last long TOC. -/
structure Toc where
  entries : Vector TocEntry 100
  startTrack : Half
  endTrack : Half
deriving DecidableEq, Repr

/-! ## Timer and pump -/

/-- The sample cadence (R40): 44100 or 88200. -/
inductive Rate where
  | single
  | double
deriving DecidableEq, Repr

/-- `rate` in Hz (R6). -/
def Rate.hz : Rate → Nat
  | .single => 44100
  | .double => 88200

/-- Timer (R40) and pump (R41) state. -/
structure Pump where
  armed : Bool
  rate : Rate
  /-- Delay of the scheduled tick in microseconds, an exact rational (R40, R232). -/
  periodUs : Rat
  sector : Int
  cursor : Nat
  dirty : Bool
  buf : Memory
  bufValid : Bool
  prevRight : Half
  outLeft : Half
  outRight : Half
deriving DecidableEq, Repr

/-! ## EEPROM engines -/

/-- Protocol states of the cartridge engine (R50, R262). -/
inductive CartState where
  | start
  | opA
  | opB
  | addr
  | data
  | readOut
  | busy
deriving DecidableEq, Repr

/-- Cartridge engine state (R50). -/
structure CartEngine where
  arr : Vector Half 64
  state : CartState
  op : BitVec 2
  addr : BitVec 6
  addrCnt : Nat
  data : Half
  dataCnt : Nat
  wen : Bool
deriving DecidableEq, Repr

/-- The data-phase operation of the CD-unit engine (R60). -/
inductive UnitDop where
  | none
  | write
  | wral
  | read
deriving DecidableEq, Repr

/-- CD-unit engine state (R60). -/
structure UnitEngine where
  arr : Vector Half 64
  ready : Bool
  cmd : BitVec 9
  cmdCnt : Nat
  dop : UnitDop
  addr : BitVec 6
  acc : Word
  dataCnt : Nat
  wen : Bool
  prevClk : Bool
deriving DecidableEq, Repr

/-- Which engine an image belongs to. -/
inductive Engine where
  | cart
  | unit
deriving DecidableEq, Repr

/-- Output events (R72, R344): each is appended to the trace. -/
inductive Event where
  | audioReady
  | overlayDisable
  | persist (engine : Engine) (image : Memory)
deriving DecidableEq, Repr

/-! ## The environment -/

/-- What the adapter answers about one track: `TrackLSN`, and `TrackMSF` as three BCD bytes (R84). -/
structure Track where
  lsn : Int
  bcdMin : Byte
  bcdSec : Byte
  bcdFrm : Byte
deriving DecidableEq, Repr

/-- The disc adapter as the record of its answers (R84: "a record of pure functions fixed for the time between two
resets"). A finite run asks finitely many questions: the lists give the answers to those asked about, the `other`
fields the answer to any question else; a sector not listed is one that `ReadSector` cannot read. -/
structure Disc where
  /-- `Open()` (R34, U21). -/
  opens : Bool
  /-- `FirstTrack()`. -/
  firstTrack : Nat
  /-- `TrackCount()`. -/
  trackCount : Nat
  /-- `LastSessionStartLSN()`. -/
  lastSessionStart : Int
  tracks : List (Nat × Track)
  otherTrack : Track
  /-- `LeadOutLSN` (R84), by the handle it is reported for (`LEADOUT_ID`, R7). -/
  leadOuts : List (Nat × Int)
  otherLeadOut : Int
  /-- Readable sectors by LSN: the bytes of each, a byte past the end of the list being 0. -/
  sectors : List (Int × List Byte)
deriving DecidableEq, Repr

/-- One operation presented to the block, and the external mode register as it stands in that step (R73: "`ws_falling`
may change between any two steps"). -/
structure Input where
  access : Access
  modeReg : BitVec 32
deriving DecidableEq, Repr

/-! ## The state -/

/-- The whole state: R20's tuple, then the model's own fields. -/
structure State where
  /-- The register bundle (R22). -/
  regs : Regs
  /-- `tx_pending` (R31). -/
  txPending : Bool
  /-- `rx_pending` (R31). -/
  rxPending : Bool
  /-- `overlay_disabled` (R72). -/
  overlayDisabled : Bool
  fifo : Fifo
  dsp : Dispatcher
  toc : Toc
  pump : Pump
  cart : CartEngine
  unit : UnitEngine
  /-- `NV_CART` (R70): absent or 128 bytes. -/
  nvCart : Option Memory
  /-- `NV_UNIT` (R70): absent or 128 bytes. -/
  nvUnit : Option Memory
  /-- The trace of output events, oldest first (R72, R344). -/
  events : List Event
  /-- The model's own: the word the most recent read operation returned to its caller. -/
  result : Half
  /-- The model's own: the parameters of R7. -/
  cfg : Config
  /-- The model's own: the adapter's answers until the next reset (R84). -/
  disc : Disc
  /-- The model's own: the adapters the following resets find, in order; when none is left the disc stays. -/
  nextDiscs : List Disc
  /-- The model's own: the external mode register as sampled in this step (R73). -/
  modeReg : BitVec 32
  /-- The model's own: the operations the agents will present, in the total order of R92. -/
  inputs : List Input
  /-- The model's own: how many free values have been drawn (`Config.failedReadBytes`). -/
  draws : Nat
deriving DecidableEq, Repr

/-! ## Reasons to stop -/

/-- The hardware has no faults: "Nothing in this block is `fault` or `stuck`" (spec/93_implementation_defined.md), "No
operation in this core is permitted to abort the process" (R340). So no constructor: no step ends in a fault. -/
inductive Fault where
deriving DecidableEq, Repr

/-- The refusals of R341, under the spec's names: the model gives the input no meaning. Each is safe (the model stops
where the hardware might go on), and none is reached by an operation whose inputs the spec gives a meaning to. -/
inductive Refusal where
  /-- Raised by `exec` for an operation without a meaning. None is left: no arm raises it. Safe. -/
  | notModelled (mnemonic : String)
  /-- Raised by `step` for a window access that is not 16-bit at an even offset (R90, R212). Safe. -/
  | unsupportedAccessWidth
  /-- Raised by `step` for an access at or beyond the window's end: it never reaches the block (R212). Safe. -/
  | outsideWindow
  /-- Raised by `step` for a bus address that is neither the window nor a cartridge port (R4 item b). Safe. -/
  | notAddressed
  /-- Raised by the TOC reader for an LSN below -150 (R131). Safe. -/
  | negativeMSF
  /-- Raised by the TOC reader for a disc that is not single and has no boundary track, and for a per-track entry of a
  track above 99 (R135, R137, R35). Safe. -/
  | malformedDisc
  /-- Raised by an enabling write to `i2cntrl` while armed, only under `PUMP_REARM_WHILE_ARMED = refuse` (R233). Safe. -/
  | doubleArm
  /-- Raised by `PumpTick` while not armed: the step is not enabled (R231). Safe. -/
  | tickNotArmed
  /-- Raised by a fetch whose `cursor` lies at or beyond byte 2352: "if a variant model can reach it, `refuse`" (U2). No
  state that meets the invariant reaches it. Safe. -/
  | bufferOverrun
  /-- Raised by `step` under a configuration R341 excludes (R104). Safe. -/
  | badConfiguration
deriving DecidableEq, Repr

/-! ## Reset -/

/-- Every half 0 (R22, D19). -/
def Regs.zero : Regs :=
  ⟨⟨0, 0⟩, ⟨0, 0⟩, ⟨0, 0⟩, ⟨0, 0⟩, ⟨0, 0⟩, ⟨0, 0⟩, ⟨0, 0⟩, ⟨0, 0⟩, ⟨0, 0⟩, ⟨0, 0⟩, ⟨0, 0⟩⟩

/-- The disc of the reset state: a drive that opens and holds nothing. The answers are the environment's, not the spec's:
see notes/assumptions/3.md. -/
def Disc.blank : Disc where
  opens := true
  firstTrack := 1
  trackCount := 0
  lastSessionStart := 0
  tracks := []
  otherTrack := ⟨0, 0, 0, 0⟩
  leadOuts := []
  otherLeadOut := 0
  sectors := []

/-- The block right after `Reset` (R370), with both images absent, the default parameters, an adapter whose `Open()`
answered true, and nothing presented to it. -/
def State.reset : State where
  regs := Regs.zero
  txPending := false
  rxPending := false
  overlayDisabled := false
  fifo := ⟨Vector.replicate 512 0, 0, 0⟩
  dsp := ⟨true, 0, 0, 0, 0, 0⟩
  toc := ⟨Vector.replicate 100 ⟨0, 0, 0, 0, 0⟩, 0, 0⟩
  pump := ⟨false, .single, 1000000 / 44100, 0, 0, true, [], false, 0, 0, 0⟩
  cart := ⟨Vector.replicate 64 0xFFFF, .start, 0, 0, 6, 0, 16, false⟩
  unit := ⟨Vector.replicate 64 0xFFFF, false, 0, 0, .none, 0, 0, 0, false, false⟩
  nvCart := none
  nvUnit := none
  events := []
  result := 0
  cfg := Config.default
  disc := Disc.blank
  nextDiscs := []
  modeReg := 0
  inputs := []
  draws := 0

end Sys2Proof.Machine
end

