-- ==== Sys2Proof/Machine/Operands.lean ====
section
/-! DEFINITION. Operand forms and the arithmetic on them: serial bit order, line values, disc times, BCD, PCM byte order,
the adapter's answers. -/

namespace Sys2Proof.Machine

/-! ## Serial fields (R87: "MSB-first shift-in") -/

/-- The bits of a field in clock order, most significant first (R87). -/
def bitsMsb {n : Nat} (v : BitVec n) : List Bool :=
  (List.range n).map fun i => v.getMsbD i

/-- The nine bits of a frame or packet in clock order: start, opcode, address (R106, R108). -/
def headBits (s : Bool) (op : BitVec 2) (a : BitVec 6) : List Bool :=
  s :: (bitsMsb op ++ bitsMsb a)

/-- `((v << 1) | b)` in the field's width: one bit shifted in at the low end (R263, R307, R313). -/
def shiftIn {n : Nat} (v : BitVec n) (b : Bool) : BitVec n :=
  (v <<< 1) ||| (BitVec.ofBool b).setWidth n

/-- A value of the line half with the three lines at the given levels and every other bit 0 (R100's `UBW`, R110). -/
def linesValue (c : Config) (cs clk di : Bool) : Half :=
  ((BitVec.ofBool cs).setWidth 16 <<< c.unitCsBit.val) |||
    ((BitVec.ofBool clk).setWidth 16 <<< c.unitClkBit.val) |||
      ((BitVec.ofBool di).setWidth 16 <<< c.unitDiBit.val)

/-! ## Numbers -/

/-- A number as a `u16` field (R35, "No wrap-around is applied" R131): the number when it fits, an unknown word when it
does not. -/
def toU16 (n : Nat) : Half :=
  if n < 2 ^ 16 then BitVec.ofNat 16 n else Config.beyondU16 n

/-- `LSN_to_MSF` (R131): minutes, seconds, frames; no answer below -150. -/
def lsnToMsf (lsn : Int) : Option (Nat × Nat × Nat) :=
  if lsn < -150 then none
  else
    let r := (lsn + 150).toNat
    some (r / 75 / 60, r / 75 % 60, r % 75)

/-- `BCD_to_bin` (R132), for every byte (D18). -/
def bcdToBin (b : Byte) : Byte :=
  (b >>> 4) * 10 + (b &&& 0x0F)

/-- The sector number of a goto target (R173): `((min*60+sec)*75+frm) - 150`, an unbounded integer. -/
def gotoTarget (mins secs frms : Byte) : Int :=
  (((mins.toNat * 60 + secs.toNat) * 75 + frms.toNat : Nat) : Int) - 150

/-- The cadence bit 0 of the play mode selects (R174, D12). -/
def rateOf (p : Byte) : Rate :=
  if p.getLsbD 0 then .double else .single

/-- `period_us = 1000000 / rate`, exact (R232). -/
def periodOf (r : Rate) : Rat :=
  match r with
  | .single => 1000000 / 44100
  | .double => 1000000 / 88200

/-- A PCM word from the bytes at `c` and `c + 1` (R88). -/
def pcmWord (c : Config) (b0 b1 : Byte) : Half :=
  if c.pcmLittleEndian then b1 ++ b0 else b0 ++ b1

/-- A response word: the bitwise OR of tag and field, no masking (R105, R178). -/
def tagged (tag field : Half) : Half := tag ||| field

/-! ## The adapter's answers (R84) -/

/-- What the adapter answers about a track. -/
def Disc.track (d : Disc) (t : Nat) : Track := (d.tracks.lookup t).getD d.otherTrack

/-- `TrackLSN(t)`. -/
def Disc.trackLSN (d : Disc) (t : Nat) : Int := (d.track t).lsn

/-- `LeadOutLSN`: what the adapter reports for the handle `LEADOUT_ID` (R7, R84). -/
def Disc.leadOutLSN (d : Disc) (c : Config) : Int := (d.leadOuts.lookup c.leadoutId).getD d.otherLeadOut

/-- The disc has one session: "the last-session-start LSN equals the first track's LSN" (R134). -/
def Disc.single (d : Disc) : Bool := d.lastSessionStart == d.trackLSN d.firstTrack

/-- The least track of 1..N that starts where the last session starts (R134). -/
def Disc.boundary (d : Disc) : Option Nat :=
  (List.range' 1 d.trackCount).find? fun t => d.trackLSN t == d.lastSessionStart

/-- `LONG_TOC_ATTR(t)` (R7, D13). -/
def attrOf (c : Config) (t : Nat) : Half := (c.longTocAttr.lookup t).getD 0

/-- `ws_falling` (R73): bit `WS_FALLING_BIT` of the external mode register has the value that selects falling-edge mode. -/
def wsFalling (s : State) : Bool := s.modeReg.getLsbD s.cfg.wsFallingBit.val == s.cfg.wsFallingValue

end Sys2Proof.Machine
end

