-- ==== Sys2Proof/Machine/Flags.lean ====
section
/-! DEFINITION. The status latches and what is computed from register bits: the pending bits of `ctrl` (R26, R31, R194),
the overlay bit (R25, R195), the I2S enable condition (R29). -/

namespace Sys2Proof.Machine

/-! ## Stored halves -/

/-- A half of a register (R22). -/
def Reg32.half (x : Reg32) : RegHalf → Half
  | .hi => x.hi
  | .lo => x.lo

/-- `X.half <- v`. -/
def Reg32.setHalf (x : Reg32) (h : RegHalf) (v : Half) : Reg32 :=
  match h with
  | .hi => { x with hi := v }
  | .lo => { x with lo := v }

/-- `X` as a `u32`: `X.hi ++ X.lo` (R22). -/
def Reg32.word (x : Reg32) : Word := x.hi ++ x.lo

/-- A register of the bundle by name. -/
def Regs.get (g : Regs) : RegName → Reg32
  | .ctrl => g.ctrl
  | .dsctrl => g.dsctrl
  | .dsdata => g.dsdata
  | .i2cntrl => g.i2cntrl
  | .sbcntrl => g.sbcntrl
  | .subdata => g.subdata
  | .subdatb => g.subdatb
  | .sbtime => g.sbtime
  | .fifodata => g.fifodata
  | .i2sdat2 => g.i2sdat2
  | .eebus => g.eebus

/-- A stored half of the bundle. -/
def Regs.half (g : Regs) (r : RegName) (h : RegHalf) : Half := (g.get r).half h

/-- Storing one half of the bundle (R192). -/
def Regs.setHalf (g : Regs) (r : RegName) (h : RegHalf) (v : Half) : Regs :=
  match r with
  | .ctrl => { g with ctrl := g.ctrl.setHalf h v }
  | .dsctrl => { g with dsctrl := g.dsctrl.setHalf h v }
  | .dsdata => { g with dsdata := g.dsdata.setHalf h v }
  | .i2cntrl => { g with i2cntrl := g.i2cntrl.setHalf h v }
  | .sbcntrl => { g with sbcntrl := g.sbcntrl.setHalf h v }
  | .subdata => { g with subdata := g.subdata.setHalf h v }
  | .subdatb => { g with subdatb := g.subdatb.setHalf h v }
  | .sbtime => { g with sbtime := g.sbtime.setHalf h v }
  | .fifodata => { g with fifodata := g.fifodata.setHalf h v }
  | .i2sdat2 => { g with i2sdat2 := g.i2sdat2.setHalf h v }
  | .eebus => { g with eebus := g.eebus.setHalf h v }

/-! ## Pending latches -/

/-- `tx_pending <- 1` (R161). -/
def setTxPending (s : State) : State := { s with txPending := true }

/-- Whether bit `b` of a 32-bit register lies in this half (R194). -/
def bitInHalf (h : RegHalf) (b : Fin 32) : Bool :=
  match h with
  | .hi => 16 ≤ b.val
  | .lo => b.val < 16

/-- A latch shown at its position: `(v & ~(1 << k)) | (latch << k)`, `k = b mod 16`, in the half that holds bit `b` (R194). -/
def showLatch (h : RegHalf) (b : Fin 32) (latch : Bool) (v : Half) : Half :=
  if bitInHalf h b then
    (v &&& ~~~((1 : Half) <<< (b.val % 16))) ||| ((BitVec.ofBool latch).setWidth 16 <<< (b.val % 16))
  else v

/-- `ReadCtrl(half)` (R194): the stored half with `tx_pending`, then `rx_pending`, shown at their positions. -/
def ctrlView (s : State) (h : RegHalf) : Half :=
  showLatch h s.cfg.rxpendBit s.rxPending (showLatch h s.cfg.txpendBit s.txPending (s.regs.half .ctrl h))

/-! ## Conditions on whole registers -/

/-- `ctrl[CTRL_OVERLAY_BIT]`, on the 32-bit value (R195). -/
def overlayBit (s : State) : Bool := s.regs.ctrl.word.getLsbD s.cfg.ctrlOverlayBit

/-- `I2SEnabled` (R29): the three enable bits of the 32-bit register are all 1. -/
def i2sEnabled (s : State) : Bool :=
  let x := s.regs.i2cntrl.word
  x.getLsbD s.cfg.i2sEnDiscBit && x.getLsbD s.cfg.i2sEnConsumerBit && x.getLsbD s.cfg.i2sEnXferBit

end Sys2Proof.Machine
end

