-- ==== Sys2Proof/Machine/Ops.lean ====
section
/-! DEFINITION. The shared operations: byte stores, stored register halves, the FIFO, the events and the image they write,
arming the pump, reset, and what stops a step. The block takes no exception and returns from none (R346, R347); what it has
in their place is an event appended to the trace (`emit`) and `refuse` (R341). -/

namespace Sys2Proof.Machine

/-- What an operation answers. -/
abbrev Res := Host.Outcome State Fault Refusal

/-! ## Byte stores (R9, R80) -/

/-- The canonical form: addresses rise, lie in the store, and no entry holds the unlisted byte. -/
def Memory.wf (sp : Space) (m : Memory) : Bool :=
  decide (m.Pairwise fun x y => x.1 < y.1) && m.all fun x => x.1 < sp.size && x.2 != sp.unlisted

/-- `MemRead(space, a, 1)`. -/
def Memory.read (sp : Space) (m : Memory) (a : Nat) : Byte := (m.lookup a).getD sp.unlisted

/-- The entries of consecutive bytes from address `a` on. -/
def Memory.cells (sp : Space) (a : Nat) : List Byte → Memory
  | [] => []
  | b :: bs => if b = sp.unlisted then Memory.cells sp (a + 1) bs else (a, b) :: Memory.cells sp (a + 1) bs

/-- Writing a whole store, the only write there is (R80: "whole image", "whole sector filled"). -/
def Memory.fill (sp : Space) (bytes : List Byte) : Memory := Memory.cells sp 0 (bytes.take sp.size)

/-! ## Register halves (R191, R192) -/

/-- An operation that returns a word and changes nothing else. -/
def returns (v : Half) (s : State) : Res := .next { s with result := v }

/-- `H <- w` (R192). -/
def storeHalf (r : RegName) (h : RegHalf) (v : Half) (s : State) : State :=
  { s with regs := s.regs.setHalf r h v }

/-- Plain read (R191). -/
def plainRead (r : RegName) (h : RegHalf) (s : State) : Res := returns (s.regs.half r h) s

/-- Plain write (R192). -/
def plainWrite (r : RegName) (h : RegHalf) (v : Half) (s : State) : Res := .next (storeHalf r h v s)

/-! ## Command FIFO (R150 to R153) -/

/-- The slot after `i`, modulo 512. -/
def slotAfter (i : Fin 512) : Fin 512 := ⟨(i.val + 1) % 512, Nat.mod_lt _ (by decide)⟩

/-- Whether the queue is empty (R33). -/
def Fifo.empty (f : Fifo) : Bool := f.rd == f.wr

/-- Whether the queue is full: 511 words queued (R33). -/
def Fifo.full (f : Fifo) : Bool := slotAfter f.wr == f.rd

/-- The number of queued words, `(wr - rd) mod 512` (R33). -/
def Fifo.count (f : Fifo) : Nat := (f.wr.val + 512 - f.rd.val) % 512

/-- `Enqueue(w)` (R151): a full queue drops the word and changes nothing. -/
def enqueue (w : Half) (s : State) : State :=
  if s.fifo.full then s
  else
    { s with
      fifo := { s.fifo with slots := s.fifo.slots.set s.fifo.wr.val w, wr := slotAfter s.fifo.wr }
      rxPending := true }

/-- The words of one response, each enqueued on its own (R177). -/
def enqueueAll (ws : List Half) (s : State) : State := ws.foldl (fun s w => enqueue w s) s

/-- The oldest queued word. -/
def Fifo.head (f : Fifo) : Half := f.slots[f.rd.val]

/-- `Dequeue()` (R152): the 0xFFFF sentinel on an empty queue, else the oldest word, and the read cursor advances. -/
def dequeue (s : State) : Half × State :=
  if s.fifo.empty then (0xFFFF, s)
  else (s.fifo.head, { s with fifo := { s.fifo with rd := slotAfter s.fifo.rd } })

/-! ## Events and images (R70, R72) -/

/-- `emit E` (R9, R344). -/
def emit (e : Event) (s : State) : State := { s with events := s.events ++ [e] }

/-- The bytes of an array, big-endian words (R70, R86). -/
def imageBytes (arr : Vector Half 64) : List Byte :=
  arr.toList.flatMap fun w => [w.extractLsb' 8 8, w.extractLsb' 0 8]

/-- The array an image holds, or all ones without one (R70). -/
def loadImage (sp : Space) : Option Memory → Vector Half 64
  | none => Vector.replicate 64 0xFFFF
  | some m => Vector.ofFn fun i => Memory.read sp m (2 * i.val) ++ Memory.read sp m (2 * i.val + 1)

/-- `Persist(CART)` (R70). -/
def persistCart (s : State) : State :=
  let image := Memory.fill .nvCart (imageBytes s.cart.arr)
  emit (.persist .cart image) { s with nvCart := some image }

/-- `Persist(UNIT)` (R70). -/
def persistUnit (s : State) : State :=
  let image := Memory.fill .nvUnit (imageBytes s.unit.arr)
  emit (.persist .unit image) { s with nvUnit := some image }

/-! ## Arming the pump (R233) -/

/-- A tick is scheduled now, at the rate of this moment (R233, R234). -/
def schedule (s : State) : State :=
  { s with pump := { s.pump with armed := true, periodUs := periodOf s.pump.rate } }

/-- `ArmPump()` (R233). -/
def armPump (s : State) : Res :=
  if s.pump.armed then
    match s.cfg.pumpRearmWhileArmed with
    | .idempotent => .next s
    | .refuse => .refused .doubleArm
  else .next (schedule s)

/-! ## Reset (R370) -/

/-- The disc the block finds at a reset, and those left for later ones (R84: fixed "between two resets"). -/
def nextDisc (s : State) : Disc × List Disc :=
  match s.nextDiscs with
  | [] => (s.disc, [])
  | d :: ds => (d, ds)

/-- `Reset()` (R370). The images, the trace, the inputs and the parameters stay; a scheduled tick is cancelled (R372). -/
def resetBlock (s : State) : State :=
  let d := nextDisc s
  { s with
    regs := Regs.zero
    txPending := false
    rxPending := false
    overlayDisabled := false
    fifo := ⟨Vector.replicate 512 0, 0, 0⟩
    dsp := ⟨d.1.opens, 0, 0, 0, 0, 0⟩
    toc := ⟨Vector.replicate 100 ⟨0, 0, 0, 0, 0⟩, 0, 0⟩
    pump := ⟨false, .single, periodOf .single, 0, 0, true, [], false, 0, 0, 0⟩
    cart := ⟨loadImage .nvCart s.nvCart, .start, 0, 0, 6, 0, 16, s.cfg.cartWenAtReset⟩
    unit := ⟨loadImage .nvUnit s.nvUnit, false, 0, 0, .none, 0, 0, 0, false, false⟩
    disc := d.1
    nextDiscs := d.2 }

/-! ## What stops a step -/

/-- The configurations R341 gives a meaning to: opcodes pairwise different (R104), the two pending bits different, the
three I2S enable bits different, the three unit line bits different and outside `UNIT_DO_MASK`. -/
def configOk (c : Config) : Bool :=
  c.opcsDistinct && c.txpendBit != c.rxpendBit &&
    (c.i2sEnDiscBit != c.i2sEnConsumerBit && c.i2sEnDiscBit != c.i2sEnXferBit && c.i2sEnConsumerBit != c.i2sEnXferBit) &&
    (c.unitCsBit != c.unitClkBit && c.unitCsBit != c.unitDiBit && c.unitClkBit != c.unitDiBit) &&
    (!c.unitDoMask.getLsbD c.unitCsBit && !c.unitDoMask.getLsbD c.unitClkBit && !c.unitDoMask.getLsbD c.unitDiBit)

/-- A rejected access under R341's name for it. -/
def refuseReject : Reject → Refusal
  | .unsupportedAccessWidth => .unsupportedAccessWidth
  | .outsideWindow => .outsideWindow
  | .notAddressed => .notAddressed

/-- What the decoder needs to know of the engines in this state. -/
def State.phase (s : State) : Phase where
  cartStalled := s.cart.state == .readOut || s.cart.state == .busy
  unitCommand := s.unit.ready && decide (s.unit.cmdCnt < 9)
  unitData := s.unit.dop != .none
  unitPrevClk := s.unit.prevClk

end Sys2Proof.Machine
end

