-- ==== Sys2Proof/Machine/Toc.lean ====
section
/-! DEFINITION. The TOC reader (spec/40_toc_reader.md R130 to R139): it reads the adapter's answers and writes the TOC
table, and queues nothing. -/

namespace Sys2Proof.Machine

/-- `ST_OK` (R6, R130). -/
def stOk : Half := 0x0000

/-- `ST_ILLEGAL` (R6, R130). -/
def stIllegal : Half := 0x0429

/-- `ST_UNAVAILABLE` (R6, R130). -/
def stUnavailable : Half := 0xFFFF

/-- Storing the session summary `toc[0]` with status `ST_OK` (R136). -/
def storeSummary (first last : Nat) (lsn : Int) (t : Toc) : Except Refusal (Half × Toc) :=
  match lsnToMsf lsn with
  | none => .error .negativeMSF
  | some (m, s, f) =>
    .ok (stOk, { t with entries := t.entries.set 0 ⟨toU16 first, toU16 last, toU16 m, toU16 s, toU16 f⟩ })

/-- `ReadShortTOC(session)` (R136). A disc that is not single has a boundary track b, 2 <= b <= N, or is refused (R135). -/
def readShortToc (c : Config) (d : Disc) (isOpen : Bool) (session : Byte) (t : Toc) : Except Refusal (Half × Toc) :=
  if !isOpen then .ok (stUnavailable, t)
  else if d.single then
    if session = 0 then storeSummary 1 d.trackCount (d.leadOutLSN c) t else .ok (stIllegal, t)
  else
    match d.boundary with
    | none => .error .malformedDisc
    | some b =>
      if b < 2 then .error .malformedDisc
      else if session = 0 then storeSummary 1 (b - 1) (d.trackLSN b) t
      else if session = 1 then storeSummary b d.trackCount (d.leadOutLSN c) t
      else .ok (stIllegal, t)

/-- A per-track entry (R137): the track number, its attribute, and `TrackMSF` decoded from BCD. -/
def trackEntry (c : Config) (d : Disc) (t : Nat) : TocEntry where
  firstTrack := toU16 t
  lastTrack := attrOf c t
  minutes := (bcdToBin (d.track t).bcdMin).setWidth 16
  seconds := (bcdToBin (d.track t).bcdSec).setWidth 16
  frames := (bcdToBin (d.track t).bcdFrm).setWidth 16

/-- The tracks `first..last`, empty when `first > last` (R9). -/
def trackRange (first last : Nat) : List Nat := List.range' first (last + 1 - first)

/-- The last track of a session that the short read describes, as a number (R136): the one before the boundary track for
session 0 of two, and the disc's last one for every other session there is. -/
def Disc.lastTrackOf (d : Disc) (session : Byte) : Nat :=
  if d.single then d.trackCount
  else if session = 0 then d.boundary.getD 0 - 1
  else d.trackCount

/-- `ReadLongTOC(session)` (R137): the short computation first, then one entry for each track of the session. A track number
above 99 has no entry and is refused (R35); the tracks of a session are consecutive, so one lies above 99 exactly when the
last does, and it is the number that is tested, before it becomes a 16-bit field. -/
def readLongToc (c : Config) (d : Disc) (isOpen : Bool) (session : Byte) (t : Toc) : Except Refusal (Half × Toc) :=
  match readShortToc c d isOpen session t with
  | .error r => .error r
  | .ok (st, t1) =>
    if st ≠ stOk then .ok (st, t1)
    else
      let first := t1.entries[0].firstTrack
      let last := t1.entries[0].lastTrack
      if 99 < d.lastTrackOf session then .error .malformedDisc
      else
        .ok (stOk,
          { entries :=
              (trackRange first.toNat last.toNat).foldl (fun v k => v.setIfInBounds k (trackEntry c d k)) t1.entries
            startTrack := first
            endTrack := last })

/-- The five tagged words of an entry, tags `base`, `base + 0x0100`, ..., `base + 0x0400` (R169, R170, R105). -/
def quintuple (base : Half) (e : TocEntry) : List Half :=
  [tagged base e.firstTrack, tagged (base + 0x0100) e.lastTrack, tagged (base + 0x0200) e.minutes,
    tagged (base + 0x0300) e.seconds, tagged (base + 0x0400) e.frames]

/-- The response to a short TOC read: the five words of `toc[0]`, or the status (R169). -/
def shortResponse (st : Half) (t : Toc) : List Half :=
  if st = stOk then quintuple 0x2000 t.entries[0] else [st]

/-- The end marker of a long TOC response (R170). -/
def endMarker : List Half := [0x6000, 0x6100, 0x6200, 0x6300, 0x6400]

/-- Entry `k` of the table. -/
def Toc.entry (t : Toc) (k : Nat) : TocEntry := (t.entries[k]?).getD ⟨0, 0, 0, 0, 0⟩

/-- The response to a long TOC read: five words a track of `start_track..end_track` and the end marker, or the status
(R170). -/
def longResponse (st : Half) (t : Toc) : List Half :=
  if st = stOk then
    (trackRange t.startTrack.toNat t.endTrack.toNat).flatMap (fun k => quintuple 0x6000 (t.entry k)) ++ endMarker
  else [st]

end Sys2Proof.Machine
end

