-- ==== Sys2Proof/Machine/Dsa.lean ====
section
/-! DEFINITION. The BUTCH command dispatcher (spec/41_fifo_dispatch.md R160 to R179). A DSA command reaches the block only as
the word of a write to `dsdata.lo` (R97, R200), so a DSA row's meaning is that write: the notation's `DSA opc, p` is
`W16 0x0A, (opc << 8) | p` (R100). -/

namespace Sys2Proof.Machine

/-- `dsdata.lo <- w; Dispatch(w)` with the command's action given: nothing when the adapter is not ok or the word is zero,
else `tx_pending <- 1` and then the action (R160, R161, R200). -/
def dsaCommand (w : Half) (action : State → Res) (s : State) : Res :=
  let s1 := storeHalf .dsdata .lo w s
  if s1.dsp.adapterOk = false ∨ w = 0 then .next s1 else action (setTxPending s1)

/-! ## Actions after `tx_pending <- 1` -/

/-- PLAY_TRACK: nothing (R165, D49). -/
def actPlayTrack (s : State) : Res := .next s

/-- STOP: nothing (R166, D49). -/
def actStop (s : State) : Res := .next s

/-- PAUSE: nothing (R167, D49). -/
def actPause (s : State) : Res := .next s

/-- UNPAUSE: nothing (R168, D49). -/
def actUnpause (s : State) : Res := .next s

/-- READ_TOC (R169). -/
def actReadToc (p : Byte) (s : State) : Res :=
  match readShortToc s.cfg s.disc s.dsp.adapterOk p s.toc with
  | .error r => .refused r
  | .ok (st, t) => .next (enqueueAll (shortResponse st t) { s with toc := t })

/-- READ_LONG_TOC (R170). -/
def actReadLongToc (p : Byte) (s : State) : Res :=
  match readLongToc s.cfg s.disc s.dsp.adapterOk p s.toc with
  | .error r => .refused r
  | .ok (st, t) => .next (enqueueAll (longResponse st t) { s with toc := t })

/-- GOTO_MIN (R171). -/
def actGotoMin (p : Byte) (s : State) : Res :=
  .next { s with dsp := { s.dsp with gotoMin := p } }

/-- GOTO_SEC (R172). -/
def actGotoSec (p : Byte) (s : State) : Res :=
  .next { s with dsp := { s.dsp with gotoSec := p } }

/-- GOTO_FRM (R173): the target becomes the pump's position and 0x0100 is queued. -/
def actGotoFrm (p : Byte) (s : State) : Res :=
  let target := gotoTarget s.dsp.gotoMin s.dsp.gotoSec p
  .next (enqueue 0x0100
    { s with
      dsp := { s.dsp with gotoFrm := p, targetSector := target }
      pump := { s.pump with sector := target, cursor := 0, dirty := true } })

/-- SET_MODE (R174). -/
def actSetMode (p : Byte) (s : State) : Res :=
  .next (enqueue (tagged 0x1700 (p.setWidth 16))
    { s with
      dsp := { s.dsp with playMode := p }
      pump := { s.pump with rate := rateOf p } })

/-- OVERSAMPLE (R175): the command word is echoed. -/
def actOversample (opc p : Byte) (s : State) : Res := .next (enqueue (dsaWord opc p) s)

/-- Any other opcode: nothing (R176). -/
def actUnrecognized (s : State) : Res := .next s

/-- The action of a recognized command. -/
def dsaAction (opc p : Byte) : DsaKind → State → Res
  | .playTrack => actPlayTrack
  | .stop => actStop
  | .readToc => actReadToc p
  | .pause => actPause
  | .unpause => actUnpause
  | .gotoMin => actGotoMin p
  | .gotoSec => actGotoSec p
  | .gotoFrm => actGotoFrm p
  | .readLongToc => actReadLongToc p
  | .setMode => actSetMode p
  | .oversample => actOversample opc p

/-- The `select opc` of `Dispatch` (R160). -/
def dispatchAction (w : Half) (s : State) : Res :=
  match s.cfg.dsaKind (dsaOpc w) with
  | some k => dsaAction (dsaOpc w) (dsaParam w) k s
  | none => actUnrecognized s

/-! ## Meanings -/

/-- DSA.PLAY_TRACK (R165). -/
def execDsaPlayTrack (p : Byte) (s : State) : Res := dsaCommand (dsaWord s.cfg.opcPlayTrack p) actPlayTrack s

/-- DSA.STOP (R166). -/
def execDsaStop (p : Byte) (s : State) : Res := dsaCommand (dsaWord s.cfg.opcStop p) actStop s

/-- DSA.READ_TOC (R169). -/
def execDsaReadToc (p : Byte) (s : State) : Res := dsaCommand (dsaWord s.cfg.opcReadToc p) (actReadToc p) s

/-- DSA.PAUSE (R167). -/
def execDsaPause (p : Byte) (s : State) : Res := dsaCommand (dsaWord s.cfg.opcPause p) actPause s

/-- DSA.UNPAUSE (R168). -/
def execDsaUnpause (p : Byte) (s : State) : Res := dsaCommand (dsaWord s.cfg.opcUnpause p) actUnpause s

/-- DSA.GOTO_MIN (R171). -/
def execDsaGotoMin (p : Byte) (s : State) : Res := dsaCommand (dsaWord s.cfg.opcGotoMin p) (actGotoMin p) s

/-- DSA.GOTO_SEC (R172). -/
def execDsaGotoSec (p : Byte) (s : State) : Res := dsaCommand (dsaWord s.cfg.opcGotoSec p) (actGotoSec p) s

/-- DSA.GOTO_FRM (R173). -/
def execDsaGotoFrm (p : Byte) (s : State) : Res := dsaCommand (dsaWord s.cfg.opcGotoFrm p) (actGotoFrm p) s

/-- DSA.READ_LONG_TOC (R170). -/
def execDsaReadLongToc (p : Byte) (s : State) : Res :=
  dsaCommand (dsaWord s.cfg.opcReadLongToc p) (actReadLongToc p) s

/-- DSA.SET_MODE (R174). -/
def execDsaSetMode (p : Byte) (s : State) : Res := dsaCommand (dsaWord s.cfg.opcSetMode p) (actSetMode p) s

/-- DSA.OVERSAMPLE (R175). -/
def execDsaOversample (p : Byte) (s : State) : Res :=
  dsaCommand (dsaWord s.cfg.opcOversample p) (actOversample s.cfg.opcOversample p) s

/-- DSA.ZERO_WORD (R160, R112): stored, not dispatched. -/
def execDsaZeroWord (s : State) : Res := dsaCommand 0 actUnrecognized s

/-- DSA.UNRECOGNIZED (R176). -/
def execDsaUnrecognized (opc p : Byte) (s : State) : Res := dsaCommand (dsaWord opc p) actUnrecognized s

end Sys2Proof.Machine
end

