-- ==== Sys2Proof/Machine/UnitEeprom.lean ====
section
/-! DEFINITION. The CD-unit EEPROM engine (spec/45_eeprom_cdunit.md R300 to R319) behind the line half of `eebus`. The engine is
a function of its own state that also says whether the image is to be persisted; a packet is the writes of the line half
that clock its bits (R100's `UBITS`). -/

namespace Sys2Proof.Machine

/-! ## The engine -/

/-- `ChipSelect()` (R303): `wen`, `acc`, `addr` and the array are untouched. -/
def unitSelect (u : UnitEngine) : UnitEngine :=
  { u with cmd := 0, cmdCnt := 0, ready := true, dop := .none, dataCnt := 0 }

/-- The begin of a data phase (R311, R312, R314). -/
def unitBegin (dop : UnitDop) (a : BitVec 6) (acc : Word) (u : UnitEngine) : UnitEngine :=
  { u with addr := a, acc := acc, dataCnt := 0, dop := dop }

/-- A write or erase: with the latch the array changes, without it nothing, silently (R311, R312, R315, R316). -/
def unitCommit (arr : Vector Half 64) (persists : Bool) (u : UnitEngine) : UnitEngine × Bool :=
  if u.wen then ({ u with arr := arr }, persists) else (u, false)

/-- `Decode()` (R307): malformed (R308), EWDS (R309), WRAL begin (R312), ERAL (R316), EWEN (R310), WRITE begin (R311), READ
begin (R314), ERASE (R315). -/
def unitDecode (c : Config) (u : UnitEngine) : UnitEngine × Bool :=
  let a : BitVec 6 := u.cmd.extractLsb' 0 6
  if c.unitStartBitCheck && !u.cmd.getLsbD 8 then ({ u with ready := false, dop := .none }, false)
  else
    match u.cmd.extractLsb' 6 2 with
    | 0 =>
      match subOp a with
      | 0 => ({ u with wen := false }, false)
      | 1 => (unitBegin .wral a 0 u, false)
      | 2 => unitCommit (Vector.replicate 64 0xFFFF) true u
      | 3 => ({ u with wen := true }, false)
    | 1 => (unitBegin .write a 0 u, false)
    | 2 => (unitBegin .read a ((u.arr[a.toNat]).setWidth 32) u, false)
    | 3 => unitCommit (u.arr.set a.toNat 0xFFFF) c.unitErasePersists u

/-- The command register after one more bit (R307). -/
def unitShiftCmd (di : Bool) (u : UnitEngine) : UnitEngine :=
  { u with cmd := shiftIn u.cmd di, cmdCnt := u.cmdCnt + 1 }

/-- `CommandBit(di)` (R307): at the ninth bit the packet is decoded. -/
def unitCommandBit (c : Config) (di : Bool) (u : UnitEngine) : UnitEngine × Bool :=
  if (unitShiftCmd di u).cmdCnt = 9 then unitDecode c { unitShiftCmd di u with ready := false }
  else (unitShiftCmd di u, false)

/-- The accumulator after one more bit (R313). -/
def unitShiftData (di : Bool) (u : UnitEngine) : UnitEngine :=
  { u with acc := shiftIn u.acc di, dataCnt := u.dataCnt + 1 }

/-- The end of a data phase (R311, R312, R313): the commit, and idle. -/
def unitDataDone (u : UnitEngine) : UnitEngine × Bool :=
  let idle := { u with dop := .none }
  match u.dop with
  | .write => unitCommit (u.arr.set u.addr.toNat (u.acc.setWidth 16)) true idle
  | .wral => unitCommit (Vector.replicate 64 (u.acc.setWidth 16)) true idle
  | .read => (idle, false)
  | .none => (idle, false)

/-- `DataBit(di)` (R313): at the sixteenth bit the data phase ends. -/
def unitDataBit (di : Bool) (u : UnitEngine) : UnitEngine × Bool :=
  if (unitShiftData di u).dataCnt = 16 then unitDataDone (unitShiftData di u) else (unitShiftData di u, false)

/-- What a clock pulse does, by phase; a pulse in the idle phase is ignored (R302, R306). -/
def unitPulse (c : Config) (di : Bool) (u : UnitEngine) : UnitEngine × Bool :=
  if u.ready && decide (u.cmdCnt < 9) then unitCommandBit c di u
  else if u.dop ≠ .none then unitDataBit di u
  else (u, false)

/-- `UnitBusWrite(cs, clk, di)` on the engine (R302): chip-select first, then the strobe. -/
def unitNext (c : Config) (cs clk di : Bool) (u : UnitEngine) : UnitEngine × Bool :=
  if cs then ({ unitSelect u with prevClk := clk }, false)
  else if c.pulse clk u.prevClk then unitPulse c di { u with prevClk := clk }
  else ({ u with prevClk := clk }, false)

/-- `UnitBusRead()` (R318): the output line is bit 16 of the accumulator. -/
def unitLine (c : Config) (u : UnitEngine) : Half := if u.acc.getLsbD 16 then c.unitDoMask else 0

/-! ## The engine in the state -/

/-- The engine's next state, and the image when the engine asks for it. -/
def putUnit (n : UnitEngine × Bool) (s : State) : State :=
  if n.2 then persistUnit { s with unit := n.1 } else { s with unit := n.1 }

/-- A write of the line half (R207): stored, then passed to the engine. -/
def lineWrite (v : Half) (s : State) : State :=
  putUnit (unitNext s.cfg (s.cfg.lineCs v) (s.cfg.lineClk v) (s.cfg.lineDi v) s.unit)
    (storeHalf .eebus s.cfg.unitBusHalf v s)

/-- A read of the line half (R208): the output line, not the stored value; no state changes. -/
def lineRead (s : State) : Res := returns (unitLine s.cfg s.unit) s

/-- One data bit as a pulse: strobe up with the bit, strobe down (R100's `UBIT`, R395). -/
def pulseBit (b : Bool) (s : State) : State :=
  lineWrite (linesValue s.cfg false false b) (lineWrite (linesValue s.cfg false true b) s)

/-- The bits of a packet pulsed in order (R100's `UBITS`). -/
def pulseBits (bits : List Bool) (s : State) : State := bits.foldl (fun s b => pulseBit b s) s

/-- The nine pulses of a packet (R108). -/
def unitPacket (start : Bool) (op : BitVec 2) (a : BitVec 6) (s : State) : State :=
  pulseBits (headBits start op a) s

/-- The nine pulses of a packet and the sixteen of its data (R108). -/
def unitDataPacket (start : Bool) (op : BitVec 2) (a : BitVec 6) (d : Half) (s : State) : State :=
  pulseBits (bitsMsb d) (unitPacket start op a s)

/-! ## Meanings -/

/-- UNIT.EWDS (R309). -/
def execUnitEwds (start : Bool) (x : BitVec 4) (s : State) : Res := .next (unitPacket start 0 (0#2 ++ x) s)

/-- UNIT.WRAL (R312), with its sixteen data pulses. -/
def execUnitWral (start : Bool) (x : BitVec 4) (d : Half) (s : State) : Res :=
  .next (unitDataPacket start 0 (1#2 ++ x) d s)

/-- UNIT.ERAL (R316). -/
def execUnitEral (start : Bool) (x : BitVec 4) (s : State) : Res := .next (unitPacket start 0 (2#2 ++ x) s)

/-- UNIT.EWEN (R310). -/
def execUnitEwen (start : Bool) (x : BitVec 4) (s : State) : Res := .next (unitPacket start 0 (3#2 ++ x) s)

/-- UNIT.WRITE (R311), with its sixteen data pulses. -/
def execUnitWrite (start : Bool) (a : BitVec 6) (d : Half) (s : State) : Res := .next (unitDataPacket start 1 a d s)

/-- UNIT.READ (R314): the packet; its data pulses are UNIT.DATA_BIT, with reads of the line between them. -/
def execUnitRead (start : Bool) (a : BitVec 6) (s : State) : Res := .next (unitPacket start 2 a s)

/-- UNIT.ERASE (R315). -/
def execUnitErase (start : Bool) (a : BitVec 6) (s : State) : Res := .next (unitPacket start 3 a s)

/-- UNIT.MALFORMED (R308): nine pulses, the first of them 0. -/
def execUnitMalformed (op : BitVec 2) (a : BitVec 6) (s : State) : Res := .next (unitPacket false op a s)

/-- UNIT.LINES_WRITE (R302): a write that neither selects nor clocks a bit. -/
def execUnitLinesWrite (v : Half) (s : State) : Res := .next (lineWrite v s)

/-- UNIT.CHIPSELECT (R303): a write with the chip-select line at 1. -/
def execUnitChipselect (v : Half) (s : State) : Res := .next (lineWrite v s)

/-- UNIT.COMMAND_BIT (R307): a write that is a pulse in the command phase. -/
def execUnitCommandBit (v : Half) (s : State) : Res := .next (lineWrite v s)

/-- UNIT.DATA_BIT (R313): a write that is a pulse in the data phase. -/
def execUnitDataBit (v : Half) (s : State) : Res := .next (lineWrite v s)

/-- UNIT.LINES_READ (R318). -/
def execUnitLinesRead (s : State) : Res := lineRead s

end Sys2Proof.Machine
end

