-- ==== Sys2Proof/Machine/Bus.lean ====
section
/-! DEFINITION. The register file and bus decoder (spec/42_bus_registers.md R190 to R212): one meaning for every register half
and direction. -/

namespace Sys2Proof.Machine

/-! ## Shared operations of one register -/

/-- `ReadCtrl(half)` (R194): no state changes. -/
def ctrlRead (h : RegHalf) (s : State) : Res := returns (ctrlView s h) s

/-- The "control changed" hook (R195): the overlay is disabled while its bit is 0; nothing re-enables it. -/
def overlayHook (s : State) : State :=
  if overlayBit s then s else emit .overlayDisable { s with overlayDisabled := true }

/-- `WriteCtrl(half, w)` (R195): the store, then the hook on the whole register. -/
def ctrlWrite (h : RegHalf) (v : Half) (s : State) : Res := .next (overlayHook (storeHalf .ctrl h v s))

/-- A read of `dsctrl.lo` (R198): the stored half; `rx_pending` is cleared when the queue is empty. -/
def dsctrlLoRead (s : State) : Res :=
  returns (s.regs.half .dsctrl .lo) (if s.fifo.empty then { s with rxPending := false } else s)

/-- A read of `dsdata.lo` (R201): the oldest queued word, or the sentinel. -/
def dsdataLoRead (s : State) : Res :=
  let q := dequeue s
  returns q.1 q.2

/-- A write of either half of `i2cntrl` (R203): the store, then the pump is armed when the condition holds on the whole
register. -/
def i2cntrlWrite (h : RegHalf) (v : Half) (s : State) : Res :=
  let s1 := storeHalf .i2cntrl h v s
  if i2sEnabled s1 then armPump s1 else .next s1

/-- A read of a half of `eebus` (R206, R208): the output line on the line half, plain on the other. -/
def eebusRead (h : RegHalf) (s : State) : Res :=
  if s.cfg.unitBusHalf = h then lineRead s else plainRead .eebus h s

/-- A write of a half of `eebus` (R206, R207): the engine's lines on the line half, plain on the other. -/
def eebusWrite (h : RegHalf) (v : Half) (s : State) : Res :=
  if s.cfg.unitBusHalf = h then .next (lineWrite v s) else plainWrite .eebus h v s

/-! ## Meanings -/

/-- R16.CTRL_HI (R194). -/
def execR16CtrlHi (s : State) : Res := ctrlRead .hi s

/-- R16.CTRL_LO (R194). -/
def execR16CtrlLo (s : State) : Res := ctrlRead .lo s

/-- W16.CTRL_HI (R195). -/
def execW16CtrlHi (v : Half) (s : State) : Res := ctrlWrite .hi v s

/-- W16.CTRL_LO (R195). -/
def execW16CtrlLo (v : Half) (s : State) : Res := ctrlWrite .lo v s

/-- R16.DSCTRL_HI (R196). -/
def execR16DsctrlHi (s : State) : Res := plainRead .dsctrl .hi s

/-- W16.DSCTRL_HI (R196). -/
def execW16DsctrlHi (v : Half) (s : State) : Res := plainWrite .dsctrl .hi v s

/-- R16.DSCTRL_LO (R198). -/
def execR16DsctrlLo (s : State) : Res := dsctrlLoRead s

/-- W16.DSCTRL_LO (R197). -/
def execW16DsctrlLo (v : Half) (s : State) : Res := plainWrite .dsctrl .lo v s

/-- R16.DSDATA_HI (R199). -/
def execR16DsdataHi (s : State) : Res := plainRead .dsdata .hi s

/-- W16.DSDATA_HI (R199). -/
def execW16DsdataHi (v : Half) (s : State) : Res := plainWrite .dsdata .hi v s

/-- R16.DSDATA_LO (R201). -/
def execR16DsdataLo (s : State) : Res := dsdataLoRead s

/-- W16.DSDATA_LO (R200). -/
def execW16DsdataLo (v : Half) (s : State) : Res := dsaCommand v (dispatchAction v) s

/-- R16.I2CNTRL_HI (R202). -/
def execR16I2cntrlHi (s : State) : Res := plainRead .i2cntrl .hi s

/-- R16.I2CNTRL_LO (R202). -/
def execR16I2cntrlLo (s : State) : Res := plainRead .i2cntrl .lo s

/-- W16.I2CNTRL_HI (R203). -/
def execW16I2cntrlHi (v : Half) (s : State) : Res := i2cntrlWrite .hi v s

/-- W16.I2CNTRL_LO (R203). -/
def execW16I2cntrlLo (v : Half) (s : State) : Res := i2cntrlWrite .lo v s

/-- R16.SBCNTRL_HI (R204). -/
def execR16SbcntrlHi (s : State) : Res := plainRead .sbcntrl .hi s

/-- W16.SBCNTRL_HI (R204). -/
def execW16SbcntrlHi (v : Half) (s : State) : Res := plainWrite .sbcntrl .hi v s

/-- R16.SBCNTRL_LO (R204). -/
def execR16SbcntrlLo (s : State) : Res := plainRead .sbcntrl .lo s

/-- W16.SBCNTRL_LO (R204). -/
def execW16SbcntrlLo (v : Half) (s : State) : Res := plainWrite .sbcntrl .lo v s

/-- R16.SUBDATA_HI (R204). -/
def execR16SubdataHi (s : State) : Res := plainRead .subdata .hi s

/-- W16.SUBDATA_HI (R204). -/
def execW16SubdataHi (v : Half) (s : State) : Res := plainWrite .subdata .hi v s

/-- R16.SUBDATA_LO (R204). -/
def execR16SubdataLo (s : State) : Res := plainRead .subdata .lo s

/-- W16.SUBDATA_LO (R204). -/
def execW16SubdataLo (v : Half) (s : State) : Res := plainWrite .subdata .lo v s

/-- R16.SUBDATB_HI (R204). -/
def execR16SubdatbHi (s : State) : Res := plainRead .subdatb .hi s

/-- W16.SUBDATB_HI (R204). -/
def execW16SubdatbHi (v : Half) (s : State) : Res := plainWrite .subdatb .hi v s

/-- R16.SUBDATB_LO (R204). -/
def execR16SubdatbLo (s : State) : Res := plainRead .subdatb .lo s

/-- W16.SUBDATB_LO (R204). -/
def execW16SubdatbLo (v : Half) (s : State) : Res := plainWrite .subdatb .lo v s

/-- R16.SBTIME_HI (R204). -/
def execR16SbtimeHi (s : State) : Res := plainRead .sbtime .hi s

/-- W16.SBTIME_HI (R204). -/
def execW16SbtimeHi (v : Half) (s : State) : Res := plainWrite .sbtime .hi v s

/-- R16.SBTIME_LO (R204). -/
def execR16SbtimeLo (s : State) : Res := plainRead .sbtime .lo s

/-- W16.SBTIME_LO (R204). -/
def execW16SbtimeLo (v : Half) (s : State) : Res := plainWrite .sbtime .lo v s

/-- R16.FIFODATA_HI (R205). -/
def execR16FifodataHi (s : State) : Res := plainRead .fifodata .hi s

/-- W16.FIFODATA_HI (R205). -/
def execW16FifodataHi (v : Half) (s : State) : Res := plainWrite .fifodata .hi v s

/-- R16.FIFODATA_LO (R205). -/
def execR16FifodataLo (s : State) : Res := plainRead .fifodata .lo s

/-- W16.FIFODATA_LO (R205). -/
def execW16FifodataLo (v : Half) (s : State) : Res := plainWrite .fifodata .lo v s

/-- R16.I2SDAT2_HI (R205). -/
def execR16I2sdat2Hi (s : State) : Res := plainRead .i2sdat2 .hi s

/-- W16.I2SDAT2_HI (R205). -/
def execW16I2sdat2Hi (v : Half) (s : State) : Res := plainWrite .i2sdat2 .hi v s

/-- R16.I2SDAT2_LO (R205). -/
def execR16I2sdat2Lo (s : State) : Res := plainRead .i2sdat2 .lo s

/-- W16.I2SDAT2_LO (R205). -/
def execW16I2sdat2Lo (v : Half) (s : State) : Res := plainWrite .i2sdat2 .lo v s

/-- R16.EEBUS_HI (R206). -/
def execR16EebusHi (s : State) : Res := eebusRead .hi s

/-- W16.EEBUS_HI (R206). -/
def execW16EebusHi (v : Half) (s : State) : Res := eebusWrite .hi v s

/-- R16.EEBUS_LO (R208). -/
def execR16EebusLo (s : State) : Res := eebusRead .lo s

/-- W16.EEBUS_LO (R207). -/
def execW16EebusLo (v : Half) (s : State) : Res := eebusWrite .lo v s

/-- R16.UNRECOGNIZED (R211): zero, whatever the offset; no state changes. -/
def execR16Unrecognized (_off : Half) (s : State) : Res := returns 0 s

/-- W16.UNRECOGNIZED (R211): dropped; no storage exists behind the offset. -/
def execW16Unrecognized (_off : Half) (_v : Half) (s : State) : Res := .next s

end Sys2Proof.Machine
end

