-- ==== Sys2Proof/Machine/Cart.lean ====
section
/-! DEFINITION. The cartridge EEPROM engine (spec/44_eeprom_cart.md R260 to R277). The engine is a function of its own state
that also says whether the image is to be persisted; a frame is its bits clocked one after the other. -/

namespace Sys2Proof.Machine

/-! ## The engine -/

/-- `CartChipSelect` (R261): the array is untouched, the write-enable latch is set. -/
def cartSelect (e : CartEngine) : CartEngine :=
  { e with state := .start, op := 0, addr := 0, addrCnt := 6, data := 0, dataCnt := 16, wen := true }

/-- Entering the data phase of WRITE or WRAL (R263). -/
def cartEnterData (e : CartEngine) : CartEngine := { e with data := 0, dataCnt := 16, state := .data }

/-- A write or erase with the latch: the array changes and the engine is busy; without it nothing changes, silently, and
the state is busy or idle by `CART_BUSY_WHEN_GATED` (R270 to R273, D31). The Bool asks for a persist. -/
def cartCommit (c : Config) (arr : Vector Half 64) (persists : Bool) (e : CartEngine) : CartEngine × Bool :=
  if e.wen then ({ e with arr := arr, state := .busy }, persists)
  else ({ e with state := if c.cartBusyWhenGated then .busy else .start }, false)

/-- `AfterAddr()` (R263): EWDS (R266), the data phase of WRAL (R271), ERAL (R273), EWEN (R267); the data phase of WRITE
(R270); READ (R274); ERASE (R272). -/
def cartAfterAddr (c : Config) (e : CartEngine) : CartEngine × Bool :=
  match e.op with
  | 0 =>
    match subOp e.addr with
    | 0 => ({ e with wen := false, state := .start }, false)
    | 1 => (cartEnterData e, false)
    | 2 => cartCommit c (Vector.replicate 64 0xFFFF) c.cartErasePersists e
    | 3 => ({ e with wen := true, state := .start }, false)
  | 1 => (cartEnterData e, false)
  | 2 => ({ e with dataCnt := 16, state := .readOut }, false)
  | 3 => cartCommit c (e.arr.set e.addr.toNat 0xFFFF) c.cartErasePersists e

/-- `AfterData()` (R263): the commit of WRAL (R271) or WRITE (R270). "reached only with `cart.op` 0 or 1": the other two
have no data phase, and nothing happens. -/
def cartAfterData (c : Config) (e : CartEngine) : CartEngine × Bool :=
  match e.op with
  | 0 => cartCommit c (Vector.replicate 64 e.data) true e
  | 1 => cartCommit c (e.arr.set e.addr.toNat e.data) true e
  | 2 => (e, false)
  | 3 => (e, false)

/-- `Unexpected(b)` (R269). -/
def cartUnexpected (c : Config) (e : CartEngine) : CartEngine :=
  match c.cartUnexpectedNext with
  | .start => { e with state := .start }
  | .opA => { e with state := .opA }

/-- Bit 1 of the opcode and then bit 0 (R263: `cart.op <- b << 1`, `cart.op <- cart.op | b`). -/
def opBit1 (b : Bool) : BitVec 2 := (BitVec.ofBool b).setWidth 2 <<< 1

/-- The state after the second opcode bit (R263, OP_B). -/
def cartOpcodeDone (b : Bool) (e : CartEngine) : CartEngine :=
  let op := e.op ||| (BitVec.ofBool b).setWidth 2
  if op = 2 then { e with op := op, addr := 0, addrCnt := 6, data := 0, dataCnt := 16, state := .addr }
  else { e with op := op, addr := 0, addrCnt := 6, state := .addr }

/-- The state after an address bit, before `AfterAddr` (R263, ADDR). -/
def cartAddrBit (b : Bool) (e : CartEngine) : CartEngine :=
  { e with addr := shiftIn e.addr b, addrCnt := e.addrCnt - 1 }

/-- The state after a data bit, before `AfterData` (R263, DATA). -/
def cartDataBit (b : Bool) (e : CartEngine) : CartEngine :=
  { e with data := shiftIn e.data b, dataCnt := e.dataCnt - 1 }

/-- `CartClock(b)` on the engine (R263). -/
def cartNext (c : Config) (b : Bool) (e : CartEngine) : CartEngine × Bool :=
  match e.state with
  | .start => ({ e with state := .opA }, false)
  | .opA => ({ e with op := opBit1 b, state := .opB }, false)
  | .opB => (cartOpcodeDone b e, false)
  | .addr =>
    if (cartAddrBit b e).addrCnt = 0 then cartAfterAddr c (cartAddrBit b e) else (cartAddrBit b e, false)
  | .data =>
    if (cartDataBit b e).dataCnt = 0 then cartAfterData c (cartDataBit b e) else (cartDataBit b e, false)
  | .readOut => (cartUnexpected c e, false)
  | .busy => (cartUnexpected c e, false)

/-- The bit `READ_OUT` streams once the counter has been decremented (R275). -/
def cartStreamBit (e : CartEngine) : Bool := (e.arr[e.addr.toNat]).getLsbD (e.dataCnt - 1)

/-- `CartReadDO` on the engine (R275): the bit and the engine after it. -/
def cartQuery (e : CartEngine) : Bool × CartEngine :=
  match e.state with
  | .start => (true, e)
  | .busy => (false, { e with state := .start })
  | .readOut =>
    (cartStreamBit e,
      { e with dataCnt := e.dataCnt - 1, state := if e.dataCnt - 1 = 0 then .start else .readOut })
  | .opA => (true, e)
  | .opB => (true, e)
  | .addr => (true, e)
  | .data => (true, e)

/-! ## The engine in the state -/

/-- The engine's next state, and the image when the engine asks for it. -/
def putCart (n : CartEngine × Bool) (s : State) : State :=
  if n.2 then persistCart { s with cart := n.1 } else { s with cart := n.1 }

/-- `CartClock(b)` (R263). -/
def clockCart (b : Bool) (s : State) : State := putCart (cartNext s.cfg b s.cart) s

/-- The bits of a frame clocked in order (R106). -/
def clockCartBits (bits : List Bool) (s : State) : State := bits.foldl (fun s b => clockCart b s) s

/-- A frame of nine clocks (R106). -/
def cartFrame (start : Bool) (op : BitVec 2) (a : BitVec 6) (s : State) : State :=
  clockCartBits (headBits start op a) s

/-- A frame of twenty-five clocks (R106). -/
def cartDataFrame (start : Bool) (op : BitVec 2) (a : BitVec 6) (d : Half) (s : State) : State :=
  clockCartBits (bitsMsb d) (cartFrame start op a s)

/-! ## Meanings -/

/-- CART.EWDS (R266). -/
def execCartEwds (start : Bool) (x : BitVec 4) (s : State) : Res := .next (cartFrame start 0 (0#2 ++ x) s)

/-- CART.WRAL (R271). -/
def execCartWral (start : Bool) (x : BitVec 4) (d : Half) (s : State) : Res :=
  .next (cartDataFrame start 0 (1#2 ++ x) d s)

/-- CART.ERAL (R273). -/
def execCartEral (start : Bool) (x : BitVec 4) (s : State) : Res := .next (cartFrame start 0 (2#2 ++ x) s)

/-- CART.EWEN (R267). -/
def execCartEwen (start : Bool) (x : BitVec 4) (s : State) : Res := .next (cartFrame start 0 (3#2 ++ x) s)

/-- CART.WRITE (R270). -/
def execCartWrite (start : Bool) (a : BitVec 6) (d : Half) (s : State) : Res := .next (cartDataFrame start 1 a d s)

/-- CART.READ (R274). -/
def execCartRead (start : Bool) (a : BitVec 6) (s : State) : Res := .next (cartFrame start 2 a s)

/-- CART.ERASE (R272). -/
def execCartErase (start : Bool) (a : BitVec 6) (s : State) : Res := .next (cartFrame start 3 a s)

/-- CART.CHIPSELECT (R261). R111 makes a read of `CART_PORT_CS` a chip-select and gives that read no word: DESIGN CHOICE, it
leaves `State.result` at the word of the read before (notes/assumptions/22.md). -/
def execCartChipselect (s : State) : Res := .next { s with cart := cartSelect s.cart }

/-- CART.CLOCK (R263). -/
def execCartClock (b : Bool) (s : State) : Res := .next (clockCart b s)

/-- CART.READDO (R275, R111: the bit is bit 0 of the word read, the others 0). -/
def execCartReaddo (s : State) : Res :=
  let q := cartQuery s.cart
  returns ((BitVec.ofBool q.1).setWidth 16) { s with cart := q.2 }

/-- CART.UNEXPECTED_CLOCK (R269): a clock, which in `READ_OUT` and `BUSY` falls back. -/
def execCartUnexpectedClock (b : Bool) (s : State) : Res := .next (clockCart b s)

end Sys2Proof.Machine
end

