-- ==== Sys2Proof/Machine/Pump.lean ====
section
/-! DEFINITION. The sample-rate timer and the audio pump (spec/43_i2s_pump.md R230 to R242). -/

namespace Sys2Proof.Machine

/-- `ReadSector(lsn, buf)` (R84): the bytes of the sector as a filled buffer, or none when it cannot be read. -/
def readSector (d : Disc) (lsn : Int) : Option Memory :=
  (d.sectors.lookup lsn).map (Memory.fill .sector)

/-- The lazy reload of a fetch (R236): only while `dirty`; a sector that cannot be read leaves the buffer's content open
(R84), a free value. -/
def reload (s : State) : State :=
  if s.pump.dirty then
    match readSector s.disc s.pump.sector with
    | some buf => { s with pump := { s.pump with buf := buf, bufValid := true, dirty := false } }
    | none =>
      { s with
        pump := { s.pump with buf := Memory.fill .sector (Config.failedReadBytes s.draws), bufValid := false, dirty := false }
        draws := s.draws + 1 }
  else s

/-- The word at the cursor, 0xFFFF when the buffer is not valid (R236). -/
def fetchedWord (s : State) : Half :=
  if s.pump.bufValid then
    pcmWord s.cfg (Memory.read .sector s.pump.buf s.pump.cursor) (Memory.read .sector s.pump.buf (s.pump.cursor + 1))
  else 0xFFFF

/-- The cursor's advance, with the wrap to the next sector at byte 2352 (R236). -/
def advance (p : Pump) : Pump :=
  if p.cursor + 2 ≥ 2352 then { p with sector := p.sector + 1, cursor := 0, dirty := true }
  else { p with cursor := p.cursor + 2 }

/-- `FetchWord()` (R236): reload if dirty, read, advance, wrap. A cursor at or beyond byte 2352, which no reachable state
has, is refused (U2). -/
def fetchWord (s : State) : Except Refusal (Half × State) :=
  if s.pump.cursor + 2 ≤ 2352 then
    let s1 := reload s
    .ok (fetchedWord s1, { s1 with pump := advance s1.pump })
  else .error .bufferOverrun

/-- The pair of one tick put on the outputs (R240): in falling-edge mode the right word is the previous tick's. -/
def exposePair (l r : Half) (s : State) : State :=
  { s with
    pump :=
      { s.pump with
        outLeft := l
        outRight := if wsFalling s then s.pump.prevRight else r
        prevRight := r } }

/-- The end of a tick: it re-arms itself while `I2SEnabled`, at the rate of this moment (R234, R235, R240). -/
def rearm (s : State) : State := if i2sEnabled s then schedule s else s

/-- `PumpTick()` (R240), enabled iff `armed` (R231). -/
def tick (s : State) : Res :=
  if s.pump.armed then
    match fetchWord { s with pump := { s.pump with armed := false } } with
    | .error r => .refused r
    | .ok (l, s1) =>
      match fetchWord s1 with
      | .error r => .refused r
      | .ok (r, s2) => .next (rearm (emit .audioReady (exposePair l r s2)))
  else .refused .tickNotArmed

/-- PUMP.TICK (R240). -/
def execPumpTick (s : State) : Res := tick s

end Sys2Proof.Machine
end

