-- ==== Sys2Proof/Machine/System.lean ====
section
/-! DEFINITION. The reset operation (spec/70_reset_and_hazards.md R370 to R372). -/

namespace Sys2Proof.Machine

/-- RESET (R370). -/
def execReset (s : State) : Res := .next (resetBlock s)

end Sys2Proof.Machine
end

