-- ==== Sys2Proof/Machine/Dispatch.lean ====
section
/-! DEFINITION. One arm per operation, each a direct call of its meaning. -/

namespace Sys2Proof.Machine

def exec (i : Instr) (s : State) : Host.Outcome State Fault Refusal :=
  match i with
  | .r16CtrlHi => Sys2Proof.Machine.execR16CtrlHi s
  | .r16CtrlLo => Sys2Proof.Machine.execR16CtrlLo s
  | .w16CtrlHi v => Sys2Proof.Machine.execW16CtrlHi v s
  | .w16CtrlLo v => Sys2Proof.Machine.execW16CtrlLo v s
  | .r16DsctrlHi => Sys2Proof.Machine.execR16DsctrlHi s
  | .w16DsctrlHi v => Sys2Proof.Machine.execW16DsctrlHi v s
  | .r16DsctrlLo => Sys2Proof.Machine.execR16DsctrlLo s
  | .w16DsctrlLo v => Sys2Proof.Machine.execW16DsctrlLo v s
  | .r16DsdataHi => Sys2Proof.Machine.execR16DsdataHi s
  | .w16DsdataHi v => Sys2Proof.Machine.execW16DsdataHi v s
  | .r16DsdataLo => Sys2Proof.Machine.execR16DsdataLo s
  | .w16DsdataLo v => Sys2Proof.Machine.execW16DsdataLo v s
  | .r16I2cntrlHi => Sys2Proof.Machine.execR16I2cntrlHi s
  | .r16I2cntrlLo => Sys2Proof.Machine.execR16I2cntrlLo s
  | .w16I2cntrlHi v => Sys2Proof.Machine.execW16I2cntrlHi v s
  | .w16I2cntrlLo v => Sys2Proof.Machine.execW16I2cntrlLo v s
  | .r16SbcntrlHi => Sys2Proof.Machine.execR16SbcntrlHi s
  | .w16SbcntrlHi v => Sys2Proof.Machine.execW16SbcntrlHi v s
  | .r16SbcntrlLo => Sys2Proof.Machine.execR16SbcntrlLo s
  | .w16SbcntrlLo v => Sys2Proof.Machine.execW16SbcntrlLo v s
  | .r16SubdataHi => Sys2Proof.Machine.execR16SubdataHi s
  | .w16SubdataHi v => Sys2Proof.Machine.execW16SubdataHi v s
  | .r16SubdataLo => Sys2Proof.Machine.execR16SubdataLo s
  | .w16SubdataLo v => Sys2Proof.Machine.execW16SubdataLo v s
  | .r16SubdatbHi => Sys2Proof.Machine.execR16SubdatbHi s
  | .w16SubdatbHi v => Sys2Proof.Machine.execW16SubdatbHi v s
  | .r16SubdatbLo => Sys2Proof.Machine.execR16SubdatbLo s
  | .w16SubdatbLo v => Sys2Proof.Machine.execW16SubdatbLo v s
  | .r16SbtimeHi => Sys2Proof.Machine.execR16SbtimeHi s
  | .w16SbtimeHi v => Sys2Proof.Machine.execW16SbtimeHi v s
  | .r16SbtimeLo => Sys2Proof.Machine.execR16SbtimeLo s
  | .w16SbtimeLo v => Sys2Proof.Machine.execW16SbtimeLo v s
  | .r16FifodataHi => Sys2Proof.Machine.execR16FifodataHi s
  | .w16FifodataHi v => Sys2Proof.Machine.execW16FifodataHi v s
  | .r16FifodataLo => Sys2Proof.Machine.execR16FifodataLo s
  | .w16FifodataLo v => Sys2Proof.Machine.execW16FifodataLo v s
  | .r16I2sdat2Hi => Sys2Proof.Machine.execR16I2sdat2Hi s
  | .w16I2sdat2Hi v => Sys2Proof.Machine.execW16I2sdat2Hi v s
  | .r16I2sdat2Lo => Sys2Proof.Machine.execR16I2sdat2Lo s
  | .w16I2sdat2Lo v => Sys2Proof.Machine.execW16I2sdat2Lo v s
  | .r16EebusHi => Sys2Proof.Machine.execR16EebusHi s
  | .w16EebusHi v => Sys2Proof.Machine.execW16EebusHi v s
  | .r16EebusLo => Sys2Proof.Machine.execR16EebusLo s
  | .w16EebusLo v => Sys2Proof.Machine.execW16EebusLo v s
  | .r16Unrecognized off => Sys2Proof.Machine.execR16Unrecognized off s
  | .w16Unrecognized off v => Sys2Proof.Machine.execW16Unrecognized off v s
  | .dsaPlayTrack p => Sys2Proof.Machine.execDsaPlayTrack p s
  | .dsaStop p => Sys2Proof.Machine.execDsaStop p s
  | .dsaReadToc p => Sys2Proof.Machine.execDsaReadToc p s
  | .dsaPause p => Sys2Proof.Machine.execDsaPause p s
  | .dsaUnpause p => Sys2Proof.Machine.execDsaUnpause p s
  | .dsaGotoMin p => Sys2Proof.Machine.execDsaGotoMin p s
  | .dsaGotoSec p => Sys2Proof.Machine.execDsaGotoSec p s
  | .dsaGotoFrm p => Sys2Proof.Machine.execDsaGotoFrm p s
  | .dsaReadLongToc p => Sys2Proof.Machine.execDsaReadLongToc p s
  | .dsaSetMode p => Sys2Proof.Machine.execDsaSetMode p s
  | .dsaOversample p => Sys2Proof.Machine.execDsaOversample p s
  | .dsaZeroWord => Sys2Proof.Machine.execDsaZeroWord s
  | .dsaUnrecognized opc p => Sys2Proof.Machine.execDsaUnrecognized opc p s
  | .cartEwds st x => Sys2Proof.Machine.execCartEwds st x s
  | .cartWral st x d => Sys2Proof.Machine.execCartWral st x d s
  | .cartEral st x => Sys2Proof.Machine.execCartEral st x s
  | .cartEwen st x => Sys2Proof.Machine.execCartEwen st x s
  | .cartWrite st a d => Sys2Proof.Machine.execCartWrite st a d s
  | .cartRead st a => Sys2Proof.Machine.execCartRead st a s
  | .cartErase st a => Sys2Proof.Machine.execCartErase st a s
  | .cartChipselect => Sys2Proof.Machine.execCartChipselect s
  | .cartClock b => Sys2Proof.Machine.execCartClock b s
  | .cartReaddo => Sys2Proof.Machine.execCartReaddo s
  | .cartUnexpectedClock b => Sys2Proof.Machine.execCartUnexpectedClock b s
  | .unitEwds st x => Sys2Proof.Machine.execUnitEwds st x s
  | .unitWral st x d => Sys2Proof.Machine.execUnitWral st x d s
  | .unitEral st x => Sys2Proof.Machine.execUnitEral st x s
  | .unitEwen st x => Sys2Proof.Machine.execUnitEwen st x s
  | .unitWrite st a d => Sys2Proof.Machine.execUnitWrite st a d s
  | .unitRead st a => Sys2Proof.Machine.execUnitRead st a s
  | .unitErase st a => Sys2Proof.Machine.execUnitErase st a s
  | .unitMalformed op a => Sys2Proof.Machine.execUnitMalformed op a s
  | .unitLinesWrite v => Sys2Proof.Machine.execUnitLinesWrite v s
  | .unitChipselect v => Sys2Proof.Machine.execUnitChipselect v s
  | .unitCommandBit v => Sys2Proof.Machine.execUnitCommandBit v s
  | .unitDataBit v => Sys2Proof.Machine.execUnitDataBit v s
  | .unitLinesRead => Sys2Proof.Machine.execUnitLinesRead s
  | .pumpTick => Sys2Proof.Machine.execPumpTick s
  | .reset => Sys2Proof.Machine.execReset s

end Sys2Proof.Machine
end

