-- ==== Sys2Proof/Machine/Present.lean ====
section
/-! DEFINITION. What a step runs: an operation presented from outside, decoded; or, with none presented, the scheduled tick. -/

namespace Sys2Proof.Machine

/-- The state in which a presented operation runs: it is off the list, and the mode register is sampled (R73). -/
def takeInput (inp : Input) (rest : List Input) (s : State) : State :=
  { s with inputs := rest, modeReg := inp.modeReg }

/-- The step with nothing presented: the timer's scheduled tick happens (R406: "while `armed` holds, `PumpTick` eventually
happens"); "Nothing else in the block happens by itself". -/
def idleStep (s : State) : Host.Outcome State Fault Refusal :=
  if s.pump.armed then exec .pumpTick s else .next s

/-- The step on a presented operation: decode it, then run it, or refuse the access under the decoder's reason. -/
def presentedStep (acc : Access) (s : State) : Host.Outcome State Fault Refusal :=
  match decode s.cfg s.phase acc with
  | .ok i => exec i s
  | .error r => .refused (refuseReject r)

/-- A configuration R341 excludes has no steps. -/
def whenConfigured (c : Config) (o : Host.Outcome State Fault Refusal) : Host.Outcome State Fault Refusal :=
  if configOk c then o else .refused .badConfiguration

end Sys2Proof.Machine
end

