-- ==== Sys2Proof/Machine/Step.lean ====
section
/-! DEFINITION. One step: the next operation of the total order (R92) is decoded and run. The block fetches no instructions
(R21): its operations are presented to it, and the list `inputs` holds those still to come. -/

namespace Sys2Proof.Machine

/-- One step, of the next presented operation or, with none presented, of the timer. -/
def step (s : State) : Host.Outcome State Fault Refusal :=
  match s.inputs with
  | [] => whenConfigured s.cfg (idleStep s)
  | inp :: rest => whenConfigured s.cfg (presentedStep inp.access (takeInput inp rest s))

/-- The state with a word of the opcode table presented next, the mode register unchanged. -/
def State.withFetchWord (s : State) (nbits w : Nat) : State :=
  { s with inputs := ⟨tableAccess nbits w, s.modeReg⟩ :: s.inputs }

end Sys2Proof.Machine
end

