-- ==== Sys2Proof/Safety.lean ====
section
/-! DEFINITION. What statements speak of: the invariant of the block, runs of several operations, the queue as a list, the
conditions under which an engine takes a frame. -/

namespace Sys2Proof.Machine

/-! ## Runs -/

/-- The operations one after the other, stopping at the first refusal. -/
def runAll : List Instr → State → Res
  | [], s => .next s
  | i :: is, s =>
    match exec i s with
    | .next t => runAll is t
    | .fault f => .fault f
    | .refused r => .refused r

/-- The operations one after the other, with the word each of them leaves in `result`. -/
def runResults : List Instr → State → Option (List Half × State)
  | [], s => some ([], s)
  | i :: is, s =>
    match exec i s with
    | .next t => (runResults is t).map fun p => (t.result :: p.1, p.2)
    | .fault _ => none
    | .refused _ => none

/-! ## The queue as a list (R33) -/

/-- The queued words, oldest first: `fifo[rd]`, `fifo[(rd+1) mod 512]`, ..., `count` of them (R33). -/
def Fifo.words (f : Fifo) : List Half :=
  (List.range f.count).map fun k => f.slots[(f.rd.val + k) % 512]'(Nat.mod_lt _ (by decide))

/-! ## Bytes (R80) -/

/-- One byte of a byte store; an absent image has none. -/
def State.byteAt (s : State) (sp : Space) (a : Nat) : Option Byte :=
  match sp with
  | .nvCart => s.nvCart.map fun m => Memory.read .nvCart m a
  | .nvUnit => s.nvUnit.map fun m => Memory.read .nvUnit m a
  | .sector => some (Memory.read .sector s.pump.buf a)

/-! ## Conditions -/

/-- The disc has two sessions, and `b` is the boundary track: the premise R135 puts on a disc that is not single (R134). -/
def Disc.TwoSessions (d : Disc) (b : Nat) : Prop :=
  d.lastSessionStart ≠ d.trackLSN d.firstTrack ∧ 2 ≤ b ∧ b ≤ d.trackCount ∧ d.trackLSN b = d.lastSessionStart ∧
    ∀ k, 1 ≤ k → k < b → d.trackLSN k ≠ d.lastSessionStart

/-- The CD-unit engine has been selected and has taken no bit of a packet (R303), and the next write that raises the strobe is
a pulse (R304). -/
def UnitEngine.selected (c : Config) (u : UnitEngine) : Prop :=
  u.ready = true ∧ u.cmdCnt = 0 ∧ u.dop = .none ∧ (c.unitClockEvent = .risingEdge → u.prevClk = false)

/-! ## The invariant -/

/-- The byte stores are in canonical form. -/
structure MemoryInv (s : State) : Prop where
  nvCart : ∀ m, s.nvCart = some m → Memory.wf .nvCart m = true
  nvUnit : ∀ m, s.nvUnit = some m → Memory.wf .nvUnit m = true
  buf : Memory.wf .sector s.pump.buf = true

/-- The cursor stands at a left word inside the audio part: a tick fetches two words, a sector is 588 pairs, and "the two words
of one tick always come from the same sector" (R236). So it is even and at most 2350 (R21, R41). -/
structure CursorInv (p : Pump) : Prop where
  atPair : p.cursor % 4 = 0
  bound : p.cursor ≤ 2348

/-- The counters of the cartridge engine agree with its state (R50, R263): bits are still missing in a field being
assembled, only WRITE and WRAL have a data phase, and a read-out is one of READ. -/
structure CartInv (e : CartEngine) : Prop where
  addr : e.state = .addr → 1 ≤ e.addrCnt ∧ e.addrCnt ≤ 6
  data : e.state = .data → 1 ≤ e.dataCnt ∧ e.dataCnt ≤ 16 ∧ (e.op = 0 ∨ e.op = 1)
  readOut : e.state = .readOut → 1 ≤ e.dataCnt ∧ e.dataCnt ≤ 16 ∧ e.op = 2

/-- The CD-unit engine is in exactly one phase (R301): a command phase has no data operation and fewer than nine bits, a
data phase is not ready and has fewer than sixteen. -/
structure UnitInv (u : UnitEngine) : Prop where
  command : u.ready = true → u.cmdCnt < 9 ∧ u.dop = .none
  data : u.dop ≠ .none → u.dataCnt < 16 ∧ u.ready = false

/-- The invariant of the block. -/
structure State.Inv (s : State) : Prop where
  memory : MemoryInv s
  cursor : CursorInv s.pump
  cart : CartInv s.cart
  unit : UnitInv s.unit

end Sys2Proof.Machine
end

