-- ==== Sys2Proof/Certificates/Slice0/Obligations.lean ====
section
/-! DEFINITION. The statements for the provers. Each docstring names the rule of spec/ it formalises; where a clause rests on a
decision of spec/92_eei_decisions.md or on a choice of this model, the docstring says so. -/

section Statements

open Sys2Proof Sys2Proof.Machine

/-! ## Reset -/

/-- The state after reset meets the block's invariant, and its configuration is one that R341 does not refuse. -/
def Obligations.ResetStateMeetsInvariant : Prop :=
  State.reset.Inv ∧ configOk State.reset.cfg = true

/-- R370, on every component. The source states the empty queue, the arrays without an image and the CD-unit latch; the other
values are the spec's decisions (D10, D11, D12, D19, D21, D26, D34, D39, D42, D50). The slots of the queue and the buffer are
left open; the images, the trace and all that is not named stay. -/
def Obligations.ResetGivesEveryComponentItsValue : Prop :=
  ∀ s : State, ∃ (slots : Vector Half 512) (buf : Memory) (ca ua : Vector Half 64),
    exec .reset s = .next { s with
      regs := ⟨⟨0, 0⟩, ⟨0, 0⟩, ⟨0, 0⟩, ⟨0, 0⟩, ⟨0, 0⟩, ⟨0, 0⟩, ⟨0, 0⟩, ⟨0, 0⟩, ⟨0, 0⟩, ⟨0, 0⟩, ⟨0, 0⟩⟩
      txPending := false
      rxPending := false
      overlayDisabled := false
      fifo := ⟨slots, 0, 0⟩
      dsp := ⟨(nextDisc s).1.opens, 0, 0, 0, 0, 0⟩
      toc := ⟨Vector.replicate 100 ⟨0, 0, 0, 0, 0⟩, 0, 0⟩
      pump := ⟨false, .single, 1000000 / 44100, 0, 0, true, buf, false, 0, 0, 0⟩
      cart := ⟨ca, .start, 0, 0, 6, 0, 16, s.cfg.cartWenAtReset⟩
      unit := ⟨ua, false, 0, 0, .none, 0, 0, 0, false, false⟩
      disc := (nextDisc s).1
      nextDiscs := (nextDisc s).2 } ∧
    (s.nvCart = none → ∀ i : Fin 64, ca[i.val] = 0xFFFF) ∧
    (∀ m, s.nvCart = some m → ∀ i : Fin 64,
      ca[i.val] = Memory.read .nvCart m (2 * i.val) ++ Memory.read .nvCart m (2 * i.val + 1)) ∧
    (s.nvUnit = none → ∀ i : Fin 64, ua[i.val] = 0xFFFF) ∧
    (∀ m, s.nvUnit = some m → ∀ i : Fin 64,
      ua[i.val] = Memory.read .nvUnit m (2 * i.val) ++ Memory.read .nvUnit m (2 * i.val + 1)) ∧
    ∀ t, exec .reset s = .next t → (∀ sp a, sp ≠ .sector → t.byteAt sp a = s.byteAt sp a) ∧ t.events = s.events

/-! ## Register window -/

/-- R191 (decision D23) for the sixteen halves whose reads are plain: R196, R199, R202, R204, R205. -/
def Obligations.PlainReadsReturnTheStoredHalf : Prop :=
  ∀ s : State,
    exec .r16DsctrlHi s = .next { s with result := s.regs.dsctrl.hi } ∧
    exec .r16DsdataHi s = .next { s with result := s.regs.dsdata.hi } ∧
    exec .r16I2cntrlHi s = .next { s with result := s.regs.i2cntrl.hi } ∧
    exec .r16I2cntrlLo s = .next { s with result := s.regs.i2cntrl.lo } ∧
    exec .r16SbcntrlHi s = .next { s with result := s.regs.sbcntrl.hi } ∧
    exec .r16SbcntrlLo s = .next { s with result := s.regs.sbcntrl.lo } ∧
    exec .r16SubdataHi s = .next { s with result := s.regs.subdata.hi } ∧
    exec .r16SubdataLo s = .next { s with result := s.regs.subdata.lo } ∧
    exec .r16SubdatbHi s = .next { s with result := s.regs.subdatb.hi } ∧
    exec .r16SubdatbLo s = .next { s with result := s.regs.subdatb.lo } ∧
    exec .r16SbtimeHi s = .next { s with result := s.regs.sbtime.hi } ∧
    exec .r16SbtimeLo s = .next { s with result := s.regs.sbtime.lo } ∧
    exec .r16FifodataHi s = .next { s with result := s.regs.fifodata.hi } ∧
    exec .r16FifodataLo s = .next { s with result := s.regs.fifodata.lo } ∧
    exec .r16I2sdat2Hi s = .next { s with result := s.regs.i2sdat2.hi } ∧
    exec .r16I2sdat2Lo s = .next { s with result := s.regs.i2sdat2.lo }

/-- R192 (decision D23) for the fifteen halves whose writes are plain: R196, R197, R199, R204, R205. -/
def Obligations.PlainWritesStoreAndNothingElse : Prop :=
  ∀ (s : State) (v : Half),
    exec (.w16DsctrlHi v) s = .next { s with regs := { s.regs with dsctrl := ⟨v, s.regs.dsctrl.lo⟩ } } ∧
    exec (.w16DsctrlLo v) s = .next { s with regs := { s.regs with dsctrl := ⟨s.regs.dsctrl.hi, v⟩ } } ∧
    exec (.w16DsdataHi v) s = .next { s with regs := { s.regs with dsdata := ⟨v, s.regs.dsdata.lo⟩ } } ∧
    exec (.w16SbcntrlHi v) s = .next { s with regs := { s.regs with sbcntrl := ⟨v, s.regs.sbcntrl.lo⟩ } } ∧
    exec (.w16SbcntrlLo v) s = .next { s with regs := { s.regs with sbcntrl := ⟨s.regs.sbcntrl.hi, v⟩ } } ∧
    exec (.w16SubdataHi v) s = .next { s with regs := { s.regs with subdata := ⟨v, s.regs.subdata.lo⟩ } } ∧
    exec (.w16SubdataLo v) s = .next { s with regs := { s.regs with subdata := ⟨s.regs.subdata.hi, v⟩ } } ∧
    exec (.w16SubdatbHi v) s = .next { s with regs := { s.regs with subdatb := ⟨v, s.regs.subdatb.lo⟩ } } ∧
    exec (.w16SubdatbLo v) s = .next { s with regs := { s.regs with subdatb := ⟨s.regs.subdatb.hi, v⟩ } } ∧
    exec (.w16SbtimeHi v) s = .next { s with regs := { s.regs with sbtime := ⟨v, s.regs.sbtime.lo⟩ } } ∧
    exec (.w16SbtimeLo v) s = .next { s with regs := { s.regs with sbtime := ⟨s.regs.sbtime.hi, v⟩ } } ∧
    exec (.w16FifodataHi v) s = .next { s with regs := { s.regs with fifodata := ⟨v, s.regs.fifodata.lo⟩ } } ∧
    exec (.w16FifodataLo v) s = .next { s with regs := { s.regs with fifodata := ⟨s.regs.fifodata.hi, v⟩ } } ∧
    exec (.w16I2sdat2Hi v) s = .next { s with regs := { s.regs with i2sdat2 := ⟨v, s.regs.i2sdat2.lo⟩ } } ∧
    exec (.w16I2sdat2Lo v) s = .next { s with regs := { s.regs with i2sdat2 := ⟨s.regs.i2sdat2.hi, v⟩ } }

/-- R194 (decision D8): the control register is read with the two latches at their positions and every other bit as stored,
whatever the positions are; no state changes. -/
def Obligations.ControlReadShowsTheLatches : Prop :=
  ∀ s : State, ∃ vh vl : Half,
    exec .r16CtrlHi s = .next { s with result := vh } ∧ exec .r16CtrlLo s = .next { s with result := vl } ∧
    ∀ b : Fin 32, (vh ++ vl : Word).getLsbD b.val =
      if b = s.cfg.rxpendBit then s.rxPending
      else if b = s.cfg.txpendBit then s.txPending
      else (s.regs.ctrl.hi ++ s.regs.ctrl.lo : Word).getLsbD b.val

/-- R195 (decision D21 for "either half" and the one-way latch): the half is stored, and when the overlay bit of the whole
register is then 0 the overlay is disabled and the event emitted. -/
def Obligations.ControlWriteRunsTheOverlayHook : Prop :=
  ∀ (s : State) (v : Half),
    exec (.w16CtrlHi v) s = .next
      (if (v ++ s.regs.ctrl.lo : Word).getLsbD s.cfg.ctrlOverlayBit.val = true then
        { s with regs := { s.regs with ctrl := ⟨v, s.regs.ctrl.lo⟩ } }
      else
        { s with
          regs := { s.regs with ctrl := ⟨v, s.regs.ctrl.lo⟩ }
          overlayDisabled := true
          events := s.events ++ [.overlayDisable] }) ∧
    exec (.w16CtrlLo v) s = .next
      (if (s.regs.ctrl.hi ++ v : Word).getLsbD s.cfg.ctrlOverlayBit.val = true then
        { s with regs := { s.regs with ctrl := ⟨s.regs.ctrl.hi, v⟩ } }
      else
        { s with
          regs := { s.regs with ctrl := ⟨s.regs.ctrl.hi, v⟩ }
          overlayDisabled := true
          events := s.events ++ [.overlayDisable] })

/-- R198: the stored half is returned; the receive-pending latch is cleared when both cursors are equal and otherwise keeps its
value. -/
def Obligations.DsctrlReadAcknowledgesReceive : Prop :=
  ∀ s : State,
    (s.fifo.rd = s.fifo.wr →
      exec .r16DsctrlLo s = .next { s with result := s.regs.dsctrl.lo, rxPending := false }) ∧
    (s.fifo.rd ≠ s.fifo.wr → exec .r16DsctrlLo s = .next { s with result := s.regs.dsctrl.lo })

/-- R152 and R201: the sentinel from an empty queue with nothing changed, else the oldest word with the read cursor advanced
modulo 512; no flag is written. -/
def Obligations.CommandDataReadDequeues : Prop :=
  ∀ s : State,
    (s.fifo.rd = s.fifo.wr → exec .r16DsdataLo s = .next { s with result := 0xFFFF }) ∧
    (s.fifo.rd ≠ s.fifo.wr →
      ∃ r : Fin 512, r.val = (s.fifo.rd.val + 1) % 512 ∧
        exec .r16DsdataLo s = .next { s with
          result := s.fifo.slots[s.fifo.rd.val]
          fifo := { s.fifo with rd := r } })

/-- R200 with R103 and R104: a write of the command-data half is the command its word encodes, for every word and every
numbering of the opcodes. That the command row stores its word in `dsdata.lo` is
the model's reading (notes/assumptions/8.md, DEDUCED). -/
def Obligations.CommandDataWriteIsItsCommand : Prop :=
  ∀ (s : State) (w : Half), exec (.w16DsdataLo w) s = exec (decodeDsa s.cfg w) s

/-- R203 and R233 (decision D22 for the positions, "either half" and the policy while armed): the half is stored; when the
three enable bits of the whole register are then 1 the pump is armed with the period of the rate at this moment, unless it is
armed already. -/
def Obligations.I2sControlWriteArmsThePump : Prop :=
  ∀ (s s1 : State) (v : Half) (i : Instr),
    ((i = .w16I2cntrlHi v ∧ s1 = { s with regs := { s.regs with i2cntrl := ⟨v, s.regs.i2cntrl.lo⟩ } }) ∨
      (i = .w16I2cntrlLo v ∧ s1 = { s with regs := { s.regs with i2cntrl := ⟨s.regs.i2cntrl.hi, v⟩ } })) →
    let x : Word := s1.regs.i2cntrl.hi ++ s1.regs.i2cntrl.lo
    let enabled := x.getLsbD s.cfg.i2sEnDiscBit.val && x.getLsbD s.cfg.i2sEnConsumerBit.val &&
      x.getLsbD s.cfg.i2sEnXferBit.val
    (enabled = false → exec i s = .next s1) ∧
    (enabled = true → s.pump.armed = false →
      exec i s = .next { s1 with pump := { s1.pump with armed := true, periodUs := 1000000 / (s.pump.rate.hz : Rat) } }) ∧
    (enabled = true → s.pump.armed = true → s.cfg.pumpRearmWhileArmed = .idempotent → exec i s = .next s1) ∧
    (enabled = true → s.pump.armed = true → s.cfg.pumpRearmWhileArmed = .refuse →
      exec i s = .refused .doubleArm)

/-- R206, R207 and R110 (decision D36: the half is a parameter): a write of the line half is a write of the lines, and completes;
the other half is plain. That UNIT.CHIPSELECT, UNIT.COMMAND_BIT, UNIT.DATA_BIT and UNIT.LINES_WRITE are one and the same write,
for every value and in every phase, is the model's reading (notes/assumptions/21.md, DEDUCED). -/
def Obligations.EebusHalvesAreLinesAndStorage : Prop :=
  ∀ (s : State) (v : Half),
    (s.cfg.unitBusHalf = .lo →
      exec .r16EebusHi s = .next { s with result := s.regs.eebus.hi } ∧
      exec (.w16EebusHi v) s = .next { s with regs := { s.regs with eebus := ⟨v, s.regs.eebus.lo⟩ } } ∧
      exec (.w16EebusLo v) s = exec (.unitLinesWrite v) s) ∧
    (s.cfg.unitBusHalf = .hi →
      exec .r16EebusLo s = .next { s with result := s.regs.eebus.lo } ∧
      exec (.w16EebusLo v) s = .next { s with regs := { s.regs with eebus := ⟨s.regs.eebus.hi, v⟩ } } ∧
      exec (.w16EebusHi v) s = exec (.unitLinesWrite v) s) ∧
    exec (.unitChipselect v) s = exec (.unitLinesWrite v) s ∧
    exec (.unitCommandBit v) s = exec (.unitLinesWrite v) s ∧
    exec (.unitDataBit v) s = exec (.unitLinesWrite v) s ∧
    ∃ t, exec (.unitLinesWrite v) s = .next t

/-- R208 and R318 (decisions D36, D41): a read of the line half is the wire mask when bit 16 of the accumulator is 1, else 0;
not the stored half; no state changes. -/
def Obligations.LineReadShowsAccumulatorBit16 : Prop :=
  ∀ s : State,
    let out : Half := if s.unit.acc.getLsbD 16 = true then s.cfg.unitDoMask else 0
    exec .unitLinesRead s = .next { s with result := out } ∧
    (s.cfg.unitBusHalf = .lo → exec .r16EebusLo s = .next { s with result := out }) ∧
    (s.cfg.unitBusHalf = .hi → exec .r16EebusHi s = .next { s with result := out })

/-- R211: an offset that is none of the 22 halves reads as zero and drops what is written. -/
def Obligations.UnrecognizedOffsetReadsZeroDropsWrites : Prop :=
  ∀ (s : State) (off v : Half),
    exec (.r16Unrecognized off) s = .next { s with result := 0 } ∧ exec (.w16Unrecognized off v) s = .next s

/-- What the reads of the window and of the line leave unchanged: every register, every latch but receive-pending by the
acknowledging read, the queue but for the read cursor by the dequeuing read, both engines, the pump, the tables, every byte of
every store (R91, R191, R194, R198, R201, R208, R211). -/
def Obligations.ReadsLeaveEverythingElse : Prop :=
  ∀ (off : Half) (i : Instr) (s t : State),
    i ∈ [Instr.r16CtrlHi, .r16CtrlLo, .r16DsctrlHi, .r16DsctrlLo, .r16DsdataHi, .r16DsdataLo, .r16I2cntrlHi,
      .r16I2cntrlLo, .r16SbcntrlHi, .r16SbcntrlLo, .r16SubdataHi, .r16SubdataLo, .r16SubdatbHi, .r16SubdatbLo,
      .r16SbtimeHi, .r16SbtimeLo, .r16FifodataHi, .r16FifodataLo, .r16I2sdat2Hi, .r16I2sdat2Lo, .r16EebusHi,
      .r16EebusLo, .r16Unrecognized off, .unitLinesRead] →
    exec i s = .next t →
    t.regs = s.regs ∧ t.txPending = s.txPending ∧ (i ≠ .r16DsctrlLo → t.rxPending = s.rxPending) ∧
    t.overlayDisabled = s.overlayDisabled ∧ (i ≠ .r16DsdataLo → t.fifo.rd = s.fifo.rd) ∧ t.fifo.wr = s.fifo.wr ∧
    t.fifo.slots = s.fifo.slots ∧ t.dsp = s.dsp ∧ t.toc = s.toc ∧ t.pump = s.pump ∧ t.cart = s.cart ∧
    t.unit = s.unit ∧ t.events = s.events ∧ t.cfg = s.cfg ∧ t.disc = s.disc ∧
    ∀ sp a, t.byteAt sp a = s.byteAt sp a

/-- What the writes of the window other than `dsdata.lo` and `eebus` leave unchanged: every other half of every register, both
pending latches, the overlay and the trace except by a control write, the timer except by an I2S-control write, everything
else and every byte of every store (R192, R195, R203, R211). -/
def Obligations.RegisterWritesLeaveEverythingElse : Prop :=
  ∀ (v off : Half) (i : Instr) (r : RegName) (h : RegHalf) (s t : State),
    (i, r, h) ∈ [(Instr.w16CtrlHi v, RegName.ctrl, RegHalf.hi), (.w16CtrlLo v, .ctrl, .lo), (.w16DsctrlHi v, .dsctrl, .hi),
      (.w16DsctrlLo v, .dsctrl, .lo), (.w16DsdataHi v, .dsdata, .hi), (.w16I2cntrlHi v, .i2cntrl, .hi),
      (.w16I2cntrlLo v, .i2cntrl, .lo), (.w16SbcntrlHi v, .sbcntrl, .hi), (.w16SbcntrlLo v, .sbcntrl, .lo),
      (.w16SubdataHi v, .subdata, .hi), (.w16SubdataLo v, .subdata, .lo), (.w16SubdatbHi v, .subdatb, .hi),
      (.w16SubdatbLo v, .subdatb, .lo), (.w16SbtimeHi v, .sbtime, .hi), (.w16SbtimeLo v, .sbtime, .lo),
      (.w16FifodataHi v, .fifodata, .hi), (.w16FifodataLo v, .fifodata, .lo), (.w16I2sdat2Hi v, .i2sdat2, .hi),
      (.w16I2sdat2Lo v, .i2sdat2, .lo)] ∨ i = .w16Unrecognized off v →
    exec i s = .next t →
    (∀ r' h', ((r', h') ≠ (r, h) ∨ i = .w16Unrecognized off v) → t.regs.half r' h' = s.regs.half r' h') ∧
    t.txPending = s.txPending ∧ t.rxPending = s.rxPending ∧
    (r ≠ .ctrl ∨ i = .w16Unrecognized off v → t.overlayDisabled = s.overlayDisabled ∧ t.events = s.events) ∧
    (r ≠ .i2cntrl ∨ i = .w16Unrecognized off v → t.pump.armed = s.pump.armed ∧ t.pump.periodUs = s.pump.periodUs) ∧
    t.pump.rate = s.pump.rate ∧ t.pump.sector = s.pump.sector ∧ t.pump.cursor = s.pump.cursor ∧
    t.pump.dirty = s.pump.dirty ∧ t.pump.bufValid = s.pump.bufValid ∧ t.pump.prevRight = s.pump.prevRight ∧
    t.pump.outLeft = s.pump.outLeft ∧ t.pump.outRight = s.pump.outRight ∧
    t.fifo = s.fifo ∧ t.dsp = s.dsp ∧ t.toc = s.toc ∧ t.cart = s.cart ∧ t.unit = s.unit ∧ t.result = s.result ∧
    t.cfg = s.cfg ∧ t.disc = s.disc ∧ ∀ sp a, t.byteAt sp a = s.byteAt sp a

/-! ## Command queue -/

/-- R33, R151, R152 and R177 (decision D5 for the full condition, D6 for the flag): as a list of words, the queue holds at most
511; a word is stored at its end and sets `rx_pending` unless 511 are queued, and is then dropped with nothing changed; of a
response as many words are stored as there is room for, the first ones; a read of `dsdata.lo` takes the head, or answers the
sentinel. -/
def Obligations.QueueBehavesAsAList : Prop :=
  ∀ (s : State) (w : Half) (ws : List Half),
    s.fifo.words.length ≤ 511 ∧
    (s.fifo.words.length < 511 → (enqueue w s).fifo.words = s.fifo.words ++ [w] ∧ (enqueue w s).rxPending = true ∧
      { enqueue w s with fifo := s.fifo, rxPending := s.rxPending } = s) ∧
    (s.fifo.words.length = 511 → enqueue w s = s) ∧
    (enqueueAll ws s).fifo.words = s.fifo.words ++ ws.take (511 - s.fifo.words.length) ∧
    (s.fifo.words = [] → exec .r16DsdataLo s = .next { s with result := 0xFFFF }) ∧
    (∀ x xs, s.fifo.words = x :: xs → ∃ t, exec .r16DsdataLo s = .next t ∧ t.result = x ∧ t.fifo.words = xs)

/-- R153, over every state with an empty queue and every list: from an empty queue, at most 511 words come back in the order they were queued, the queue is then empty, and a
512th word without a dequeue changes nothing. -/
def Obligations.QueuedWordsReturnInOrder : Prop :=
  ∀ (s : State) (ws : List Half), s.fifo.rd = s.fifo.wr → ws.length ≤ 511 →
    (∃ t, runResults (List.replicate ws.length .r16DsdataLo) (enqueueAll ws s) = some (ws, t) ∧ t.fifo.rd = t.fifo.wr) ∧
    (ws.length = 511 → ∀ w, enqueue w (enqueueAll ws s) = enqueueAll ws s)

/-! ## DSA commands -/

/-- R160 (decision D9: the guard comes before the flag): with the adapter not initialised, or for the zero word, a command is
stored in `dsdata.lo` and does nothing else. That the command row stores its word in `dsdata.lo` is
the model's reading (notes/assumptions/8.md, DEDUCED). -/
def Obligations.GuardedCommandIsOnlyStored : Prop :=
  ∀ (s : State) (w : Half) (opc p : Byte),
    (exec .dsaZeroWord s = .next { s with regs := { s.regs with dsdata := ⟨s.regs.dsdata.hi, 0⟩ } }) ∧
    (exec (.w16DsdataLo 0) s = .next { s with regs := { s.regs with dsdata := ⟨s.regs.dsdata.hi, 0⟩ } }) ∧
    (s.dsp.adapterOk = false →
      exec (.w16DsdataLo w) s = .next { s with regs := { s.regs with dsdata := ⟨s.regs.dsdata.hi, w⟩ } } ∧
      ∀ (i : Instr) (o : Byte),
        (i, o) ∈ [(Instr.dsaPlayTrack p, s.cfg.opcPlayTrack), (.dsaStop p, s.cfg.opcStop), (.dsaReadToc p, s.cfg.opcReadToc),
          (.dsaPause p, s.cfg.opcPause), (.dsaUnpause p, s.cfg.opcUnpause), (.dsaGotoMin p, s.cfg.opcGotoMin),
          (.dsaGotoSec p, s.cfg.opcGotoSec), (.dsaGotoFrm p, s.cfg.opcGotoFrm),
          (.dsaReadLongToc p, s.cfg.opcReadLongToc), (.dsaSetMode p, s.cfg.opcSetMode),
          (.dsaOversample p, s.cfg.opcOversample), (.dsaUnrecognized opc p, opc)] →
        exec i s = .next { s with regs := { s.regs with dsdata := ⟨s.regs.dsdata.hi, o ++ p⟩ } })

/-- R165 to R168 (decision D49): PLAY_TRACK, STOP, PAUSE and UNPAUSE set `tx_pending`, queue nothing and change nothing else. That the command row stores its word in `dsdata.lo` is
the model's reading (notes/assumptions/8.md, DEDUCED). -/
def Obligations.AcknowledgedCommandsOnlySetTransmitPending : Prop :=
  ∀ (s : State) (p o : Byte) (i : Instr),
    (i, o) ∈ [(Instr.dsaPlayTrack p, s.cfg.opcPlayTrack), (.dsaStop p, s.cfg.opcStop), (.dsaPause p, s.cfg.opcPause),
      (.dsaUnpause p, s.cfg.opcUnpause)] →
    s.dsp.adapterOk = true → o ++ p ≠ (0 : Half) →
    exec i s = .next { s with
      regs := { s.regs with dsdata := ⟨s.regs.dsdata.hi, o ++ p⟩ }
      txPending := true }

/-- R176 with R160 and R161: an opcode outside the eleven sets `tx_pending`, queues nothing and is not fatal, whether it is
presented as a command word or written to `dsdata.lo` (R200). That the command row stores its word there is the model's reading
(notes/assumptions/8.md, DEDUCED). -/
def Obligations.UnrecognizedOpcodeOnlySetsTransmitPending : Prop :=
  ∀ (s : State) (opc p : Byte), s.dsp.adapterOk = true → opc ++ p ≠ (0 : Half) → (∀ k, s.cfg.opc k ≠ opc) →
    exec (.dsaUnrecognized opc p) s = .next { s with
      regs := { s.regs with dsdata := ⟨s.regs.dsdata.hi, opc ++ p⟩ }
      txPending := true } ∧
    exec (.w16DsdataLo (opc ++ p)) s = .next { s with
      regs := { s.regs with dsdata := ⟨s.regs.dsdata.hi, opc ++ p⟩ }
      txPending := true }

/-- R171, R172 and R173 (decision D11: unsigned binary, not range-checked, and the pump's position): minutes and seconds
accumulate; on frames the target is computed on unbounded integers from the minutes and seconds last given, it becomes the
pump's position, and 0x0100 is queued. That the command row stores its word in `dsdata.lo` is
the model's reading (notes/assumptions/8.md, DEDUCED). -/
def Obligations.GotoCommandsAccumulateAndSeek : Prop :=
  ∀ (s : State) (p : Byte), s.dsp.adapterOk = true →
    (s.cfg.opcGotoMin ++ p ≠ (0 : Half) →
      exec (.dsaGotoMin p) s = .next { s with
        regs := { s.regs with dsdata := ⟨s.regs.dsdata.hi, s.cfg.opcGotoMin ++ p⟩ }
        txPending := true
        dsp := { s.dsp with gotoMin := p } }) ∧
    (s.cfg.opcGotoSec ++ p ≠ (0 : Half) →
      exec (.dsaGotoSec p) s = .next { s with
        regs := { s.regs with dsdata := ⟨s.regs.dsdata.hi, s.cfg.opcGotoSec ++ p⟩ }
        txPending := true
        dsp := { s.dsp with gotoSec := p } }) ∧
    (s.cfg.opcGotoFrm ++ p ≠ (0 : Half) →
      let target : Int := ((s.dsp.gotoMin.toNat : Int) * 60 + s.dsp.gotoSec.toNat) * 75 + p.toNat - 150
      exec (.dsaGotoFrm p) s = .next (enqueue 0x0100 { s with
        regs := { s.regs with dsdata := ⟨s.regs.dsdata.hi, s.cfg.opcGotoFrm ++ p⟩ }
        txPending := true
        dsp := { s.dsp with gotoFrm := p, targetSector := target }
        pump := { s.pump with sector := target, cursor := 0, dirty := true } }))

/-- R174 (decision D12 for the sense of bit 0): the mode is stored, the rate selected, and 0x17pp queued. That the command row stores its word in `dsdata.lo` is
the model's reading (notes/assumptions/8.md, DEDUCED). -/
def Obligations.SetModeSelectsTheRate : Prop :=
  ∀ (s : State) (p : Byte), s.dsp.adapterOk = true → s.cfg.opcSetMode ++ p ≠ (0 : Half) →
    exec (.dsaSetMode p) s = .next (enqueue ((0x17 : Byte) ++ p) { s with
      regs := { s.regs with dsdata := ⟨s.regs.dsdata.hi, s.cfg.opcSetMode ++ p⟩ }
      txPending := true
      dsp := { s.dsp with playMode := p }
      pump := { s.pump with rate := if p.getLsbD 0 = true then .double else .single } })

/-- R175: the command word itself is queued; `tx_pending` is set (R161). That the command row stores its word in `dsdata.lo` (R200)
is the model's reading (notes/assumptions/8.md, DEDUCED). No other state changes. -/
def Obligations.OversampleEchoesTheCommand : Prop :=
  ∀ (s : State) (p : Byte), s.dsp.adapterOk = true → s.cfg.opcOversample ++ p ≠ (0 : Half) →
    exec (.dsaOversample p) s = .next (enqueue (s.cfg.opcOversample ++ p) { s with
      regs := { s.regs with dsdata := ⟨s.regs.dsdata.hi, s.cfg.opcOversample ++ p⟩ }
      txPending := true })

/-- R169: on success the five tagged words of `toc[0]` are queued in that order, on failure the raw status code; `tx_pending` is
set (R161). That the command row stores its word in `dsdata.lo` (R200) is the model's reading (notes/assumptions/8.md,
DEDUCED). -/
def Obligations.ShortTocResponseIsFiveTaggedWords : Prop :=
  ∀ (s : State) (p : Byte) (st : Half) (t' : Toc), s.dsp.adapterOk = true → s.cfg.opcReadToc ++ p ≠ (0 : Half) →
    readShortToc s.cfg s.disc true p s.toc = .ok (st, t') →
    let s1 : State := { s with
      regs := { s.regs with dsdata := ⟨s.regs.dsdata.hi, s.cfg.opcReadToc ++ p⟩ }
      txPending := true
      toc := t' }
    let e := t'.entries[0]
    exec (.dsaReadToc p) s = .next
      (if st = 0x0000 then
        enqueue (0x2400 ||| e.frames) (enqueue (0x2300 ||| e.seconds) (enqueue (0x2200 ||| e.minutes)
          (enqueue (0x2100 ||| e.lastTrack) (enqueue (0x2000 ||| e.firstTrack) s1))))
      else enqueue st s1)

/-- R170 (the order of the fields in a quintuple is derived there from R169): five words a track and the end marker, or the
status. That the command row stores its word in `dsdata.lo` is
the model's reading (notes/assumptions/8.md, DEDUCED). -/
def Obligations.LongTocResponseIsAQuintuplePerTrack : Prop :=
  ∀ (s : State) (p : Byte) (st : Half) (t' : Toc), s.dsp.adapterOk = true → s.cfg.opcReadLongToc ++ p ≠ (0 : Half) →
    readLongToc s.cfg s.disc true p s.toc = .ok (st, t') →
    let s1 : State := { s with
      regs := { s.regs with dsdata := ⟨s.regs.dsdata.hi, s.cfg.opcReadLongToc ++ p⟩ }
      txPending := true
      toc := t' }
    let tracks := List.range' t'.startTrack.toNat (t'.endTrack.toNat + 1 - t'.startTrack.toNat)
    let words := tracks.flatMap fun k =>
      let e := (t'.entries[k]?).getD ⟨0, 0, 0, 0, 0⟩
      [0x6000 ||| e.firstTrack, 0x6100 ||| e.lastTrack, 0x6200 ||| e.minutes, 0x6300 ||| e.seconds, 0x6400 ||| e.frames]
    exec (.dsaReadLongToc p) s = .next
      (if st = 0x0000 then enqueueAll (words ++ [0x6000, 0x6100, 0x6200, 0x6300, 0x6400]) s1 else enqueue st s1)

/-- R162: what the command rows and the write of `dsdata.lo` leave unchanged: every register half but `dsdata.lo`, the overlay,
both engines, the armed flag, the period and the outputs, the trace and every byte of every store. -/
def Obligations.DispatchLeavesEverythingElse : Prop :=
  ∀ (w : Half) (opc p : Byte) (i : Instr) (s t : State),
    i ∈ [Instr.dsaPlayTrack p, .dsaStop p, .dsaReadToc p, .dsaPause p, .dsaUnpause p, .dsaGotoMin p, .dsaGotoSec p,
      .dsaGotoFrm p, .dsaReadLongToc p, .dsaSetMode p, .dsaOversample p, .dsaZeroWord, .dsaUnrecognized opc p,
      .w16DsdataLo w] →
    exec i s = .next t →
    (∀ r h, (r, h) ≠ (RegName.dsdata, RegHalf.lo) → t.regs.half r h = s.regs.half r h) ∧
    t.overlayDisabled = s.overlayDisabled ∧ t.cart = s.cart ∧ t.unit = s.unit ∧ t.fifo.rd = s.fifo.rd ∧
    t.dsp.adapterOk = s.dsp.adapterOk ∧ t.pump.armed = s.pump.armed ∧ t.pump.periodUs = s.pump.periodUs ∧
    t.pump.outLeft = s.pump.outLeft ∧ t.pump.outRight = s.pump.outRight ∧ t.pump.prevRight = s.pump.prevRight ∧
    t.pump.bufValid = s.pump.bufValid ∧ t.events = s.events ∧ t.result = s.result ∧ t.cfg = s.cfg ∧ t.disc = s.disc ∧
    ∀ sp a, t.byteAt sp a = s.byteAt sp a

/-! ## Table of contents -/

/-- R131: the three quotients and remainders, and the law they satisfy; below -150 there is no answer (decision D17). -/
def Obligations.LsnToMsfInvertsTheFrameCount : Prop :=
  ∀ lsn : Int,
    (-150 ≤ lsn → ∃ m f c : Nat, lsnToMsf lsn = some (m, f, c) ∧
      (c : Int) = (lsn + 150) % 75 ∧ (f : Int) = (lsn + 150) / 75 % 60 ∧ (m : Int) = (lsn + 150) / 75 / 60 ∧
      (m : Int) * 60 * 75 + f * 75 + c - 150 = lsn) ∧
    (lsn < -150 → lsnToMsf lsn = none)

/-- R136, R137, R138 and R140. Every session that a disc does not have answers 0x0429 with the table unchanged: above 0 on a
single-session disc (R140 (2)), 2 and more on a two-session disc (decision D14); an adapter that is not open answers 0xFFFF
(decision D16). A short read of a session there is stores its summary: (3) the whole disc with the time of the lead-out; of two
sessions 1..b-1 with the time of the boundary track, and b..N with the time of the lead-out. (4) The two long reads give the
ranges 1..b-1 and b..N, disjoint, contiguous and covering 1..N. The premises of the summaries are those of R131 and R135, and
that the numbers fit the table. -/
def Obligations.SessionsPartitionTheDisc : Prop :=
  ∀ (c : Config) (d : Disc) (t : Toc),
    (∀ x : Byte, readShortToc c d false x t = .ok (0xFFFF, t) ∧ readLongToc c d false x t = .ok (0xFFFF, t)) ∧
    (∀ x : Byte,
      ((d.lastSessionStart = d.trackLSN d.firstTrack ∧ x ≠ 0) ∨ ((∃ b, d.TwoSessions b) ∧ x ≠ 0 ∧ x ≠ 1)) →
      readShortToc c d true x t = .ok (0x0429, t) ∧ readLongToc c d true x t = .ok (0x0429, t)) ∧
    (d.trackCount ≤ 99 → -150 ≤ d.leadOutLSN c → d.leadOutLSN c ≤ 294911849 →
      (d.lastSessionStart = d.trackLSN d.firstTrack →
        ∃ m f r, lsnToMsf (d.leadOutLSN c) = some (m, f, r) ∧
          readShortToc c d true 0 t = .ok (0x0000, { t with
            entries := t.entries.set 0 ⟨1, BitVec.ofNat 16 d.trackCount, BitVec.ofNat 16 m, BitVec.ofNat 16 f,
              BitVec.ofNat 16 r⟩ })) ∧
      (∀ b, d.TwoSessions b → -150 ≤ d.trackLSN b → d.trackLSN b ≤ 294911849 →
        (∃ m f r, lsnToMsf (d.trackLSN b) = some (m, f, r) ∧
          readShortToc c d true 0 t = .ok (0x0000, { t with
            entries := t.entries.set 0 ⟨1, BitVec.ofNat 16 (b - 1), BitVec.ofNat 16 m, BitVec.ofNat 16 f,
              BitVec.ofNat 16 r⟩ })) ∧
        (∃ m f r, lsnToMsf (d.leadOutLSN c) = some (m, f, r) ∧
          readShortToc c d true 1 t = .ok (0x0000, { t with
            entries := t.entries.set 0 ⟨BitVec.ofNat 16 b, BitVec.ofNat 16 d.trackCount, BitVec.ofNat 16 m,
              BitVec.ofNat 16 f, BitVec.ofNat 16 r⟩ })) ∧
        ∃ t0 t1, readLongToc c d true 0 t = .ok (0x0000, t0) ∧ readLongToc c d true 1 t0 = .ok (0x0000, t1) ∧
          t0.startTrack.toNat = 1 ∧ t0.endTrack.toNat = b - 1 ∧
          t1.startTrack.toNat = b ∧ t1.endTrack.toNat = d.trackCount))

/-- R137 (decision D13 for the first two fields, D18 for the decoding): a long read that succeeds has done the short read first,
keeps its summary and takes its bounds from it, so 1..N on a single disc, 1..b-1 and b..N on one of two sessions (R136); the
entry of every track of the session holds the track's number, its attribute and its BCD time decoded; the entries of other
tracks are stale, but for the summary. -/
def Obligations.LongTocFillsTheSessionsTracks : Prop :=
  ∀ (c : Config) (d : Disc) (p : Byte) (t t' : Toc), readLongToc c d true p t = .ok (0x0000, t') →
    (∃ t1, readShortToc c d true p t = .ok (0x0000, t1) ∧ t'.entries[0] = t1.entries[0] ∧
      t'.startTrack = t1.entries[0].firstTrack ∧ t'.endTrack = t1.entries[0].lastTrack) ∧
    (d.lastSessionStart = d.trackLSN d.firstTrack →
      p = 0 ∧ t'.startTrack.toNat = 1 ∧ t'.endTrack.toNat = d.trackCount) ∧
    (∀ b, d.TwoSessions b →
      (p = 0 ∧ t'.startTrack.toNat = 1 ∧ t'.endTrack.toNat = b - 1) ∨
        (p = 1 ∧ t'.startTrack.toNat = b ∧ t'.endTrack.toNat = d.trackCount)) ∧
    ∀ k : Fin 100, 1 ≤ k.val →
      (t'.startTrack.toNat ≤ k.val ∧ k.val ≤ t'.endTrack.toNat → t'.entries[k.val] =
        ⟨BitVec.ofNat 16 k.val, (c.longTocAttr.lookup k.val).getD 0,
          ((d.track k.val).bcdMin >>> 4 * 10 + ((d.track k.val).bcdMin &&& 0x0F)).setWidth 16,
          ((d.track k.val).bcdSec >>> 4 * 10 + ((d.track k.val).bcdSec &&& 0x0F)).setWidth 16,
          ((d.track k.val).bcdFrm >>> 4 * 10 + ((d.track k.val).bcdFrm &&& 0x0F)).setWidth 16⟩) ∧
      (¬ (t'.startTrack.toNat ≤ k.val ∧ k.val ≤ t'.endTrack.toNat) → t'.entries[k.val] = t.entries[k.val])

/-- R135, R131 and R137 (decisions D14, D17, D50): where the TOC commands are refused for want of a premise on the adapter. A
disc that is not single and has no boundary track b, 2 <= b <= N (none at all, or the least one is track 1), is refused for
every session, 2 and more among them: that the boundary track is sought before the session is looked at is the model's reading (notes/assumptions/13.md, DEDUCED). A session
whose summary time lies below -150 has no summary; and a long read of a session that names a track above 99 is refused, however
large the number. That the command row stores its word in `dsdata.lo` is
the model's reading (notes/assumptions/8.md, DEDUCED). -/
def Obligations.MalformedDiscIsRefused : Prop :=
  ∀ (s : State) (p : Byte), s.dsp.adapterOk = true →
    (s.disc.lastSessionStart ≠ s.disc.trackLSN s.disc.firstTrack → (¬ ∃ b, s.disc.TwoSessions b) →
      (s.cfg.opcReadToc ++ p ≠ (0 : Half) → exec (.dsaReadToc p) s = .refused .malformedDisc) ∧
      (s.cfg.opcReadLongToc ++ p ≠ (0 : Half) → exec (.dsaReadLongToc p) s = .refused .malformedDisc)) ∧
    (∀ (last : Nat) (time : Int),
      ((s.disc.lastSessionStart = s.disc.trackLSN s.disc.firstTrack ∧ p = 0 ∧ last = s.disc.trackCount ∧
          time = s.disc.leadOutLSN s.cfg) ∨
        (∃ b, s.disc.TwoSessions b ∧
          ((p = 0 ∧ last = b - 1 ∧ time = s.disc.trackLSN b) ∨
            (p = 1 ∧ last = s.disc.trackCount ∧ time = s.disc.leadOutLSN s.cfg)))) →
      (time < -150 →
        (s.cfg.opcReadToc ++ p ≠ (0 : Half) → exec (.dsaReadToc p) s = .refused .negativeMSF) ∧
        (s.cfg.opcReadLongToc ++ p ≠ (0 : Half) → exec (.dsaReadLongToc p) s = .refused .negativeMSF)) ∧
      (-150 ≤ time → 99 < last → s.cfg.opcReadLongToc ++ p ≠ (0 : Half) →
        exec (.dsaReadLongToc p) s = .refused .malformedDisc))

/-! ## Timer and pump -/

/-- R240 with R236 and R88 (decision D24 for the order of the steps and the byte order): a tick on a sector that is loaded, or
that must be loaded and can be read, exposes the two words at the cursor, the right one of the tick before in falling-edge
mode, advances by four bytes into the next sector at byte 2352, emits `AudioReady`, and is scheduled again while the three
enable bits are 1. -/
def Obligations.TickPlaysAReadableSector : Prop :=
  ∀ (s : State) (buf : Memory), s.pump.armed = true → CursorInv s.pump →
    ((s.pump.dirty = false ∧ s.pump.bufValid = true ∧ buf = s.pump.buf) ∨
      (s.pump.dirty = true ∧ ∃ bytes, s.disc.sectors.lookup s.pump.sector = some bytes ∧
        buf = Memory.fill .sector bytes)) →
    let byte := fun k => Memory.read .sector buf (s.pump.cursor + k)
    let l : Half := if s.cfg.pcmLittleEndian then byte 1 ++ byte 0 else byte 0 ++ byte 1
    let r : Half := if s.cfg.pcmLittleEndian then byte 3 ++ byte 2 else byte 2 ++ byte 3
    let x : Word := s.regs.i2cntrl.hi ++ s.regs.i2cntrl.lo
    let enabled := x.getLsbD s.cfg.i2sEnDiscBit.val && x.getLsbD s.cfg.i2sEnConsumerBit.val &&
      x.getLsbD s.cfg.i2sEnXferBit.val
    exec .pumpTick s = .next { s with
      events := s.events ++ [.audioReady]
      pump := { s.pump with
        armed := enabled
        periodUs := if enabled then 1000000 / (s.pump.rate.hz : Rat) else s.pump.periodUs
        sector := if s.pump.cursor = 2348 then s.pump.sector + 1 else s.pump.sector
        cursor := if s.pump.cursor = 2348 then 0 else s.pump.cursor + 4
        dirty := decide (s.pump.cursor = 2348)
        buf := buf
        bufValid := true
        prevRight := r
        outLeft := l
        outRight := if s.modeReg.getLsbD s.cfg.wsFallingBit.val = s.cfg.wsFallingValue then s.pump.prevRight else r } }

/-- R236 and R240 on a sector that cannot be read: both words are 0xFFFF, the position advances all the same, and `AudioReady` is
emitted. What the buffer then holds is left open. -/
def Obligations.TickPlaysOnesForAnUnreadableSector : Prop :=
  ∀ s : State, s.pump.armed = true → CursorInv s.pump →
    ((s.pump.dirty = false ∧ s.pump.bufValid = false) ∨
      (s.pump.dirty = true ∧ s.disc.sectors.lookup s.pump.sector = none)) →
    let x : Word := s.regs.i2cntrl.hi ++ s.regs.i2cntrl.lo
    let enabled := x.getLsbD s.cfg.i2sEnDiscBit.val && x.getLsbD s.cfg.i2sEnConsumerBit.val &&
      x.getLsbD s.cfg.i2sEnXferBit.val
    ∃ (buf : Memory) (n : Nat), exec .pumpTick s = .next { s with
      events := s.events ++ [.audioReady]
      draws := n
      pump := { s.pump with
        armed := enabled
        periodUs := if enabled then 1000000 / (s.pump.rate.hz : Rat) else s.pump.periodUs
        sector := if s.pump.cursor = 2348 then s.pump.sector + 1 else s.pump.sector
        cursor := if s.pump.cursor = 2348 then 0 else s.pump.cursor + 4
        dirty := decide (s.pump.cursor = 2348)
        buf := buf
        bufValid := false
        prevRight := 0xFFFF
        outLeft := 0xFFFF
        outRight := if s.modeReg.getLsbD s.cfg.wsFallingBit.val = s.cfg.wsFallingValue then s.pump.prevRight else 0xFFFF } }

/-- R235: clearing an enable bit leaves `armed` as it is; the scheduled tick runs once more, emits its event and does not
reschedule itself; bits set again before that tick make it re-arm as if nothing had happened. -/
def Obligations.ClearingAnEnableBitCancelsAfterOneTick : Prop :=
  ∀ (s : State) (v : Half),
    (∀ (t : State) (i : Instr), (i = .w16I2cntrlHi v ∨ i = .w16I2cntrlLo v) → exec i s = .next t →
      i2sEnabled t = false → t.pump = s.pump) ∧
    (s.pump.armed = true → CursorInv s.pump → i2sEnabled s = false →
      ∃ t, exec .pumpTick s = .next t ∧ t.pump.armed = false ∧ t.events = s.events ++ [.audioReady]) ∧
    (s.pump.armed = true → CursorInv s.pump → i2sEnabled s = true →
      ∃ t, exec .pumpTick s = .next t ∧ t.pump.armed = true ∧ t.events = s.events ++ [.audioReady])

/-- R240: "the tick never touches the FIFO, the latches `tx_pending`, `rx_pending` or any register half"; nor the engines, the
tables or the images, nor, unless the sector must be loaded, the buffer. -/
def Obligations.TickLeavesEverythingElse : Prop :=
  ∀ s t : State, exec .pumpTick s = .next t →
    t.regs = s.regs ∧ t.txPending = s.txPending ∧ t.rxPending = s.rxPending ∧ t.overlayDisabled = s.overlayDisabled ∧
    t.fifo = s.fifo ∧ t.dsp = s.dsp ∧ t.toc = s.toc ∧ t.cart = s.cart ∧ t.unit = s.unit ∧ t.pump.rate = s.pump.rate ∧
    t.result = s.result ∧ t.cfg = s.cfg ∧ t.disc = s.disc ∧ t.modeReg = s.modeReg ∧
    (∀ a, t.byteAt .nvCart a = s.byteAt .nvCart a) ∧ (∀ a, t.byteAt .nvUnit a = s.byteAt .nvUnit a) ∧
    (s.pump.dirty = false → CursorInv s.pump → ∀ a, t.byteAt .sector a = s.byteAt .sector a)

/-! ## Cartridge EEPROM -/

/-- R263 clock by clock, R264 (decision D29: the value of the start bit is not recorded), and R269 (decision D32: the landing state
is a parameter): a clock in `READ_OUT` or `BUSY` falls back and changes nothing else. The sixth address bit completes EWDS, EWEN,
ERASE and ERAL, or enters the data phase or `READ_OUT` (R266, R267, R272, R273, R270, R271, R274); the sixteenth data bit commits
WRITE or WRAL (R270, R271; a data phase is "reached only with `cart.op` 0 or 1"). Decisions D31 and D33: a gated command and the
persist of an erase follow their parameters. -/
def Obligations.CartClockAssemblesTheFrame : Prop :=
  ∀ (s : State) (b : Bool),
    (s.cart.state = .start → exec (.cartClock b) s = .next { s with cart := { s.cart with state := .opA } }) ∧
    (s.cart.state = .opA → exec (.cartClock b) s = .next { s with
      cart := { s.cart with op := if b then 2 else 0, state := .opB } }) ∧
    (s.cart.state = .opB → (s.cart.op ||| (if b then 1 else 0)) ≠ 2 → exec (.cartClock b) s = .next { s with
      cart := { s.cart with op := s.cart.op ||| (if b then 1 else 0), addr := 0, addrCnt := 6, state := .addr } }) ∧
    (s.cart.state = .opB → (s.cart.op ||| (if b then 1 else 0)) = 2 → exec (.cartClock b) s = .next { s with
      cart := { s.cart with
        op := 2, addr := 0, addrCnt := 6, data := 0, dataCnt := 16, state := .addr } }) ∧
    (s.cart.state = .addr → s.cart.addrCnt ≠ 1 → s.cart.addrCnt ≠ 0 → exec (.cartClock b) s = .next { s with
      cart := { s.cart with
        addr := (s.cart.addr <<< 1) ||| (if b then 1 else 0), addrCnt := s.cart.addrCnt - 1 } }) ∧
    (s.cart.state = .data → s.cart.dataCnt ≠ 1 → s.cart.dataCnt ≠ 0 → exec (.cartClock b) s = .next { s with
      cart := { s.cart with
        data := (s.cart.data <<< 1) ||| (if b then 1 else 0), dataCnt := s.cart.dataCnt - 1 } }) ∧
    (s.cart.state = .addr → s.cart.addrCnt = 1 →
      let ad : BitVec 6 := (s.cart.addr <<< 1) ||| (if b then 1 else 0)
      let sub : BitVec 2 := ad.extractLsb' 4 2
      let e : CartEngine := { s.cart with addr := ad, addrCnt := 0 }
      (s.cart.op = 0 → sub = 0 → exec (.cartClock b) s = .next { s with cart := { e with state := .start, wen := false } }) ∧
      (s.cart.op = 0 → sub = 3 → exec (.cartClock b) s = .next { s with cart := { e with state := .start, wen := true } }) ∧
      (s.cart.op = 1 ∨ (s.cart.op = 0 ∧ sub = 1) → exec (.cartClock b) s = .next { s with
        cart := { e with state := .data, data := 0, dataCnt := 16 } }) ∧
      (s.cart.op = 2 → exec (.cartClock b) s = .next { s with cart := { e with state := .readOut, dataCnt := 16 } }) ∧
      ∀ arr : Vector Half 64,
        ((s.cart.op = 3 ∧ arr = s.cart.arr.set ad.toNat 0xFFFF) ∨
          (s.cart.op = 0 ∧ sub = 2 ∧ arr = Vector.replicate 64 0xFFFF)) →
        (s.cart.wen = false → exec (.cartClock b) s = .next { s with
          cart := { e with state := if s.cfg.cartBusyWhenGated then .busy else .start } }) ∧
        (s.cart.wen = true → s.cfg.cartErasePersists = false → exec (.cartClock b) s = .next { s with
          cart := { e with arr := arr, state := .busy } }) ∧
        (s.cart.wen = true → s.cfg.cartErasePersists = true → exec (.cartClock b) s = .next { s with
          cart := { e with arr := arr, state := .busy }
          nvCart := some (Memory.fill .nvCart (imageBytes arr))
          events := s.events ++ [.persist .cart (Memory.fill .nvCart (imageBytes arr))] })) ∧
    (s.cart.state = .data → s.cart.dataCnt = 1 →
      let d : Half := (s.cart.data <<< 1) ||| (if b then 1 else 0)
      let e : CartEngine := { s.cart with data := d, dataCnt := 0 }
      ∀ arr : Vector Half 64,
        ((s.cart.op = 1 ∧ arr = s.cart.arr.set s.cart.addr.toNat d) ∨ (s.cart.op = 0 ∧ arr = Vector.replicate 64 d)) →
        (s.cart.wen = false → exec (.cartClock b) s = .next { s with
          cart := { e with state := if s.cfg.cartBusyWhenGated then .busy else .start } }) ∧
        (s.cart.wen = true → exec (.cartClock b) s = .next { s with
          cart := { e with arr := arr, state := .busy }
          nvCart := some (Memory.fill .nvCart (imageBytes arr))
          events := s.events ++ [.persist .cart (Memory.fill .nvCart (imageBytes arr))] })) ∧
    (s.cart.state = .readOut ∨ s.cart.state = .busy → exec (.cartUnexpectedClock b) s = .next { s with
      cart := { s.cart with
        state := match s.cfg.cartUnexpectedNext with
          | .start => .start
          | .opA => .opA } })

/-- R266 and R267, with R263 for the opcode, the address and the count that the frame leaves: after a whole frame from `START`
writes are disabled, or enabled, and the engine is in `START`; no busy state, no array change, no persist. That the frame row is
its nine clocks in one step is the model's choice (notes/assumptions/9.md). -/
def Obligations.CartEwdsAndEwenSetTheLatch : Prop :=
  ∀ (s : State) (st : Bool) (x : BitVec 4), s.cart.state = .start →
    exec (.cartEwds st x) s = .next { s with
      cart := { s.cart with state := .start, op := 0, addr := 0#2 ++ x, addrCnt := 0, wen := false } } ∧
    exec (.cartEwen st x) s = .next { s with
      cart := { s.cart with state := .start, op := 0, addr := 3#2 ++ x, addrCnt := 0, wen := true } }

/-- R270 and R271 (decision D31 for a gated command): with the latch the addressed word, or every word, becomes the data and the
whole image is persisted; without it nothing changes but the protocol state. That the frame row is its twenty-five clocks in one
step is the model's choice (notes/assumptions/9.md). -/
def Obligations.CartWritesCommitUnderTheLatch : Prop :=
  ∀ (s : State) (st : Bool) (a : BitVec 6) (x : BitVec 4) (d : Half), s.cart.state = .start →
    (∀ (i : Instr) (op : BitVec 2) (ad : BitVec 6) (arr : Vector Half 64),
      ((i = .cartWrite st a d ∧ op = 1 ∧ ad = a ∧ arr = s.cart.arr.set a.toNat d) ∨
        (i = .cartWral st x d ∧ op = 0 ∧ ad = 1#2 ++ x ∧ arr = Vector.replicate 64 d)) →
      (s.cart.wen = true → exec i s = .next { s with
        cart := ⟨arr, .busy, op, ad, 0, d, 0, true⟩
        nvCart := some (Memory.fill .nvCart (imageBytes arr))
        events := s.events ++ [.persist .cart (Memory.fill .nvCart (imageBytes arr))] }) ∧
      (s.cart.wen = false → exec i s = .next { s with
        cart := ⟨s.cart.arr, if s.cfg.cartBusyWhenGated then .busy else .start, op, ad, 0, d, 0, false⟩ }))

/-- R272 and R273 (decisions D33, D31): with the latch the addressed word, or every word, becomes 0xFFFF, and the image is
persisted only under the parameter; without it nothing changes but the protocol state. That the frame row is its nine clocks in
one step is the model's choice (notes/assumptions/9.md). -/
def Obligations.CartErasesFillWithOnes : Prop :=
  ∀ (s : State) (st : Bool) (a : BitVec 6) (x : BitVec 4), s.cart.state = .start →
    (∀ (i : Instr) (op : BitVec 2) (ad : BitVec 6) (arr : Vector Half 64),
      ((i = .cartErase st a ∧ op = 3 ∧ ad = a ∧ arr = s.cart.arr.set a.toNat 0xFFFF) ∨
        (i = .cartEral st x ∧ op = 0 ∧ ad = 2#2 ++ x ∧ arr = Vector.replicate 64 0xFFFF)) →
      (s.cart.wen = true → s.cfg.cartErasePersists = false → exec i s = .next { s with
        cart := ⟨arr, .busy, op, ad, 0, s.cart.data, s.cart.dataCnt, true⟩ }) ∧
      (s.cart.wen = true → s.cfg.cartErasePersists = true → exec i s = .next { s with
        cart := ⟨arr, .busy, op, ad, 0, s.cart.data, s.cart.dataCnt, true⟩
        nvCart := some (Memory.fill .nvCart (imageBytes arr))
        events := s.events ++ [.persist .cart (Memory.fill .nvCart (imageBytes arr))] }) ∧
      (s.cart.wen = false → exec i s = .next { s with
        cart := ⟨s.cart.arr, if s.cfg.cartBusyWhenGated then .busy else .start, op, ad, 0, s.cart.data,
          s.cart.dataCnt, false⟩ }))

/-- R261 (decision D34 for the fields other than the latch) and R275 (decision D30 for the values 1, 0, 1): a chip-select returns
the engine to `START` with writes enabled, from every state; a query of the output line, in every state of the engine. That a
chip-select, also by a read, leaves `result` as it is, is the model's choice (notes/assumptions/22.md). -/
def Obligations.CartSelectAndOutputLineByState : Prop :=
  ∀ s : State,
    exec .cartChipselect s = .next { s with cart := ⟨s.cart.arr, .start, 0, 0, 6, 0, 16, true⟩ } ∧
    (s.cart.state = .start ∨ s.cart.state = .opA ∨ s.cart.state = .opB ∨ s.cart.state = .addr ∨ s.cart.state = .data →
      exec .cartReaddo s = .next { s with result := 1 }) ∧
    (s.cart.state = .busy → exec .cartReaddo s = .next { s with
      result := 0
      cart := { s.cart with state := .start } }) ∧
    (s.cart.state = .readOut → exec .cartReaddo s = .next { s with
      result := if (s.cart.arr[s.cart.addr.toNat]).getLsbD (s.cart.dataCnt - 1) = true then 1 else 0
      cart := { s.cart with
        dataCnt := s.cart.dataCnt - 1
        state := if s.cart.dataCnt - 1 = 0 then .start else .readOut } })

/-- R274 (decision D35 for the order of the counter): a READ frame from `START` rests in `READ_OUT`; the sixteen queries that
follow return the addressed word, bit 15 first; the engine is then in `START`, and a seventeenth query returns 1. That the frame
row is its nine clocks in one step is the model's choice (notes/assumptions/9.md). -/
def Obligations.CartReadStreamsTheWord : Prop :=
  ∀ (s : State) (st : Bool) (a : BitVec 6), s.cart.state = .start →
    exec (.cartRead st a) s = .next { s with cart := ⟨s.cart.arr, .readOut, 2, a, 0, 0, 16, s.cart.wen⟩ } ∧
    ∃ t bits, runResults (List.replicate 17 .cartReaddo)
        { s with cart := ⟨s.cart.arr, .readOut, 2, a, 0, 0, 16, s.cart.wen⟩ } = some (bits ++ [1], t) ∧
      t.cart.state = .start ∧ t.cart.arr = s.cart.arr ∧
      bits = (List.range 16).map fun k => if (s.cart.arr[a.toNat]).getLsbD (15 - k) = true then (1 : Half) else 0

/-- "with write-enable asserted, `Write(addr=5, data=0x1234)` then `Read(addr=5)` yields `0x1234`; with write-enable not asserted,
the same write leaves the register unchanged" (R270), for every address and every data, from every state: chip-select (which
asserts write-enable), optionally EWDS, WRITE, one query, READ, sixteen queries. The query after the gated WRITE shows the busy
state that `CART_BUSY_WHEN_GATED` decides (decision D31). That a frame row is its clocks in one step is the model's choice
(notes/assumptions/9.md). -/
def Obligations.CartWriteThenReadYieldsTheData : Prop :=
  ∀ (s : State) (st : Bool) (a : BitVec 6) (x : BitVec 4) (d : Half),
    let word := fun w : Half => (List.range 16).map fun k => if w.getLsbD (15 - k) = true then (1 : Half) else 0
    (∃ t r0 r1 r3, runResults ([.cartChipselect, .cartWrite st a d, .cartReaddo, .cartRead st a] ++
        List.replicate 16 .cartReaddo) s = some ([r0, r1, 0, r3] ++ word d, t) ∧ t.cart.state = .start ∧
      (t.cart.arr)[a.toNat] = d ∧
      t.byteAt .nvCart (2 * a.toNat) = some (d.extractLsb' 8 8) ∧
      t.byteAt .nvCart (2 * a.toNat + 1) = some (d.extractLsb' 0 8)) ∧
    ∃ t r0 r1 r2 r4, runResults ([.cartChipselect, .cartEwds st x, .cartWrite st a d, .cartReaddo, .cartRead st a] ++
        List.replicate 16 .cartReaddo) s =
          some ([r0, r1, r2, if s.cfg.cartBusyWhenGated then 0 else 1, r4] ++ word (s.cart.arr[a.toNat]), t) ∧
      t.cart.state = .start ∧ t.cart.arr = s.cart.arr ∧ t.nvCart = s.nvCart

/-- What the eleven cartridge rows leave unchanged: every register half, the pending latches, the queue, the pump, the tables,
the CD-unit engine, every byte of the CD-unit image and of the sector buffer; the result but by a query (that a chip-select by a
read leaves it is the model's choice, notes/assumptions/22.md); for every row, when no event is appended, every byte of the
cartridge image (R276); and, for the rows without a clock, that image and the trace. -/
def Obligations.CartRowsLeaveEverythingElse : Prop :=
  ∀ (st b : Bool) (x : BitVec 4) (a : BitVec 6) (d : Half) (i : Instr) (s t : State),
    i ∈ [Instr.cartEwds st x, .cartWral st x d, .cartEral st x, .cartEwen st x, .cartWrite st a d, .cartRead st a,
      .cartErase st a, .cartChipselect, .cartClock b, .cartReaddo, .cartUnexpectedClock b] →
    exec i s = .next t →
    t.regs = s.regs ∧ t.txPending = s.txPending ∧ t.rxPending = s.rxPending ∧ t.overlayDisabled = s.overlayDisabled ∧
    t.fifo = s.fifo ∧ t.dsp = s.dsp ∧ t.toc = s.toc ∧ t.pump = s.pump ∧ t.unit = s.unit ∧ t.cfg = s.cfg ∧
    t.disc = s.disc ∧ (i ≠ .cartReaddo → t.result = s.result) ∧
    (∀ sp k, sp ≠ .nvCart → t.byteAt sp k = s.byteAt sp k) ∧
    (t.events = s.events → ∀ k, t.byteAt .nvCart k = s.byteAt .nvCart k) ∧
    (i = .cartChipselect ∨ i = .cartReaddo → t.events = s.events ∧ ∀ k, t.byteAt .nvCart k = s.byteAt .nvCart k)

/-! ## CD-unit EEPROM -/

/-- R302 to R307 (decisions D37, D39, D42), by the lines of the written value: with chip-select at 1 the packet restarts, whatever
the strobe, and the latch, the accumulator, the address and the array stay; with chip-select at 0, a write that is no pulse,
or a pulse in the idle phase, changes nothing but the stored half and the remembered strobe; a pulse in the command phase
shifts one bit into the command register, and the ninth one decodes the packet: malformed (R308, decision D38), EWDS and EWEN
(R309, R310), the begin of WRITE, WRAL and READ (R311, R312, R314), ERASE and ERAL (R315, R316, decision D40). That the rows are
told apart by the phase, and are one write, is the model's reading (notes/assumptions/21.md, DEDUCED). -/
def Obligations.UnitLineWritesByPhase : Prop :=
  ∀ (s : State) (v : Half),
    let clk := v.getLsbD s.cfg.unitClkBit.val
    let s1 : State := { s with regs := s.regs.setHalf .eebus s.cfg.unitBusHalf v }
    (v.getLsbD s.cfg.unitCsBit.val = true →
      exec (.unitChipselect v) s = .next { s1 with
        unit := { s.unit with cmd := 0, cmdCnt := 0, ready := true, dop := .none, dataCnt := 0, prevClk := clk } }) ∧
    (v.getLsbD s.cfg.unitCsBit.val = false →
      (clk = false ∨ (s.cfg.unitClockEvent = .risingEdge ∧ s.unit.prevClk = true) ∨
        (¬ (s.unit.ready = true ∧ s.unit.cmdCnt < 9) ∧ s.unit.dop = .none)) →
      exec (.unitLinesWrite v) s = .next { s1 with unit := { s.unit with prevClk := clk } }) ∧
    (v.getLsbD s.cfg.unitCsBit.val = false → clk = true →
      (s.cfg.unitClockEvent = .risingEdge → s.unit.prevClk = false) → s.unit.ready = true → s.unit.cmdCnt < 8 →
      exec (.unitCommandBit v) s = .next { s1 with
        unit := { s.unit with
          cmd := (s.unit.cmd <<< 1) ||| (if v.getLsbD s.cfg.unitDiBit.val then 1 else 0)
          cmdCnt := s.unit.cmdCnt + 1
          prevClk := true } }) ∧
    (v.getLsbD s.cfg.unitCsBit.val = false → clk = true →
      (s.cfg.unitClockEvent = .risingEdge → s.unit.prevClk = false) → s.unit.ready = true → s.unit.cmdCnt = 8 →
      let cmd : BitVec 9 := (s.unit.cmd <<< 1) ||| (if v.getLsbD s.cfg.unitDiBit.val then 1 else 0)
      let op : BitVec 2 := cmd.extractLsb' 6 2
      let sub : BitVec 2 := cmd.extractLsb' 4 2
      let a : BitVec 6 := cmd.extractLsb' 0 6
      let u : UnitEngine := { s.unit with cmd := cmd, cmdCnt := 9, ready := false, prevClk := true }
      (s.cfg.unitStartBitCheck = true → cmd.getLsbD 8 = false →
        exec (.unitCommandBit v) s = .next { s1 with unit := { u with dop := .none } }) ∧
      (s.cfg.unitStartBitCheck = false ∨ cmd.getLsbD 8 = true →
        (op = 0 → sub = 0 → exec (.unitCommandBit v) s = .next { s1 with unit := { u with wen := false } }) ∧
        (op = 0 → sub = 3 → exec (.unitCommandBit v) s = .next { s1 with unit := { u with wen := true } }) ∧
        (op = 0 → sub = 1 → exec (.unitCommandBit v) s = .next { s1 with
          unit := { u with dop := .wral, addr := a, acc := 0, dataCnt := 0 } }) ∧
        (op = 1 → exec (.unitCommandBit v) s = .next { s1 with
          unit := { u with dop := .write, addr := a, acc := 0, dataCnt := 0 } }) ∧
        (op = 2 → exec (.unitCommandBit v) s = .next { s1 with
          unit := { u with dop := .read, addr := a, acc := (s.unit.arr[a.toNat]).setWidth 32, dataCnt := 0 } }) ∧
        ∀ (arr : Vector Half 64) (persists : Bool),
          ((op = 3 ∧ arr = s.unit.arr.set a.toNat 0xFFFF ∧ persists = s.cfg.unitErasePersists) ∨
            (op = 0 ∧ sub = 2 ∧ arr = Vector.replicate 64 0xFFFF ∧ persists = true)) →
          (s.unit.wen = false → exec (.unitCommandBit v) s = .next { s1 with unit := u }) ∧
          (s.unit.wen = true → persists = false → exec (.unitCommandBit v) s = .next { s1 with unit := { u with arr := arr } }) ∧
          (s.unit.wen = true → persists = true → exec (.unitCommandBit v) s = .next { s1 with
            unit := { u with arr := arr }
            nvUnit := some (Memory.fill .nvUnit (imageBytes arr))
            events := s.events ++ [.persist .unit (Memory.fill .nvUnit (imageBytes arr))] })))

/-- R313 with the commits of R311 and R312: a pulse in the data phase shifts one bit into the accumulator; the sixteenth ends the
phase, and of a write under the latch the array changes and the image is persisted. -/
def Obligations.UnitDataBitShiftsAndCommits : Prop :=
  ∀ (s : State) (v : Half), v.getLsbD s.cfg.unitCsBit.val = false → v.getLsbD s.cfg.unitClkBit.val = true →
    (s.cfg.unitClockEvent = .risingEdge → s.unit.prevClk = false) → s.unit.ready = false → s.unit.dop ≠ .none →
    let acc : Word := (s.unit.acc <<< 1) ||| (if v.getLsbD s.cfg.unitDiBit.val then 1 else 0)
    let u : UnitEngine := { s.unit with acc := acc, dataCnt := s.unit.dataCnt + 1, prevClk := true }
    let s1 : State := { s with regs := s.regs.setHalf .eebus s.cfg.unitBusHalf v }
    let arr : Vector Half 64 := if s.unit.dop = .write then s.unit.arr.set s.unit.addr.toNat (acc.extractLsb' 0 16)
      else Vector.replicate 64 (acc.extractLsb' 0 16)
    (s.unit.dataCnt ≠ 15 → exec (.unitDataBit v) s = .next { s1 with unit := u }) ∧
    (s.unit.dataCnt = 15 → (s.unit.dop = .read ∨ s.unit.wen = false) →
      exec (.unitDataBit v) s = .next { s1 with unit := { u with dop := .none } }) ∧
    (s.unit.dataCnt = 15 → s.unit.dop ≠ .read → s.unit.wen = true →
      exec (.unitDataBit v) s = .next { s1 with
        unit := { u with dop := .none, arr := arr }
        nvUnit := some (Memory.fill .nvUnit (imageBytes arr))
        events := s.events ++ [.persist .unit (Memory.fill .nvUnit (imageBytes arr))] })

/-- R309 and R310 (with R307 for the assembled command): nine pulses to a selected engine clear the latch, or set it, and leave the
engine idle; no array change, no persist. That the packet row is its pulses in one step, and that the line half
then holds the last written value (the strobe down, the data line at the last bit, every other bit 0, as R100's `UBITS` writes
it), is the model's choice (notes/assumptions/10.md). -/
def Obligations.UnitEwdsAndEwenSetTheLatch : Prop :=
  ∀ (s : State) (st : Bool) (x : BitVec 4), configOk s.cfg = true → s.unit.selected s.cfg →
    (st = true ∨ s.cfg.unitStartBitCheck = false) →
    let s1 : State := { s with
      regs := s.regs.setHalf .eebus s.cfg.unitBusHalf (linesValue s.cfg false false (x.getLsbD 0)) }
    let u : UnitEngine := { s.unit with cmdCnt := 9, ready := false, dop := .none, prevClk := false }
    exec (.unitEwds st x) s = .next { s1 with
      unit := { u with cmd := BitVec.ofBool st ++ 0#2 ++ (0#2 ++ x), wen := false } } ∧
    exec (.unitEwen st x) s = .next { s1 with
      unit := { u with cmd := BitVec.ofBool st ++ 0#2 ++ (3#2 ++ x), wen := true } }

/-- R311 and R312 (decision D39 for the accumulator): nine pulses and sixteen to a selected engine. With the latch the addressed
word, or every word, becomes the data and the whole image is persisted; without it the array stays. That the packet row is its pulses in one step, and that the line half
then holds the last written value (the strobe down, the data line at the last bit, every other bit 0, as R100's `UBITS` writes
it), is the model's choice (notes/assumptions/10.md). -/
def Obligations.UnitWritesCommitUnderTheLatch : Prop :=
  ∀ (s : State) (st : Bool) (a : BitVec 6) (x : BitVec 4) (d : Half), configOk s.cfg = true → s.unit.selected s.cfg →
    (st = true ∨ s.cfg.unitStartBitCheck = false) →
    (∀ (i : Instr) (op : BitVec 2) (ad : BitVec 6) (arr : Vector Half 64),
      ((i = .unitWrite st a d ∧ op = 1 ∧ ad = a ∧ arr = s.unit.arr.set a.toNat d) ∨
        (i = .unitWral st x d ∧ op = 0 ∧ ad = 1#2 ++ x ∧ arr = Vector.replicate 64 d)) →
      let s1 : State := { s with
        regs := s.regs.setHalf .eebus s.cfg.unitBusHalf (linesValue s.cfg false false (d.getLsbD 0)) }
      let u : UnitEngine := ⟨s.unit.arr, false, BitVec.ofBool st ++ op ++ ad, 9, .none, ad, d.setWidth 32, 16, s.unit.wen,
        false⟩
      (s.unit.wen = true → exec i s = .next { s1 with
        unit := { u with arr := arr }
        nvUnit := some (Memory.fill .nvUnit (imageBytes arr))
        events := s.events ++ [.persist .unit (Memory.fill .nvUnit (imageBytes arr))] }) ∧
      (s.unit.wen = false → exec i s = .next { s1 with unit := u }))

/-- R315 and R316 (decision D40 for the persist of ERASE): with write-enable off all registers stay unchanged; with it on the
addressed register, or all 64, becomes 0xFFFF; ERAL then persists the image, ERASE under the parameter. That the packet row is its pulses in one step, and that the line half
then holds the last written value (the strobe down, the data line at the last bit, every other bit 0, as R100's `UBITS` writes
it), is the model's choice (notes/assumptions/10.md). -/
def Obligations.UnitErasesFillWithOnes : Prop :=
  ∀ (s : State) (st : Bool) (a : BitVec 6) (x : BitVec 4), configOk s.cfg = true → s.unit.selected s.cfg →
    (st = true ∨ s.cfg.unitStartBitCheck = false) →
    (∀ (i : Instr) (op : BitVec 2) (ad : BitVec 6) (arr : Vector Half 64) (persists : Bool),
      ((i = .unitErase st a ∧ op = 3 ∧ ad = a ∧ arr = s.unit.arr.set a.toNat 0xFFFF ∧
          persists = s.cfg.unitErasePersists) ∨
        (i = .unitEral st x ∧ op = 0 ∧ ad = 2#2 ++ x ∧ arr = Vector.replicate 64 0xFFFF ∧ persists = true)) →
      let s1 : State := { s with
        regs := s.regs.setHalf .eebus s.cfg.unitBusHalf (linesValue s.cfg false false (ad.getLsbD 0)) }
      let u : UnitEngine := { s.unit with
        cmd := BitVec.ofBool st ++ op ++ ad, cmdCnt := 9, ready := false, dop := .none, prevClk := false }
      (s.unit.wen = true → persists = true → exec i s = .next { s1 with
        unit := { u with arr := arr }
        nvUnit := some (Memory.fill .nvUnit (imageBytes arr))
        events := s.events ++ [.persist .unit (Memory.fill .nvUnit (imageBytes arr))] }) ∧
      (s.unit.wen = true → persists = false → exec i s = .next { s1 with unit := { u with arr := arr } }) ∧
      (s.unit.wen = false → exec i s = .next { s1 with unit := u }))

/-- R308 (decision D38: under the parameter): a packet whose first bit is 0 returns the engine to idle; of the engine only the
assembled command, its count and the remembered strobe change besides. That the packet row is its pulses in one step, and that the line half
then holds the last written value (the strobe down, the data line at the last bit, every other bit 0, as R100's `UBITS` writes
it), is the model's choice (notes/assumptions/10.md). -/
def Obligations.UnitMalformedPacketGoesIdle : Prop :=
  ∀ (s : State) (op : BitVec 2) (a : BitVec 6), configOk s.cfg = true → s.unit.selected s.cfg →
    s.cfg.unitStartBitCheck = true →
    exec (.unitMalformed op a) s = .next { s with
      regs := s.regs.setHalf .eebus s.cfg.unitBusHalf (linesValue s.cfg false false (a.getLsbD 0))
      unit := { s.unit with
        cmd := 0#1 ++ op ++ a, cmdCnt := 9, ready := false, dop := .none, prevClk := false } }

/-- R314 (decision D39 for the zero extension): the READ packet preloads the accumulator; before the first data pulse the line
shows 0, after the k-th, k = 1..16, bit 16-k of the word, whatever data the host clocks in. That the packet row is its nine pulses
in one step is the model's choice (notes/assumptions/10.md). -/
def Obligations.UnitReadShiftsTheWordOut : Prop :=
  ∀ (s : State) (st : Bool) (a : BitVec 6) (bits : List Bool), configOk s.cfg = true → s.unit.selected s.cfg →
    (st = true ∨ s.cfg.unitStartBitCheck = false) → bits.length ≤ 16 →
    ∃ t0 t, exec (.unitRead st a) s = .next t0 ∧
      t0.unit = ⟨s.unit.arr, false, BitVec.ofBool st ++ 2#2 ++ a, 9, .read, a, (s.unit.arr[a.toNat]).setWidth 32, 0,
        s.unit.wen, false⟩ ∧
      runAll (bits.flatMap fun b => [.unitDataBit (linesValue s.cfg false true b),
        .unitLinesWrite (linesValue s.cfg false false b)]) t0 = .next t ∧
      t.unit.arr = s.unit.arr ∧ t.unit.dop = (if bits.length = 16 then .none else .read) ∧
      exec .unitLinesRead t = .next { t with
        result := if bits ≠ [] ∧ (s.unit.arr[a.toNat]).getLsbD (16 - bits.length) = true then s.cfg.unitDoMask else 0 }

/-- What the twelve CD-unit rows that write lines, and the two writes of `eebus`, leave unchanged: every register half but the one
written, the pending latches, the queue, the pump, the tables, the cartridge engine, the result, and every byte of the
cartridge image and of the sector buffer. -/
def Obligations.UnitRowsLeaveEverythingElse : Prop :=
  ∀ (st : Bool) (x : BitVec 4) (op : BitVec 2) (a : BitVec 6) (d v : Half) (i : Instr) (h : RegHalf) (s t : State),
    (i, h) ∈ [(Instr.unitEwds st x, s.cfg.unitBusHalf), (.unitWral st x d, s.cfg.unitBusHalf),
      (.unitEral st x, s.cfg.unitBusHalf), (.unitEwen st x, s.cfg.unitBusHalf), (.unitWrite st a d, s.cfg.unitBusHalf),
      (.unitRead st a, s.cfg.unitBusHalf), (.unitErase st a, s.cfg.unitBusHalf), (.unitMalformed op a, s.cfg.unitBusHalf),
      (.unitLinesWrite v, s.cfg.unitBusHalf), (.unitChipselect v, s.cfg.unitBusHalf),
      (.unitCommandBit v, s.cfg.unitBusHalf), (.unitDataBit v, s.cfg.unitBusHalf), (.w16EebusHi v, .hi),
      (.w16EebusLo v, .lo)] →
    exec i s = .next t →
    (∀ r' h', (r', h') ≠ (RegName.eebus, h) → t.regs.half r' h' = s.regs.half r' h') ∧
    t.txPending = s.txPending ∧ t.rxPending = s.rxPending ∧ t.overlayDisabled = s.overlayDisabled ∧ t.fifo = s.fifo ∧
    t.dsp = s.dsp ∧ t.toc = s.toc ∧ t.pump = s.pump ∧ t.cart = s.cart ∧ t.result = s.result ∧ t.cfg = s.cfg ∧
    t.disc = s.disc ∧ (∀ sp k, sp ≠ .nvUnit → t.byteAt sp k = s.byteAt sp k) ∧
    (t.events = s.events → ∀ k, t.byteAt .nvUnit k = s.byteAt .nvUnit k)

/-! ## The whole machine -/

/-- R86: a persisted image of either engine holds word i in bytes 2i (bits 15:8) and 2i+1 (bits 7:0); and (R70, R99) a reset
loads back exactly the array that was persisted. -/
def Obligations.PersistedImageReloadsTheArray : Prop :=
  ∀ arr : Vector Half 64,
    (∀ i : Fin 64, ∀ sp, (sp = .nvCart ∨ sp = .nvUnit) →
      Memory.read sp (Memory.fill sp (imageBytes arr)) (2 * i.val) = (arr[i.val]).extractLsb' 8 8 ∧
      Memory.read sp (Memory.fill sp (imageBytes arr)) (2 * i.val + 1) = (arr[i.val]).extractLsb' 0 8) ∧
    (∀ s : State, s.nvCart = some (Memory.fill .nvCart (imageBytes arr)) →
      ∃ t, exec .reset s = .next t ∧ t.cart.arr = arr ∧ t.nvCart = s.nvCart) ∧
    (∀ s : State, s.nvUnit = some (Memory.fill .nvUnit (imageBytes arr)) →
      ∃ t, exec .reset s = .next t ∧ t.unit.arr = arr ∧ t.nvUnit = s.nvUnit)

/-- R31, R72 and R397 (decisions D6, D7, D21): over every operation, `tx_pending` and the overlay latch drop only at a reset, and
`rx_pending` only at a reset or at a read of `dsctrl.lo` with the queue empty. -/
def Obligations.LatchesDropOnlyWhereTheSpecSays : Prop :=
  ∀ (i : Instr) (s t : State), exec i s = .next t → i ≠ .reset →
    (s.txPending = true → t.txPending = true) ∧
    (s.overlayDisabled = true → t.overlayDisabled = true) ∧
    (s.rxPending = true → t.rxPending = false → i = .r16DsctrlLo ∧ s.fifo.rd = s.fifo.wr)

/-- R51 and R61 on the single operations: neither array changes but at a reset, by a clock or write of its own engine's rows; and
a single cartridge clock, or a single write of the lines, changes its array only while that engine's latch is set. -/
def Obligations.ArraysChangeOnlyUnderTheLatch : Prop :=
  ∀ (i : Instr) (s t : State), exec i s = .next t → i ≠ .reset →
    (t.cart.arr ≠ s.cart.arr → match i with
      | .cartClock _ => s.cart.wen = true
      | .cartUnexpectedClock _ => s.cart.wen = true
      | .cartEwds _ _ | .cartWral _ _ _ | .cartEral _ _ | .cartEwen _ _ | .cartWrite _ _ _ | .cartRead _ _
      | .cartErase _ _ => True
      | _ => False) ∧
    (t.unit.arr ≠ s.unit.arr → match i with
      | .unitLinesWrite _ | .unitChipselect _ | .unitCommandBit _ | .unitDataBit _ | .w16EebusHi _ | .w16EebusLo _ =>
        s.unit.wen = true
      | .unitEwds _ _ | .unitWral _ _ _ | .unitEral _ _ | .unitEwen _ _ | .unitWrite _ _ _ | .unitRead _ _
      | .unitErase _ _ | .unitMalformed _ _ => True
      | _ => False)

/-- R240, R343 and R344: an `AudioReady` is emitted by a tick and by nothing else, and by every tick. The trace itself, that no
operation removes an event and that a reset keeps it, is the model's choice (notes/assumptions/12.md), and so is that the
parameters are a record no operation changes (notes/assumptions/2.md). -/
def Obligations.TraceGrowsAndOnlyTicksSignalAudio : Prop :=
  ∀ (i : Instr) (s t : State), exec i s = .next t →
    t.cfg = s.cfg ∧ ∃ new, t.events = s.events ++ new ∧ (Event.audioReady ∈ new ↔ i = .pumpTick)

/-- R340, R375 and R231: an operation always completes under its premises, which are the refusals of R341: an enabling write has
the idempotent policy, a TOC command has an answer of the TOC reader, and a tick is enabled if and only if the pump is
armed. -/
def Obligations.EveryOperationCompletes : Prop :=
  ∀ (i : Instr) (s : State), s.Inv → s.cfg.pumpRearmWhileArmed = .idempotent →
    (∀ p, ∃ a, readShortToc s.cfg s.disc s.dsp.adapterOk p s.toc = .ok a) →
    (∀ p, ∃ a, readLongToc s.cfg s.disc s.dsp.adapterOk p s.toc = .ok a) →
    ((i = .pumpTick → s.pump.armed = true) → ∃ t, exec i s = .next t) ∧
    (s.pump.armed = false → exec .pumpTick s = .refused .tickNotArmed)

/-- R92 and R73: a step takes the next presented operation off the list, samples the mode register, decodes the access under the
configuration and the engines' phase, and runs it. -/
def Obligations.StepRunsThePresentedOperation : Prop :=
  ∀ (s : State) (inp : Input) (rest : List Input) (i : Instr),
    configOk s.cfg = true → s.inputs = inp :: rest → decode s.cfg s.phase inp.access = .ok i →
    step s = exec i { s with inputs := rest, modeReg := inp.modeReg }

/-- R90, R212, R341 and R406 (decisions D20, D25): a configuration R341 excludes has no steps; with nothing presented the
scheduled tick happens, and without one nothing does; an access the decoder rejects is refused: inside the window one of
another width or at an odd offset, and at or beyond the window's end every one. The order of presented operations and the idle
step are the model's choice (notes/assumptions/1.md), and so is that the last offset of an odd window is inside
(notes/assumptions/24.md). -/
def Obligations.StepsThatRunNoPresentedOperation : Prop :=
  ∀ s : State,
    (configOk s.cfg = false → step s = .refused .badConfiguration) ∧
    (configOk s.cfg = true → s.inputs = [] → s.pump.armed = true → step s = exec .pumpTick s) ∧
    (configOk s.cfg = true → s.inputs = [] → s.pump.armed = false → step s = .next s) ∧
    (∀ inp rest r, configOk s.cfg = true → s.inputs = inp :: rest → decode s.cfg s.phase inp.access = .error r →
      step s = .refused (refuseReject r)) ∧
    (∀ rest m head d dir w, configOk s.cfg = true → s.inputs = ⟨⟨.window dir w, head, d⟩, m⟩ :: rest →
      (s.cfg.butchWindow ≤ head.toNat % 2 ^ 16 → step s = .refused .outsideWindow) ∧
      (head.toNat % 2 ^ 16 < s.cfg.butchWindow → (w ≠ .w16 ∨ head.toNat % 2 = 1) →
        step s = .refused .unsupportedAccessWidth))

/-- Every step keeps the block's invariant: the byte stores canonical (so equal memories are equal data), the cursor at a pair
inside the audio part (R21, R41, R236), the counters of both engines in step with their states (R50, R60, R263, R301). -/
def Obligations.EveryStepKeepsTheInvariant : Prop :=
  ∀ s t : State, s.Inv → step s = .next t → t.Inv

/-- The decoder reads back every well-formed operation from its encoding, under every configuration and in every phase, with
every operand at every value (R102 to R113). -/
def Obligations.DecodingInvertsEncoding : Prop :=
  ∀ (c : Config) (ph : Phase) (i : Instr), i.wf c ph = true → decode c ph (encode c i) = .ok i

/-- Words of the spec's tables, written out bit by bit (R102, R104, R107, R109, R110, R111), with the default parameters; and, for
every configuration, the bus addresses (R81, R82, R111, decisions D3, D28): an access at `BUTCH_BASE` + off, off inside the
window, is the window access at off; a read or write of `CART_PORT_CS` is a chip-select, a read of `CART_PORT_DO` a query and a
write of `CART_PORT_DI` a clock with bit 0 of the value; any other address is not this block's (R4 item b). Where the parameters put
a port inside the window, or `CART_PORT_CS` at the address of a data port, R81 and R111 give no priority: that the window clause
and the `CART_PORT_CS` clause hold there too, the window first and then `CART_PORT_CS`, is the model's choice
(notes/assumptions/23.md, DESIGN CHOICE), and so is that a bus address has 32 bits (notes/assumptions/25.md, DESIGN CHOICE).
That they are taken at every width, as the
8-bit write at 0xF14801, is the model's reading (notes/assumptions/16.md, DEDUCED), and so is that a clock in `READ_OUT` or
`BUSY` is the row CART.UNEXPECTED_CLOCK (notes/assumptions/21.md, DEDUCED). -/
def Obligations.TableWordsDecodeToTheirRows : Prop :=
  decode Config.default Phase.idle ⟨.window .read .w16, 0b00000110, 0⟩ = .ok .r16DsctrlLo ∧
  decode Config.default Phase.idle ⟨.window .write .w16, 0b00010010, 0x0007⟩ = .ok (.w16I2cntrlLo 0x0007) ∧
  decode Config.default Phase.idle ⟨.dsa, 0b0001010100000011, 0⟩ = .ok (.dsaSetMode 0x03) ∧
  decode Config.default Phase.idle ⟨.cartFrame, 0b101000101, 0x1234⟩ = .ok (.cartWrite true 5 0x1234) ∧
  decode Config.default Phase.idle ⟨.cartFrame, 0b100100000, 0⟩ = .ok (.cartEral true 0) ∧
  decode Config.default Phase.idle ⟨.unitPacket, 0b100110000, 0⟩ = .ok (.unitEwen true 0) ∧
  decode Config.default Phase.idle ⟨.unitPacket, 0b010000101, 0⟩ = .ok (.unitMalformed 2 5) ∧
  decode Config.default Phase.idle ⟨.linesWrite, 0b001, 0⟩ = .ok (.unitChipselect 1) ∧
  decode Config.default Phase.idle ⟨.system .write .w8, 0xF14801, 1⟩ = .ok (.cartClock true) ∧
  decode Config.default Phase.idle ⟨.timer, 0, 0⟩ = .ok .pumpTick ∧
  ∀ (c : Config) (ph : Phase) (width : Width) (v : Half),
    (∀ (dir : Dir) (off : Nat), off < c.butchWindow → off < 2 ^ 16 → c.butchBase + off < 2 ^ 32 →
      decode c ph ⟨.system dir width, BitVec.ofNat 32 (c.butchBase + off), v⟩ =
        decode c ph ⟨.window dir width, BitVec.ofNat 32 off, v⟩) ∧
    ∀ a : BitVec 32, ¬ (c.butchBase ≤ a.toNat ∧ a.toNat < c.butchBase + c.butchWindow) →
      (∀ dir, a.toNat = c.cartPortCs → decode c ph ⟨.system dir width, a, v⟩ = .ok .cartChipselect) ∧
      (a.toNat ≠ c.cartPortCs →
        (a.toNat = c.cartPortDo → decode c ph ⟨.system .read width, a, v⟩ = .ok .cartReaddo) ∧
        (a.toNat ≠ c.cartPortDo → decode c ph ⟨.system .read width, a, v⟩ = .error .notAddressed) ∧
        (a.toNat = c.cartPortDi → decode c ph ⟨.system .write width, a, v⟩ =
          .ok (if ph.cartStalled = true then .cartUnexpectedClock (v.getLsbD 0) else .cartClock (v.getLsbD 0))) ∧
        (a.toNat ≠ c.cartPortDi → decode c ph ⟨.system .write width, a, v⟩ = .error .notAddressed))

end Statements
end

