-- ==== Sys2Proof/Laws/State.lean ====
section
/-! SUPPORT. What each update of the state leaves of each field: one lemma for each field and update. -/

namespace Sys2Proof.Machine

-- One declaration after the other: the package as one text stays within its threads.
set_option Elab.async false

/-! ## storeHalf -/

@[simp] theorem storeHalf_regs (r : RegName) (h : RegHalf) (v : Half) (s : State) : (storeHalf r h v s).regs = s.regs.setHalf r h v := rfl

@[simp] theorem storeHalf_txPending (r : RegName) (h : RegHalf) (v : Half) (s : State) : (storeHalf r h v s).txPending = s.txPending := rfl

@[simp] theorem storeHalf_rxPending (r : RegName) (h : RegHalf) (v : Half) (s : State) : (storeHalf r h v s).rxPending = s.rxPending := rfl

@[simp] theorem storeHalf_overlayDisabled (r : RegName) (h : RegHalf) (v : Half) (s : State) : (storeHalf r h v s).overlayDisabled = s.overlayDisabled := rfl

@[simp] theorem storeHalf_fifo (r : RegName) (h : RegHalf) (v : Half) (s : State) : (storeHalf r h v s).fifo = s.fifo := rfl

@[simp] theorem storeHalf_dsp (r : RegName) (h : RegHalf) (v : Half) (s : State) : (storeHalf r h v s).dsp = s.dsp := rfl

@[simp] theorem storeHalf_toc (r : RegName) (h : RegHalf) (v : Half) (s : State) : (storeHalf r h v s).toc = s.toc := rfl

@[simp] theorem storeHalf_pump (r : RegName) (h : RegHalf) (v : Half) (s : State) : (storeHalf r h v s).pump = s.pump := rfl

@[simp] theorem storeHalf_cart (r : RegName) (h : RegHalf) (v : Half) (s : State) : (storeHalf r h v s).cart = s.cart := rfl

@[simp] theorem storeHalf_unit (r : RegName) (h : RegHalf) (v : Half) (s : State) : (storeHalf r h v s).unit = s.unit := rfl

@[simp] theorem storeHalf_nvCart (r : RegName) (h : RegHalf) (v : Half) (s : State) : (storeHalf r h v s).nvCart = s.nvCart := rfl

@[simp] theorem storeHalf_nvUnit (r : RegName) (h : RegHalf) (v : Half) (s : State) : (storeHalf r h v s).nvUnit = s.nvUnit := rfl

@[simp] theorem storeHalf_events (r : RegName) (h : RegHalf) (v : Half) (s : State) : (storeHalf r h v s).events = s.events := rfl

@[simp] theorem storeHalf_result (r : RegName) (h : RegHalf) (v : Half) (s : State) : (storeHalf r h v s).result = s.result := rfl

@[simp] theorem storeHalf_cfg (r : RegName) (h : RegHalf) (v : Half) (s : State) : (storeHalf r h v s).cfg = s.cfg := rfl

@[simp] theorem storeHalf_disc (r : RegName) (h : RegHalf) (v : Half) (s : State) : (storeHalf r h v s).disc = s.disc := rfl

@[simp] theorem storeHalf_nextDiscs (r : RegName) (h : RegHalf) (v : Half) (s : State) : (storeHalf r h v s).nextDiscs = s.nextDiscs := rfl

@[simp] theorem storeHalf_modeReg (r : RegName) (h : RegHalf) (v : Half) (s : State) : (storeHalf r h v s).modeReg = s.modeReg := rfl

@[simp] theorem storeHalf_inputs (r : RegName) (h : RegHalf) (v : Half) (s : State) : (storeHalf r h v s).inputs = s.inputs := rfl

@[simp] theorem storeHalf_draws (r : RegName) (h : RegHalf) (v : Half) (s : State) : (storeHalf r h v s).draws = s.draws := rfl

/-! ## setTxPending -/

@[simp] theorem setTxPending_regs (s : State) : (setTxPending s).regs = s.regs := rfl

@[simp] theorem setTxPending_txPending (s : State) : (setTxPending s).txPending = true := rfl

@[simp] theorem setTxPending_rxPending (s : State) : (setTxPending s).rxPending = s.rxPending := rfl

@[simp] theorem setTxPending_overlayDisabled (s : State) : (setTxPending s).overlayDisabled = s.overlayDisabled := rfl

@[simp] theorem setTxPending_fifo (s : State) : (setTxPending s).fifo = s.fifo := rfl

@[simp] theorem setTxPending_dsp (s : State) : (setTxPending s).dsp = s.dsp := rfl

@[simp] theorem setTxPending_toc (s : State) : (setTxPending s).toc = s.toc := rfl

@[simp] theorem setTxPending_pump (s : State) : (setTxPending s).pump = s.pump := rfl

@[simp] theorem setTxPending_cart (s : State) : (setTxPending s).cart = s.cart := rfl

@[simp] theorem setTxPending_unit (s : State) : (setTxPending s).unit = s.unit := rfl

@[simp] theorem setTxPending_nvCart (s : State) : (setTxPending s).nvCart = s.nvCart := rfl

@[simp] theorem setTxPending_nvUnit (s : State) : (setTxPending s).nvUnit = s.nvUnit := rfl

@[simp] theorem setTxPending_events (s : State) : (setTxPending s).events = s.events := rfl

@[simp] theorem setTxPending_result (s : State) : (setTxPending s).result = s.result := rfl

@[simp] theorem setTxPending_cfg (s : State) : (setTxPending s).cfg = s.cfg := rfl

@[simp] theorem setTxPending_disc (s : State) : (setTxPending s).disc = s.disc := rfl

@[simp] theorem setTxPending_nextDiscs (s : State) : (setTxPending s).nextDiscs = s.nextDiscs := rfl

@[simp] theorem setTxPending_modeReg (s : State) : (setTxPending s).modeReg = s.modeReg := rfl

@[simp] theorem setTxPending_inputs (s : State) : (setTxPending s).inputs = s.inputs := rfl

@[simp] theorem setTxPending_draws (s : State) : (setTxPending s).draws = s.draws := rfl

/-! ## emit -/

@[simp] theorem emit_regs (e : Event) (s : State) : (emit e s).regs = s.regs := rfl

@[simp] theorem emit_txPending (e : Event) (s : State) : (emit e s).txPending = s.txPending := rfl

@[simp] theorem emit_rxPending (e : Event) (s : State) : (emit e s).rxPending = s.rxPending := rfl

@[simp] theorem emit_overlayDisabled (e : Event) (s : State) : (emit e s).overlayDisabled = s.overlayDisabled := rfl

@[simp] theorem emit_fifo (e : Event) (s : State) : (emit e s).fifo = s.fifo := rfl

@[simp] theorem emit_dsp (e : Event) (s : State) : (emit e s).dsp = s.dsp := rfl

@[simp] theorem emit_toc (e : Event) (s : State) : (emit e s).toc = s.toc := rfl

@[simp] theorem emit_pump (e : Event) (s : State) : (emit e s).pump = s.pump := rfl

@[simp] theorem emit_cart (e : Event) (s : State) : (emit e s).cart = s.cart := rfl

@[simp] theorem emit_unit (e : Event) (s : State) : (emit e s).unit = s.unit := rfl

@[simp] theorem emit_nvCart (e : Event) (s : State) : (emit e s).nvCart = s.nvCart := rfl

@[simp] theorem emit_nvUnit (e : Event) (s : State) : (emit e s).nvUnit = s.nvUnit := rfl

@[simp] theorem emit_events (e : Event) (s : State) : (emit e s).events = s.events ++ [e] := rfl

@[simp] theorem emit_result (e : Event) (s : State) : (emit e s).result = s.result := rfl

@[simp] theorem emit_cfg (e : Event) (s : State) : (emit e s).cfg = s.cfg := rfl

@[simp] theorem emit_disc (e : Event) (s : State) : (emit e s).disc = s.disc := rfl

@[simp] theorem emit_nextDiscs (e : Event) (s : State) : (emit e s).nextDiscs = s.nextDiscs := rfl

@[simp] theorem emit_modeReg (e : Event) (s : State) : (emit e s).modeReg = s.modeReg := rfl

@[simp] theorem emit_inputs (e : Event) (s : State) : (emit e s).inputs = s.inputs := rfl

@[simp] theorem emit_draws (e : Event) (s : State) : (emit e s).draws = s.draws := rfl

/-! ## persistCart -/

@[simp] theorem persistCart_regs (s : State) : (persistCart s).regs = s.regs := rfl

@[simp] theorem persistCart_txPending (s : State) : (persistCart s).txPending = s.txPending := rfl

@[simp] theorem persistCart_rxPending (s : State) : (persistCart s).rxPending = s.rxPending := rfl

@[simp] theorem persistCart_overlayDisabled (s : State) : (persistCart s).overlayDisabled = s.overlayDisabled := rfl

@[simp] theorem persistCart_fifo (s : State) : (persistCart s).fifo = s.fifo := rfl

@[simp] theorem persistCart_dsp (s : State) : (persistCart s).dsp = s.dsp := rfl

@[simp] theorem persistCart_toc (s : State) : (persistCart s).toc = s.toc := rfl

@[simp] theorem persistCart_pump (s : State) : (persistCart s).pump = s.pump := rfl

@[simp] theorem persistCart_cart (s : State) : (persistCart s).cart = s.cart := rfl

@[simp] theorem persistCart_unit (s : State) : (persistCart s).unit = s.unit := rfl

@[simp] theorem persistCart_nvCart (s : State) : (persistCart s).nvCart = some (Memory.fill .nvCart (imageBytes s.cart.arr)) := rfl

@[simp] theorem persistCart_nvUnit (s : State) : (persistCart s).nvUnit = s.nvUnit := rfl

@[simp] theorem persistCart_events (s : State) : (persistCart s).events = s.events ++ [.persist .cart (Memory.fill .nvCart (imageBytes s.cart.arr))] := rfl

@[simp] theorem persistCart_result (s : State) : (persistCart s).result = s.result := rfl

@[simp] theorem persistCart_cfg (s : State) : (persistCart s).cfg = s.cfg := rfl

@[simp] theorem persistCart_disc (s : State) : (persistCart s).disc = s.disc := rfl

@[simp] theorem persistCart_nextDiscs (s : State) : (persistCart s).nextDiscs = s.nextDiscs := rfl

@[simp] theorem persistCart_modeReg (s : State) : (persistCart s).modeReg = s.modeReg := rfl

@[simp] theorem persistCart_inputs (s : State) : (persistCart s).inputs = s.inputs := rfl

@[simp] theorem persistCart_draws (s : State) : (persistCart s).draws = s.draws := rfl

/-! ## persistUnit -/

@[simp] theorem persistUnit_regs (s : State) : (persistUnit s).regs = s.regs := rfl

@[simp] theorem persistUnit_txPending (s : State) : (persistUnit s).txPending = s.txPending := rfl

@[simp] theorem persistUnit_rxPending (s : State) : (persistUnit s).rxPending = s.rxPending := rfl

@[simp] theorem persistUnit_overlayDisabled (s : State) : (persistUnit s).overlayDisabled = s.overlayDisabled := rfl

@[simp] theorem persistUnit_fifo (s : State) : (persistUnit s).fifo = s.fifo := rfl

@[simp] theorem persistUnit_dsp (s : State) : (persistUnit s).dsp = s.dsp := rfl

@[simp] theorem persistUnit_toc (s : State) : (persistUnit s).toc = s.toc := rfl

@[simp] theorem persistUnit_pump (s : State) : (persistUnit s).pump = s.pump := rfl

@[simp] theorem persistUnit_cart (s : State) : (persistUnit s).cart = s.cart := rfl

@[simp] theorem persistUnit_unit (s : State) : (persistUnit s).unit = s.unit := rfl

@[simp] theorem persistUnit_nvCart (s : State) : (persistUnit s).nvCart = s.nvCart := rfl

@[simp] theorem persistUnit_nvUnit (s : State) : (persistUnit s).nvUnit = some (Memory.fill .nvUnit (imageBytes s.unit.arr)) := rfl

@[simp] theorem persistUnit_events (s : State) : (persistUnit s).events = s.events ++ [.persist .unit (Memory.fill .nvUnit (imageBytes s.unit.arr))] := rfl

@[simp] theorem persistUnit_result (s : State) : (persistUnit s).result = s.result := rfl

@[simp] theorem persistUnit_cfg (s : State) : (persistUnit s).cfg = s.cfg := rfl

@[simp] theorem persistUnit_disc (s : State) : (persistUnit s).disc = s.disc := rfl

@[simp] theorem persistUnit_nextDiscs (s : State) : (persistUnit s).nextDiscs = s.nextDiscs := rfl

@[simp] theorem persistUnit_modeReg (s : State) : (persistUnit s).modeReg = s.modeReg := rfl

@[simp] theorem persistUnit_inputs (s : State) : (persistUnit s).inputs = s.inputs := rfl

@[simp] theorem persistUnit_draws (s : State) : (persistUnit s).draws = s.draws := rfl

/-! ## schedule -/

@[simp] theorem schedule_regs (s : State) : (schedule s).regs = s.regs := rfl

@[simp] theorem schedule_txPending (s : State) : (schedule s).txPending = s.txPending := rfl

@[simp] theorem schedule_rxPending (s : State) : (schedule s).rxPending = s.rxPending := rfl

@[simp] theorem schedule_overlayDisabled (s : State) : (schedule s).overlayDisabled = s.overlayDisabled := rfl

@[simp] theorem schedule_fifo (s : State) : (schedule s).fifo = s.fifo := rfl

@[simp] theorem schedule_dsp (s : State) : (schedule s).dsp = s.dsp := rfl

@[simp] theorem schedule_toc (s : State) : (schedule s).toc = s.toc := rfl

@[simp] theorem schedule_pump (s : State) : (schedule s).pump = { s.pump with armed := true, periodUs := periodOf s.pump.rate } := rfl

@[simp] theorem schedule_cart (s : State) : (schedule s).cart = s.cart := rfl

@[simp] theorem schedule_unit (s : State) : (schedule s).unit = s.unit := rfl

@[simp] theorem schedule_nvCart (s : State) : (schedule s).nvCart = s.nvCart := rfl

@[simp] theorem schedule_nvUnit (s : State) : (schedule s).nvUnit = s.nvUnit := rfl

@[simp] theorem schedule_events (s : State) : (schedule s).events = s.events := rfl

@[simp] theorem schedule_result (s : State) : (schedule s).result = s.result := rfl

@[simp] theorem schedule_cfg (s : State) : (schedule s).cfg = s.cfg := rfl

@[simp] theorem schedule_disc (s : State) : (schedule s).disc = s.disc := rfl

@[simp] theorem schedule_nextDiscs (s : State) : (schedule s).nextDiscs = s.nextDiscs := rfl

@[simp] theorem schedule_modeReg (s : State) : (schedule s).modeReg = s.modeReg := rfl

@[simp] theorem schedule_inputs (s : State) : (schedule s).inputs = s.inputs := rfl

@[simp] theorem schedule_draws (s : State) : (schedule s).draws = s.draws := rfl

/-! ## exposePair -/

@[simp] theorem exposePair_regs (l r : Half) (s : State) : (exposePair l r s).regs = s.regs := rfl

@[simp] theorem exposePair_txPending (l r : Half) (s : State) : (exposePair l r s).txPending = s.txPending := rfl

@[simp] theorem exposePair_rxPending (l r : Half) (s : State) : (exposePair l r s).rxPending = s.rxPending := rfl

@[simp] theorem exposePair_overlayDisabled (l r : Half) (s : State) : (exposePair l r s).overlayDisabled = s.overlayDisabled := rfl

@[simp] theorem exposePair_fifo (l r : Half) (s : State) : (exposePair l r s).fifo = s.fifo := rfl

@[simp] theorem exposePair_dsp (l r : Half) (s : State) : (exposePair l r s).dsp = s.dsp := rfl

@[simp] theorem exposePair_toc (l r : Half) (s : State) : (exposePair l r s).toc = s.toc := rfl

@[simp] theorem exposePair_pump (l r : Half) (s : State) : (exposePair l r s).pump = { s.pump with
        outLeft := l
        outRight := if wsFalling s then s.pump.prevRight else r
        prevRight := r } := rfl

@[simp] theorem exposePair_cart (l r : Half) (s : State) : (exposePair l r s).cart = s.cart := rfl

@[simp] theorem exposePair_unit (l r : Half) (s : State) : (exposePair l r s).unit = s.unit := rfl

@[simp] theorem exposePair_nvCart (l r : Half) (s : State) : (exposePair l r s).nvCart = s.nvCart := rfl

@[simp] theorem exposePair_nvUnit (l r : Half) (s : State) : (exposePair l r s).nvUnit = s.nvUnit := rfl

@[simp] theorem exposePair_events (l r : Half) (s : State) : (exposePair l r s).events = s.events := rfl

@[simp] theorem exposePair_result (l r : Half) (s : State) : (exposePair l r s).result = s.result := rfl

@[simp] theorem exposePair_cfg (l r : Half) (s : State) : (exposePair l r s).cfg = s.cfg := rfl

@[simp] theorem exposePair_disc (l r : Half) (s : State) : (exposePair l r s).disc = s.disc := rfl

@[simp] theorem exposePair_nextDiscs (l r : Half) (s : State) : (exposePair l r s).nextDiscs = s.nextDiscs := rfl

@[simp] theorem exposePair_modeReg (l r : Half) (s : State) : (exposePair l r s).modeReg = s.modeReg := rfl

@[simp] theorem exposePair_inputs (l r : Half) (s : State) : (exposePair l r s).inputs = s.inputs := rfl

@[simp] theorem exposePair_draws (l r : Half) (s : State) : (exposePair l r s).draws = s.draws := rfl

/-! ## whenConfigured -/

@[simp] theorem whenConfigured_ok {c : Config} (h : configOk c = true) (o : Res) : whenConfigured c o = o := by
  simp [whenConfigured, h]

@[simp] theorem whenConfigured_bad {c : Config} (h : configOk c = false) (o : Res) :
    whenConfigured c o = .refused .badConfiguration := by
  simp [whenConfigured, h]

theorem whenConfigured_next {c : Config} {o : Res} {t : State} (h : whenConfigured c o = .next t) : o = .next t := by
  cases hc : configOk c <;> simp_all

/-! ## takeInput -/

@[simp] theorem takeInput_regs (inp : Input) (rest : List Input) (s : State) : (takeInput inp rest s).regs = s.regs := rfl

@[simp] theorem takeInput_txPending (inp : Input) (rest : List Input) (s : State) : (takeInput inp rest s).txPending = s.txPending := rfl

@[simp] theorem takeInput_rxPending (inp : Input) (rest : List Input) (s : State) : (takeInput inp rest s).rxPending = s.rxPending := rfl

@[simp] theorem takeInput_overlayDisabled (inp : Input) (rest : List Input) (s : State) : (takeInput inp rest s).overlayDisabled = s.overlayDisabled := rfl

@[simp] theorem takeInput_fifo (inp : Input) (rest : List Input) (s : State) : (takeInput inp rest s).fifo = s.fifo := rfl

@[simp] theorem takeInput_dsp (inp : Input) (rest : List Input) (s : State) : (takeInput inp rest s).dsp = s.dsp := rfl

@[simp] theorem takeInput_toc (inp : Input) (rest : List Input) (s : State) : (takeInput inp rest s).toc = s.toc := rfl

@[simp] theorem takeInput_pump (inp : Input) (rest : List Input) (s : State) : (takeInput inp rest s).pump = s.pump := rfl

@[simp] theorem takeInput_cart (inp : Input) (rest : List Input) (s : State) : (takeInput inp rest s).cart = s.cart := rfl

@[simp] theorem takeInput_unit (inp : Input) (rest : List Input) (s : State) : (takeInput inp rest s).unit = s.unit := rfl

@[simp] theorem takeInput_nvCart (inp : Input) (rest : List Input) (s : State) : (takeInput inp rest s).nvCart = s.nvCart := rfl

@[simp] theorem takeInput_nvUnit (inp : Input) (rest : List Input) (s : State) : (takeInput inp rest s).nvUnit = s.nvUnit := rfl

@[simp] theorem takeInput_events (inp : Input) (rest : List Input) (s : State) : (takeInput inp rest s).events = s.events := rfl

@[simp] theorem takeInput_result (inp : Input) (rest : List Input) (s : State) : (takeInput inp rest s).result = s.result := rfl

@[simp] theorem takeInput_cfg (inp : Input) (rest : List Input) (s : State) : (takeInput inp rest s).cfg = s.cfg := rfl

@[simp] theorem takeInput_disc (inp : Input) (rest : List Input) (s : State) : (takeInput inp rest s).disc = s.disc := rfl

@[simp] theorem takeInput_nextDiscs (inp : Input) (rest : List Input) (s : State) : (takeInput inp rest s).nextDiscs = s.nextDiscs := rfl

@[simp] theorem takeInput_modeReg (inp : Input) (rest : List Input) (s : State) : (takeInput inp rest s).modeReg = inp.modeReg := rfl

@[simp] theorem takeInput_inputs (inp : Input) (rest : List Input) (s : State) : (takeInput inp rest s).inputs = rest := rfl

@[simp] theorem takeInput_draws (inp : Input) (rest : List Input) (s : State) : (takeInput inp rest s).draws = s.draws := rfl

/-! ## enqueue -/

@[simp] theorem enqueue_regs (w : Half) (s : State) : (enqueue w s).regs = s.regs := by
  unfold enqueue; split <;> rfl

@[simp] theorem enqueue_txPending (w : Half) (s : State) : (enqueue w s).txPending = s.txPending := by
  unfold enqueue; split <;> rfl

@[simp] theorem enqueue_overlayDisabled (w : Half) (s : State) : (enqueue w s).overlayDisabled = s.overlayDisabled := by
  unfold enqueue; split <;> rfl

@[simp] theorem enqueue_dsp (w : Half) (s : State) : (enqueue w s).dsp = s.dsp := by
  unfold enqueue; split <;> rfl

@[simp] theorem enqueue_toc (w : Half) (s : State) : (enqueue w s).toc = s.toc := by
  unfold enqueue; split <;> rfl

@[simp] theorem enqueue_pump (w : Half) (s : State) : (enqueue w s).pump = s.pump := by
  unfold enqueue; split <;> rfl

@[simp] theorem enqueue_cart (w : Half) (s : State) : (enqueue w s).cart = s.cart := by
  unfold enqueue; split <;> rfl

@[simp] theorem enqueue_unit (w : Half) (s : State) : (enqueue w s).unit = s.unit := by
  unfold enqueue; split <;> rfl

@[simp] theorem enqueue_nvCart (w : Half) (s : State) : (enqueue w s).nvCart = s.nvCart := by
  unfold enqueue; split <;> rfl

@[simp] theorem enqueue_nvUnit (w : Half) (s : State) : (enqueue w s).nvUnit = s.nvUnit := by
  unfold enqueue; split <;> rfl

@[simp] theorem enqueue_events (w : Half) (s : State) : (enqueue w s).events = s.events := by
  unfold enqueue; split <;> rfl

@[simp] theorem enqueue_result (w : Half) (s : State) : (enqueue w s).result = s.result := by
  unfold enqueue; split <;> rfl

@[simp] theorem enqueue_cfg (w : Half) (s : State) : (enqueue w s).cfg = s.cfg := by
  unfold enqueue; split <;> rfl

@[simp] theorem enqueue_disc (w : Half) (s : State) : (enqueue w s).disc = s.disc := by
  unfold enqueue; split <;> rfl

@[simp] theorem enqueue_nextDiscs (w : Half) (s : State) : (enqueue w s).nextDiscs = s.nextDiscs := by
  unfold enqueue; split <;> rfl

@[simp] theorem enqueue_modeReg (w : Half) (s : State) : (enqueue w s).modeReg = s.modeReg := by
  unfold enqueue; split <;> rfl

@[simp] theorem enqueue_inputs (w : Half) (s : State) : (enqueue w s).inputs = s.inputs := by
  unfold enqueue; split <;> rfl

@[simp] theorem enqueue_draws (w : Half) (s : State) : (enqueue w s).draws = s.draws := by
  unfold enqueue; split <;> rfl

/-! ## enqueueAll -/

@[simp] theorem enqueueAll_regs (ws : List Half) (s : State) : (enqueueAll ws s).regs = s.regs := by
  unfold enqueueAll; induction ws generalizing s <;> simp_all

@[simp] theorem enqueueAll_txPending (ws : List Half) (s : State) : (enqueueAll ws s).txPending = s.txPending := by
  unfold enqueueAll; induction ws generalizing s <;> simp_all

@[simp] theorem enqueueAll_overlayDisabled (ws : List Half) (s : State) : (enqueueAll ws s).overlayDisabled = s.overlayDisabled := by
  unfold enqueueAll; induction ws generalizing s <;> simp_all

@[simp] theorem enqueueAll_dsp (ws : List Half) (s : State) : (enqueueAll ws s).dsp = s.dsp := by
  unfold enqueueAll; induction ws generalizing s <;> simp_all

@[simp] theorem enqueueAll_toc (ws : List Half) (s : State) : (enqueueAll ws s).toc = s.toc := by
  unfold enqueueAll; induction ws generalizing s <;> simp_all

@[simp] theorem enqueueAll_pump (ws : List Half) (s : State) : (enqueueAll ws s).pump = s.pump := by
  unfold enqueueAll; induction ws generalizing s <;> simp_all

@[simp] theorem enqueueAll_cart (ws : List Half) (s : State) : (enqueueAll ws s).cart = s.cart := by
  unfold enqueueAll; induction ws generalizing s <;> simp_all

@[simp] theorem enqueueAll_unit (ws : List Half) (s : State) : (enqueueAll ws s).unit = s.unit := by
  unfold enqueueAll; induction ws generalizing s <;> simp_all

@[simp] theorem enqueueAll_nvCart (ws : List Half) (s : State) : (enqueueAll ws s).nvCart = s.nvCart := by
  unfold enqueueAll; induction ws generalizing s <;> simp_all

@[simp] theorem enqueueAll_nvUnit (ws : List Half) (s : State) : (enqueueAll ws s).nvUnit = s.nvUnit := by
  unfold enqueueAll; induction ws generalizing s <;> simp_all

@[simp] theorem enqueueAll_events (ws : List Half) (s : State) : (enqueueAll ws s).events = s.events := by
  unfold enqueueAll; induction ws generalizing s <;> simp_all

@[simp] theorem enqueueAll_result (ws : List Half) (s : State) : (enqueueAll ws s).result = s.result := by
  unfold enqueueAll; induction ws generalizing s <;> simp_all

@[simp] theorem enqueueAll_cfg (ws : List Half) (s : State) : (enqueueAll ws s).cfg = s.cfg := by
  unfold enqueueAll; induction ws generalizing s <;> simp_all

@[simp] theorem enqueueAll_disc (ws : List Half) (s : State) : (enqueueAll ws s).disc = s.disc := by
  unfold enqueueAll; induction ws generalizing s <;> simp_all

@[simp] theorem enqueueAll_nextDiscs (ws : List Half) (s : State) : (enqueueAll ws s).nextDiscs = s.nextDiscs := by
  unfold enqueueAll; induction ws generalizing s <;> simp_all

@[simp] theorem enqueueAll_modeReg (ws : List Half) (s : State) : (enqueueAll ws s).modeReg = s.modeReg := by
  unfold enqueueAll; induction ws generalizing s <;> simp_all

@[simp] theorem enqueueAll_inputs (ws : List Half) (s : State) : (enqueueAll ws s).inputs = s.inputs := by
  unfold enqueueAll; induction ws generalizing s <;> simp_all

@[simp] theorem enqueueAll_draws (ws : List Half) (s : State) : (enqueueAll ws s).draws = s.draws := by
  unfold enqueueAll; induction ws generalizing s <;> simp_all

/-! ## rearm -/

@[simp] theorem rearm_regs (s : State) : (rearm s).regs = s.regs := by
  unfold rearm; split <;> rfl

@[simp] theorem rearm_txPending (s : State) : (rearm s).txPending = s.txPending := by
  unfold rearm; split <;> rfl

@[simp] theorem rearm_rxPending (s : State) : (rearm s).rxPending = s.rxPending := by
  unfold rearm; split <;> rfl

@[simp] theorem rearm_overlayDisabled (s : State) : (rearm s).overlayDisabled = s.overlayDisabled := by
  unfold rearm; split <;> rfl

@[simp] theorem rearm_fifo (s : State) : (rearm s).fifo = s.fifo := by
  unfold rearm; split <;> rfl

@[simp] theorem rearm_dsp (s : State) : (rearm s).dsp = s.dsp := by
  unfold rearm; split <;> rfl

@[simp] theorem rearm_toc (s : State) : (rearm s).toc = s.toc := by
  unfold rearm; split <;> rfl

@[simp] theorem rearm_cart (s : State) : (rearm s).cart = s.cart := by
  unfold rearm; split <;> rfl

@[simp] theorem rearm_unit (s : State) : (rearm s).unit = s.unit := by
  unfold rearm; split <;> rfl

@[simp] theorem rearm_nvCart (s : State) : (rearm s).nvCart = s.nvCart := by
  unfold rearm; split <;> rfl

@[simp] theorem rearm_nvUnit (s : State) : (rearm s).nvUnit = s.nvUnit := by
  unfold rearm; split <;> rfl

@[simp] theorem rearm_events (s : State) : (rearm s).events = s.events := by
  unfold rearm; split <;> rfl

@[simp] theorem rearm_result (s : State) : (rearm s).result = s.result := by
  unfold rearm; split <;> rfl

@[simp] theorem rearm_cfg (s : State) : (rearm s).cfg = s.cfg := by
  unfold rearm; split <;> rfl

@[simp] theorem rearm_disc (s : State) : (rearm s).disc = s.disc := by
  unfold rearm; split <;> rfl

@[simp] theorem rearm_nextDiscs (s : State) : (rearm s).nextDiscs = s.nextDiscs := by
  unfold rearm; split <;> rfl

@[simp] theorem rearm_modeReg (s : State) : (rearm s).modeReg = s.modeReg := by
  unfold rearm; split <;> rfl

@[simp] theorem rearm_inputs (s : State) : (rearm s).inputs = s.inputs := by
  unfold rearm; split <;> rfl

@[simp] theorem rearm_draws (s : State) : (rearm s).draws = s.draws := by
  unfold rearm; split <;> rfl

/-! ## overlayHook -/

@[simp] theorem overlayHook_regs (s : State) : (overlayHook s).regs = s.regs := by
  unfold overlayHook; split <;> rfl

@[simp] theorem overlayHook_txPending (s : State) : (overlayHook s).txPending = s.txPending := by
  unfold overlayHook; split <;> rfl

@[simp] theorem overlayHook_rxPending (s : State) : (overlayHook s).rxPending = s.rxPending := by
  unfold overlayHook; split <;> rfl

@[simp] theorem overlayHook_fifo (s : State) : (overlayHook s).fifo = s.fifo := by
  unfold overlayHook; split <;> rfl

@[simp] theorem overlayHook_dsp (s : State) : (overlayHook s).dsp = s.dsp := by
  unfold overlayHook; split <;> rfl

@[simp] theorem overlayHook_toc (s : State) : (overlayHook s).toc = s.toc := by
  unfold overlayHook; split <;> rfl

@[simp] theorem overlayHook_pump (s : State) : (overlayHook s).pump = s.pump := by
  unfold overlayHook; split <;> rfl

@[simp] theorem overlayHook_cart (s : State) : (overlayHook s).cart = s.cart := by
  unfold overlayHook; split <;> rfl

@[simp] theorem overlayHook_unit (s : State) : (overlayHook s).unit = s.unit := by
  unfold overlayHook; split <;> rfl

@[simp] theorem overlayHook_nvCart (s : State) : (overlayHook s).nvCart = s.nvCart := by
  unfold overlayHook; split <;> rfl

@[simp] theorem overlayHook_nvUnit (s : State) : (overlayHook s).nvUnit = s.nvUnit := by
  unfold overlayHook; split <;> rfl

@[simp] theorem overlayHook_result (s : State) : (overlayHook s).result = s.result := by
  unfold overlayHook; split <;> rfl

@[simp] theorem overlayHook_cfg (s : State) : (overlayHook s).cfg = s.cfg := by
  unfold overlayHook; split <;> rfl

@[simp] theorem overlayHook_disc (s : State) : (overlayHook s).disc = s.disc := by
  unfold overlayHook; split <;> rfl

@[simp] theorem overlayHook_nextDiscs (s : State) : (overlayHook s).nextDiscs = s.nextDiscs := by
  unfold overlayHook; split <;> rfl

@[simp] theorem overlayHook_modeReg (s : State) : (overlayHook s).modeReg = s.modeReg := by
  unfold overlayHook; split <;> rfl

@[simp] theorem overlayHook_inputs (s : State) : (overlayHook s).inputs = s.inputs := by
  unfold overlayHook; split <;> rfl

@[simp] theorem overlayHook_draws (s : State) : (overlayHook s).draws = s.draws := by
  unfold overlayHook; split <;> rfl

/-! ## reload -/

@[simp] theorem reload_regs (s : State) : (reload s).regs = s.regs := by
  unfold reload; split
  · split <;> rfl
  · rfl

@[simp] theorem reload_txPending (s : State) : (reload s).txPending = s.txPending := by
  unfold reload; split
  · split <;> rfl
  · rfl

@[simp] theorem reload_rxPending (s : State) : (reload s).rxPending = s.rxPending := by
  unfold reload; split
  · split <;> rfl
  · rfl

@[simp] theorem reload_overlayDisabled (s : State) : (reload s).overlayDisabled = s.overlayDisabled := by
  unfold reload; split
  · split <;> rfl
  · rfl

@[simp] theorem reload_fifo (s : State) : (reload s).fifo = s.fifo := by
  unfold reload; split
  · split <;> rfl
  · rfl

@[simp] theorem reload_dsp (s : State) : (reload s).dsp = s.dsp := by
  unfold reload; split
  · split <;> rfl
  · rfl

@[simp] theorem reload_toc (s : State) : (reload s).toc = s.toc := by
  unfold reload; split
  · split <;> rfl
  · rfl

@[simp] theorem reload_cart (s : State) : (reload s).cart = s.cart := by
  unfold reload; split
  · split <;> rfl
  · rfl

@[simp] theorem reload_unit (s : State) : (reload s).unit = s.unit := by
  unfold reload; split
  · split <;> rfl
  · rfl

@[simp] theorem reload_nvCart (s : State) : (reload s).nvCart = s.nvCart := by
  unfold reload; split
  · split <;> rfl
  · rfl

@[simp] theorem reload_nvUnit (s : State) : (reload s).nvUnit = s.nvUnit := by
  unfold reload; split
  · split <;> rfl
  · rfl

@[simp] theorem reload_events (s : State) : (reload s).events = s.events := by
  unfold reload; split
  · split <;> rfl
  · rfl

@[simp] theorem reload_result (s : State) : (reload s).result = s.result := by
  unfold reload; split
  · split <;> rfl
  · rfl

@[simp] theorem reload_cfg (s : State) : (reload s).cfg = s.cfg := by
  unfold reload; split
  · split <;> rfl
  · rfl

@[simp] theorem reload_disc (s : State) : (reload s).disc = s.disc := by
  unfold reload; split
  · split <;> rfl
  · rfl

@[simp] theorem reload_nextDiscs (s : State) : (reload s).nextDiscs = s.nextDiscs := by
  unfold reload; split
  · split <;> rfl
  · rfl

@[simp] theorem reload_modeReg (s : State) : (reload s).modeReg = s.modeReg := by
  unfold reload; split
  · split <;> rfl
  · rfl

@[simp] theorem reload_inputs (s : State) : (reload s).inputs = s.inputs := by
  unfold reload; split
  · split <;> rfl
  · rfl

/-! ## clockCart -/

@[simp] theorem clockCart_regs (b : Bool) (s : State) : (clockCart b s).regs = s.regs := by
  simp only [clockCart, putCart]; split <;> rfl

@[simp] theorem clockCart_txPending (b : Bool) (s : State) : (clockCart b s).txPending = s.txPending := by
  simp only [clockCart, putCart]; split <;> rfl

@[simp] theorem clockCart_rxPending (b : Bool) (s : State) : (clockCart b s).rxPending = s.rxPending := by
  simp only [clockCart, putCart]; split <;> rfl

@[simp] theorem clockCart_overlayDisabled (b : Bool) (s : State) : (clockCart b s).overlayDisabled = s.overlayDisabled := by
  simp only [clockCart, putCart]; split <;> rfl

@[simp] theorem clockCart_fifo (b : Bool) (s : State) : (clockCart b s).fifo = s.fifo := by
  simp only [clockCart, putCart]; split <;> rfl

@[simp] theorem clockCart_dsp (b : Bool) (s : State) : (clockCart b s).dsp = s.dsp := by
  simp only [clockCart, putCart]; split <;> rfl

@[simp] theorem clockCart_toc (b : Bool) (s : State) : (clockCart b s).toc = s.toc := by
  simp only [clockCart, putCart]; split <;> rfl

@[simp] theorem clockCart_pump (b : Bool) (s : State) : (clockCart b s).pump = s.pump := by
  simp only [clockCart, putCart]; split <;> rfl

@[simp] theorem clockCart_unit (b : Bool) (s : State) : (clockCart b s).unit = s.unit := by
  simp only [clockCart, putCart]; split <;> rfl

@[simp] theorem clockCart_nvUnit (b : Bool) (s : State) : (clockCart b s).nvUnit = s.nvUnit := by
  simp only [clockCart, putCart]; split <;> rfl

@[simp] theorem clockCart_result (b : Bool) (s : State) : (clockCart b s).result = s.result := by
  simp only [clockCart, putCart]; split <;> rfl

@[simp] theorem clockCart_cfg (b : Bool) (s : State) : (clockCart b s).cfg = s.cfg := by
  simp only [clockCart, putCart]; split <;> rfl

@[simp] theorem clockCart_disc (b : Bool) (s : State) : (clockCart b s).disc = s.disc := by
  simp only [clockCart, putCart]; split <;> rfl

@[simp] theorem clockCart_nextDiscs (b : Bool) (s : State) : (clockCart b s).nextDiscs = s.nextDiscs := by
  simp only [clockCart, putCart]; split <;> rfl

@[simp] theorem clockCart_modeReg (b : Bool) (s : State) : (clockCart b s).modeReg = s.modeReg := by
  simp only [clockCart, putCart]; split <;> rfl

@[simp] theorem clockCart_inputs (b : Bool) (s : State) : (clockCart b s).inputs = s.inputs := by
  simp only [clockCart, putCart]; split <;> rfl

@[simp] theorem clockCart_draws (b : Bool) (s : State) : (clockCart b s).draws = s.draws := by
  simp only [clockCart, putCart]; split <;> rfl

/-- The engine after one clock, whether or not the image is persisted. -/
@[simp] theorem clockCart_cart (b : Bool) (s : State) : (clockCart b s).cart = (cartNext s.cfg b s.cart).1 := by
  simp only [clockCart, putCart]; split <;> rfl

/-! ## clockCartBits -/

@[simp] theorem clockCartBits_regs (bits : List Bool) (s : State) : (clockCartBits bits s).regs = s.regs := by
  unfold clockCartBits; induction bits generalizing s <;> simp_all

@[simp] theorem clockCartBits_txPending (bits : List Bool) (s : State) : (clockCartBits bits s).txPending = s.txPending := by
  unfold clockCartBits; induction bits generalizing s <;> simp_all

@[simp] theorem clockCartBits_rxPending (bits : List Bool) (s : State) : (clockCartBits bits s).rxPending = s.rxPending := by
  unfold clockCartBits; induction bits generalizing s <;> simp_all

@[simp] theorem clockCartBits_overlayDisabled (bits : List Bool) (s : State) : (clockCartBits bits s).overlayDisabled = s.overlayDisabled := by
  unfold clockCartBits; induction bits generalizing s <;> simp_all

@[simp] theorem clockCartBits_fifo (bits : List Bool) (s : State) : (clockCartBits bits s).fifo = s.fifo := by
  unfold clockCartBits; induction bits generalizing s <;> simp_all

@[simp] theorem clockCartBits_dsp (bits : List Bool) (s : State) : (clockCartBits bits s).dsp = s.dsp := by
  unfold clockCartBits; induction bits generalizing s <;> simp_all

@[simp] theorem clockCartBits_toc (bits : List Bool) (s : State) : (clockCartBits bits s).toc = s.toc := by
  unfold clockCartBits; induction bits generalizing s <;> simp_all

@[simp] theorem clockCartBits_pump (bits : List Bool) (s : State) : (clockCartBits bits s).pump = s.pump := by
  unfold clockCartBits; induction bits generalizing s <;> simp_all

@[simp] theorem clockCartBits_unit (bits : List Bool) (s : State) : (clockCartBits bits s).unit = s.unit := by
  unfold clockCartBits; induction bits generalizing s <;> simp_all

@[simp] theorem clockCartBits_nvUnit (bits : List Bool) (s : State) : (clockCartBits bits s).nvUnit = s.nvUnit := by
  unfold clockCartBits; induction bits generalizing s <;> simp_all

@[simp] theorem clockCartBits_result (bits : List Bool) (s : State) : (clockCartBits bits s).result = s.result := by
  unfold clockCartBits; induction bits generalizing s <;> simp_all

@[simp] theorem clockCartBits_cfg (bits : List Bool) (s : State) : (clockCartBits bits s).cfg = s.cfg := by
  unfold clockCartBits; induction bits generalizing s <;> simp_all

@[simp] theorem clockCartBits_disc (bits : List Bool) (s : State) : (clockCartBits bits s).disc = s.disc := by
  unfold clockCartBits; induction bits generalizing s <;> simp_all

@[simp] theorem clockCartBits_nextDiscs (bits : List Bool) (s : State) : (clockCartBits bits s).nextDiscs = s.nextDiscs := by
  unfold clockCartBits; induction bits generalizing s <;> simp_all

@[simp] theorem clockCartBits_modeReg (bits : List Bool) (s : State) : (clockCartBits bits s).modeReg = s.modeReg := by
  unfold clockCartBits; induction bits generalizing s <;> simp_all

@[simp] theorem clockCartBits_inputs (bits : List Bool) (s : State) : (clockCartBits bits s).inputs = s.inputs := by
  unfold clockCartBits; induction bits generalizing s <;> simp_all

@[simp] theorem clockCartBits_draws (bits : List Bool) (s : State) : (clockCartBits bits s).draws = s.draws := by
  unfold clockCartBits; induction bits generalizing s <;> simp_all

/-! ## lineWrite -/

@[simp] theorem lineWrite_txPending (v : Half) (s : State) : (lineWrite v s).txPending = s.txPending := by
  simp only [lineWrite, putUnit]; split <;> rfl

@[simp] theorem lineWrite_rxPending (v : Half) (s : State) : (lineWrite v s).rxPending = s.rxPending := by
  simp only [lineWrite, putUnit]; split <;> rfl

@[simp] theorem lineWrite_overlayDisabled (v : Half) (s : State) : (lineWrite v s).overlayDisabled = s.overlayDisabled := by
  simp only [lineWrite, putUnit]; split <;> rfl

@[simp] theorem lineWrite_fifo (v : Half) (s : State) : (lineWrite v s).fifo = s.fifo := by
  simp only [lineWrite, putUnit]; split <;> rfl

@[simp] theorem lineWrite_dsp (v : Half) (s : State) : (lineWrite v s).dsp = s.dsp := by
  simp only [lineWrite, putUnit]; split <;> rfl

@[simp] theorem lineWrite_toc (v : Half) (s : State) : (lineWrite v s).toc = s.toc := by
  simp only [lineWrite, putUnit]; split <;> rfl

@[simp] theorem lineWrite_pump (v : Half) (s : State) : (lineWrite v s).pump = s.pump := by
  simp only [lineWrite, putUnit]; split <;> rfl

@[simp] theorem lineWrite_cart (v : Half) (s : State) : (lineWrite v s).cart = s.cart := by
  simp only [lineWrite, putUnit]; split <;> rfl

@[simp] theorem lineWrite_nvCart (v : Half) (s : State) : (lineWrite v s).nvCart = s.nvCart := by
  simp only [lineWrite, putUnit]; split <;> rfl

@[simp] theorem lineWrite_result (v : Half) (s : State) : (lineWrite v s).result = s.result := by
  simp only [lineWrite, putUnit]; split <;> rfl

@[simp] theorem lineWrite_cfg (v : Half) (s : State) : (lineWrite v s).cfg = s.cfg := by
  simp only [lineWrite, putUnit]; split <;> rfl

@[simp] theorem lineWrite_disc (v : Half) (s : State) : (lineWrite v s).disc = s.disc := by
  simp only [lineWrite, putUnit]; split <;> rfl

@[simp] theorem lineWrite_nextDiscs (v : Half) (s : State) : (lineWrite v s).nextDiscs = s.nextDiscs := by
  simp only [lineWrite, putUnit]; split <;> rfl

@[simp] theorem lineWrite_modeReg (v : Half) (s : State) : (lineWrite v s).modeReg = s.modeReg := by
  simp only [lineWrite, putUnit]; split <;> rfl

@[simp] theorem lineWrite_inputs (v : Half) (s : State) : (lineWrite v s).inputs = s.inputs := by
  simp only [lineWrite, putUnit]; split <;> rfl

@[simp] theorem lineWrite_draws (v : Half) (s : State) : (lineWrite v s).draws = s.draws := by
  simp only [lineWrite, putUnit]; split <;> rfl

/-- The stored half of the bus register, whether or not the image is persisted. -/
@[simp] theorem lineWrite_regs (v : Half) (s : State) : (lineWrite v s).regs = s.regs.setHalf .eebus s.cfg.unitBusHalf v := by
  simp only [lineWrite, putUnit]; split <;> rfl

/-- The engine after one line write, whether or not the image is persisted. -/
@[simp] theorem lineWrite_unit (v : Half) (s : State) : (lineWrite v s).unit =
    (unitNext s.cfg (s.cfg.lineCs v) (s.cfg.lineClk v) (s.cfg.lineDi v) s.unit).1 := by
  simp only [lineWrite, putUnit]; split <;> rfl

/-! ## pulseBit -/

@[simp] theorem pulseBit_txPending (b : Bool) (s : State) : (pulseBit b s).txPending = s.txPending := by
  simp [pulseBit]

@[simp] theorem pulseBit_rxPending (b : Bool) (s : State) : (pulseBit b s).rxPending = s.rxPending := by
  simp [pulseBit]

@[simp] theorem pulseBit_overlayDisabled (b : Bool) (s : State) : (pulseBit b s).overlayDisabled = s.overlayDisabled := by
  simp [pulseBit]

@[simp] theorem pulseBit_fifo (b : Bool) (s : State) : (pulseBit b s).fifo = s.fifo := by
  simp [pulseBit]

@[simp] theorem pulseBit_dsp (b : Bool) (s : State) : (pulseBit b s).dsp = s.dsp := by
  simp [pulseBit]

@[simp] theorem pulseBit_toc (b : Bool) (s : State) : (pulseBit b s).toc = s.toc := by
  simp [pulseBit]

@[simp] theorem pulseBit_pump (b : Bool) (s : State) : (pulseBit b s).pump = s.pump := by
  simp [pulseBit]

@[simp] theorem pulseBit_cart (b : Bool) (s : State) : (pulseBit b s).cart = s.cart := by
  simp [pulseBit]

@[simp] theorem pulseBit_nvCart (b : Bool) (s : State) : (pulseBit b s).nvCart = s.nvCart := by
  simp [pulseBit]

@[simp] theorem pulseBit_result (b : Bool) (s : State) : (pulseBit b s).result = s.result := by
  simp [pulseBit]

@[simp] theorem pulseBit_cfg (b : Bool) (s : State) : (pulseBit b s).cfg = s.cfg := by
  simp [pulseBit]

@[simp] theorem pulseBit_disc (b : Bool) (s : State) : (pulseBit b s).disc = s.disc := by
  simp [pulseBit]

@[simp] theorem pulseBit_nextDiscs (b : Bool) (s : State) : (pulseBit b s).nextDiscs = s.nextDiscs := by
  simp [pulseBit]

@[simp] theorem pulseBit_modeReg (b : Bool) (s : State) : (pulseBit b s).modeReg = s.modeReg := by
  simp [pulseBit]

@[simp] theorem pulseBit_inputs (b : Bool) (s : State) : (pulseBit b s).inputs = s.inputs := by
  simp [pulseBit]

@[simp] theorem pulseBit_draws (b : Bool) (s : State) : (pulseBit b s).draws = s.draws := by
  simp [pulseBit]

/-! ## pulseBits -/

@[simp] theorem pulseBits_txPending (bits : List Bool) (s : State) : (pulseBits bits s).txPending = s.txPending := by
  unfold pulseBits; induction bits generalizing s <;> simp_all

@[simp] theorem pulseBits_rxPending (bits : List Bool) (s : State) : (pulseBits bits s).rxPending = s.rxPending := by
  unfold pulseBits; induction bits generalizing s <;> simp_all

@[simp] theorem pulseBits_overlayDisabled (bits : List Bool) (s : State) : (pulseBits bits s).overlayDisabled = s.overlayDisabled := by
  unfold pulseBits; induction bits generalizing s <;> simp_all

@[simp] theorem pulseBits_fifo (bits : List Bool) (s : State) : (pulseBits bits s).fifo = s.fifo := by
  unfold pulseBits; induction bits generalizing s <;> simp_all

@[simp] theorem pulseBits_dsp (bits : List Bool) (s : State) : (pulseBits bits s).dsp = s.dsp := by
  unfold pulseBits; induction bits generalizing s <;> simp_all

@[simp] theorem pulseBits_toc (bits : List Bool) (s : State) : (pulseBits bits s).toc = s.toc := by
  unfold pulseBits; induction bits generalizing s <;> simp_all

@[simp] theorem pulseBits_pump (bits : List Bool) (s : State) : (pulseBits bits s).pump = s.pump := by
  unfold pulseBits; induction bits generalizing s <;> simp_all

@[simp] theorem pulseBits_cart (bits : List Bool) (s : State) : (pulseBits bits s).cart = s.cart := by
  unfold pulseBits; induction bits generalizing s <;> simp_all

@[simp] theorem pulseBits_nvCart (bits : List Bool) (s : State) : (pulseBits bits s).nvCart = s.nvCart := by
  unfold pulseBits; induction bits generalizing s <;> simp_all

@[simp] theorem pulseBits_result (bits : List Bool) (s : State) : (pulseBits bits s).result = s.result := by
  unfold pulseBits; induction bits generalizing s <;> simp_all

@[simp] theorem pulseBits_cfg (bits : List Bool) (s : State) : (pulseBits bits s).cfg = s.cfg := by
  unfold pulseBits; induction bits generalizing s <;> simp_all

@[simp] theorem pulseBits_disc (bits : List Bool) (s : State) : (pulseBits bits s).disc = s.disc := by
  unfold pulseBits; induction bits generalizing s <;> simp_all

@[simp] theorem pulseBits_nextDiscs (bits : List Bool) (s : State) : (pulseBits bits s).nextDiscs = s.nextDiscs := by
  unfold pulseBits; induction bits generalizing s <;> simp_all

@[simp] theorem pulseBits_modeReg (bits : List Bool) (s : State) : (pulseBits bits s).modeReg = s.modeReg := by
  unfold pulseBits; induction bits generalizing s <;> simp_all

@[simp] theorem pulseBits_inputs (bits : List Bool) (s : State) : (pulseBits bits s).inputs = s.inputs := by
  unfold pulseBits; induction bits generalizing s <;> simp_all

@[simp] theorem pulseBits_draws (bits : List Bool) (s : State) : (pulseBits bits s).draws = s.draws := by
  unfold pulseBits; induction bits generalizing s <;> simp_all

end Sys2Proof.Machine
end

