-- ==== Sys2Proof/Laws/Memory.lean ====
section
/-! SUPPORT. Byte stores: every write leaves the canonical form, and a read after a write gives the byte written. -/

namespace Sys2Proof.Machine

-- One declaration after the other: the package as one text stays within its threads.
set_option Elab.async false

theorem Memory.cells_ge {sp : Space} {a : Nat} {bytes : List Byte} {x : Host.Cell}
    (h : x ∈ Memory.cells sp a bytes) : a ≤ x.1 ∧ x.1 < a + bytes.length ∧ x.2 ≠ sp.unlisted := by
  induction bytes generalizing a with
  | nil => simp [Memory.cells] at h
  | cons b bs ih =>
    simp only [Memory.cells] at h
    split at h
    · have := ih h
      simp only [List.length_cons]
      exact ⟨by omega, by omega, this.2.2⟩
    · rcases List.mem_cons.mp h with rfl | h
      · simp_all
      · have := ih h
        simp only [List.length_cons]
        exact ⟨by omega, by omega, this.2.2⟩

theorem Memory.cells_pairwise (sp : Space) (a : Nat) (bytes : List Byte) :
    (Memory.cells sp a bytes).Pairwise fun x y => x.1 < y.1 := by
  induction bytes generalizing a with
  | nil => exact List.Pairwise.nil
  | cons b bs ih =>
    simp only [Memory.cells]
    split
    · exact ih _
    · refine List.Pairwise.cons (fun y hy => ?_) (ih _)
      have := Memory.cells_ge hy
      dsimp only
      omega

theorem Memory.lookup_cells_lt {sp : Space} {a k : Nat} (bytes : List Byte) (h : k < a) :
    (Memory.cells sp a bytes).lookup k = none := by
  rw [List.lookup_eq_none_iff]
  intro x hx
  have := Memory.cells_ge hx
  simp only [bne_iff_ne, ne_eq]
  omega

theorem Memory.lookup_cells (sp : Space) (a k : Nat) (bytes : List Byte) :
    ((Memory.cells sp a bytes).lookup (a + k)).getD sp.unlisted = (bytes[k]?).getD sp.unlisted := by
  induction bytes generalizing a k with
  | nil => simp [Memory.cells]
  | cons b bs ih =>
    simp only [Memory.cells]
    cases k with
    | zero =>
      split
      · next hb => simp [Memory.lookup_cells_lt bs (Nat.lt_succ_self a), hb]
      · simp
    | succ k =>
      have e : a + (k + 1) = a + 1 + k := by omega
      split
      · rw [e, ih]
        simp
      · rw [List.lookup_cons]
        have : (a + (k + 1) == a) = false := by simp
        rw [this, e, ih]
        simp

/-- The empty store is canonical. -/
theorem Memory.wf_nil (sp : Space) : Memory.wf sp [] = true := by simp [Memory.wf]

/-- Writing a whole store leaves it in canonical form. -/
theorem Memory.wf_fill (sp : Space) (bytes : List Byte) : Memory.wf sp (Memory.fill sp bytes) = true := by
  rw [Memory.wf, Memory.fill, Bool.and_eq_true, List.all_eq_true]
  refine ⟨decide_eq_true (Memory.cells_pairwise _ _ _), fun x hx => ?_⟩
  have := Memory.cells_ge hx
  have hl := List.length_take_le sp.size bytes
  rw [Bool.and_eq_true, bne_iff_ne]
  exact ⟨decide_eq_true (by omega), this.2.2⟩

/-- Read after write: a byte of a filled store is the byte written there, or the unlisted byte past the last one. -/
theorem Memory.read_fill (sp : Space) (bytes : List Byte) {a : Nat} (h : a < sp.size) :
    Memory.read sp (Memory.fill sp bytes) a = (bytes[a]?).getD sp.unlisted := by
  have := Memory.lookup_cells sp 0 a (bytes.take sp.size)
  simp only [Nat.zero_add] at this
  simp [Memory.read, Memory.fill, this, h]

/-- Byte `2 i` of an image is the high byte of word `i`, byte `2 i + 1` its low byte (R70, R86). -/
theorem imageBytes_getElem? (arr : Vector Half 64) (i : Nat) (h : i < 64) :
    (imageBytes arr)[2 * i]? = some ((arr[i]).extractLsb' 8 8) ∧
      (imageBytes arr)[2 * i + 1]? = some ((arr[i]).extractLsb' 0 8) := by
  have key : ∀ (l : List Half) (i : Nat) (h : i < l.length),
      (l.flatMap fun w => [w.extractLsb' 8 8, w.extractLsb' 0 8])[2 * i]? = some ((l[i]).extractLsb' 8 8) ∧
        (l.flatMap fun w => [w.extractLsb' 8 8, w.extractLsb' 0 8])[2 * i + 1]? = some ((l[i]).extractLsb' 0 8) := by
    intro l
    induction l with
    | nil => intro i h; simp at h
    | cons w ws ih =>
      intro i h
      cases i with
      | zero => simp
      | succ i =>
        have := ih i (by simpa using h)
        have e : 2 * (i + 1) = 2 * i + 1 + 1 := by omega
        simpa [e] using this
  have h' := key arr.toList i (by simpa using h)
  rw [Vector.getElem_toList] at h'
  exact h'

/-- An image holds its array: what is persisted is what a reset loads (R70, R99). -/
theorem loadImage_fill (sp : Space) (hsp : sp.size = 128) (arr : Vector Half 64) :
    loadImage sp (some (Memory.fill sp (imageBytes arr))) = arr := by
  apply Vector.ext
  intro i hi
  have h := imageBytes_getElem? arr i hi
  simp only [loadImage, Vector.getElem_ofFn]
  rw [Memory.read_fill sp _ (by omega), Memory.read_fill sp _ (by omega), h.1, h.2]
  simp only [Option.getD_some]
  apply BitVec.eq_of_getLsbD_eq
  intro k hk
  change ((arr[i]).extractLsb' 8 8 ++ (arr[i]).extractLsb' 0 8 : BitVec (8 + 8)).getLsbD k = _
  rw [BitVec.getLsbD_append]
  split
  · simp [*]
  · have : 8 + (k - 8) = k := by omega
    have : k - 8 < 8 := by omega
    simp [*]

end Sys2Proof.Machine
end

