-- ==== Sys2Proof/Laws/Serial.lean ====
section
/-! SUPPORT. Serial fields: shifting a field's bits in, most significant first, assembles the field (R87). -/

namespace Sys2Proof.Machine

-- One declaration after the other: the package as one text stays within its threads.
set_option Elab.async false

@[simp] theorem bitsMsb_length {n : Nat} (v : BitVec n) : (bitsMsb v).length = n := by simp [bitsMsb]

theorem shiftIn_getLsbD {n : Nat} (v : BitVec n) (b : Bool) (j : Nat) (hj : j < n) :
    (shiftIn v b).getLsbD j = if j = 0 then b else v.getLsbD (j - 1) := by
  unfold shiftIn
  rw [BitVec.getLsbD_or, BitVec.getLsbD_shiftLeft, BitVec.getLsbD_setWidth]
  cases j with
  | zero => simp [hj]
  | succ j => simp [hj]

/-- A field narrower than its register lies in the low bits; what stood there moves up by its width. -/
theorem foldl_shiftIn_wide {m n : Nat} (v : BitVec n) (w : BitVec m) (j : Nat) (hj : j < m) :
    ((bitsMsb v).foldl shiftIn w).getLsbD j = if j < n then v.getLsbD j else w.getLsbD (j - n) := by
  have key : ∀ k, k ≤ n → ∀ j, j < m → (((List.range k).map fun i => v.getMsbD i).foldl shiftIn w).getLsbD j =
      if j < k then v.getMsbD (k - 1 - j) else w.getLsbD (j - k) := by
    intro k
    induction k with
    | zero => intro _ j _; simp
    | succ k ih =>
      intro hk j hj
      rw [List.range_succ, List.map_append, List.foldl_append]
      simp only [List.map_cons, List.map_nil, List.foldl_cons, List.foldl_nil]
      rw [shiftIn_getLsbD _ _ _ hj]
      cases j with
      | zero => simp
      | succ j =>
        rw [if_neg (by omega), ih (by omega) _ (by omega)]
        have e1 : j + 1 - 1 = j := rfl
        have e2 : k + 1 - 1 - (j + 1) = k - 1 - j := by omega
        have e3 : j + 1 - (k + 1) = j - k := by omega
        simp only [e1, e2, e3, Nat.add_lt_add_iff_right]
  rw [bitsMsb, key n (Nat.le_refl n) j hj]
  split
  · next h =>
    rw [BitVec.getMsbD_eq_getLsbD, decide_eq_true (show n - 1 - j < n by omega), Bool.true_and]
    congr 1
    omega
  · rfl

/-- "the first clocked bit of a field is its most significant bit" (R87): whatever the register held, after all the field's
bits it holds the field. -/
theorem foldl_shiftIn {n : Nat} (v w : BitVec n) : (bitsMsb v).foldl shiftIn w = v := by
  apply BitVec.eq_of_getLsbD_eq
  intro j hj
  rw [foldl_shiftIn_wide v w j hj, if_pos hj]

/-- The nine bits of a head assemble to `s op a` in a 9-bit register (R307). -/
theorem foldl_shiftIn_head (s : Bool) (op : BitVec 2) (a : BitVec 6) (w : BitVec 9) :
    (headBits s op a).foldl shiftIn w = BitVec.ofBool s ++ op ++ a := by
  have hlen : (headBits s op a) = bitsMsb (BitVec.ofBool s ++ op ++ a : BitVec 9) := by
    revert s op a
    decide +kernel
  rw [hlen, foldl_shiftIn]

/-- The sub-opcode of an address field written as the opcode tables write it (R107, R109). -/
theorem subOp_append (y : BitVec 2) (x : BitVec 4) : subOp (y ++ x) = y := by
  revert y x
  decide

/-- The fields of an assembled packet (R307). -/
theorem packet_address (s : Bool) (op : BitVec 2) (a : BitVec 6) :
    (BitVec.ofBool s ++ op ++ a : BitVec 9).extractLsb' 0 6 = a := by
  revert s op a
  decide +kernel

theorem packet_opcode (s : Bool) (op : BitVec 2) (a : BitVec 6) :
    (BitVec.ofBool s ++ op ++ a : BitVec 9).extractLsb' 6 2 = op := by
  revert s op a
  decide +kernel

theorem packet_start (s : Bool) (op : BitVec 2) (a : BitVec 6) :
    (BitVec.ofBool s ++ op ++ a : BitVec 9).getLsbD 8 = s := by
  revert s op a
  decide +kernel

theorem headBits_ne_nil (s : Bool) (op : BitVec 2) (a : BitVec 6) : headBits s op a ≠ [] := by
  intro h
  have := congrArg List.length h
  simp [headBits] at this

end Sys2Proof.Machine
end

