-- ==== Sys2Proof/Laws/Cart.lean ====
section
/-! SUPPORT. The cartridge engine: what one clock does in each state, what the bits of a field do, what a whole frame clocked
from `START` comes to. -/

namespace Sys2Proof.Machine

-- One declaration after the other: the package as one text stays within its threads.
set_option Elab.async false

/-! ## One clock -/

theorem clockCart_quiet {b : Bool} {s : State} (h : (cartNext s.cfg b s.cart).2 = false) :
    clockCart b s = { s with cart := (cartNext s.cfg b s.cart).1 } := by
  simp [clockCart, putCart, h]

theorem clockCart_start {b : Bool} {s : State} (h : s.cart.state = .start) :
    clockCart b s = { s with cart := { s.cart with state := .opA } } := by
  simp [clockCart, putCart, cartNext, h]

theorem clockCart_opA {b : Bool} {s : State} (h : s.cart.state = .opA) :
    clockCart b s = { s with cart := { s.cart with op := opBit1 b, state := .opB } } := by
  simp [clockCart, putCart, cartNext, h]

theorem clockCart_opB {b : Bool} {s : State} (h : s.cart.state = .opB) :
    clockCart b s = { s with cart := cartOpcodeDone b s.cart } := by
  simp [clockCart, putCart, cartNext, h]

/-- The sixth address bit. -/
theorem clockCart_lastAddr {b : Bool} {s : State} (h : s.cart.state = .addr) (hc : s.cart.addrCnt = 1) :
    clockCart b s = putCart (cartAfterAddr s.cfg { s.cart with addr := shiftIn s.cart.addr b, addrCnt := 0 }) s := by
  simp [clockCart, cartNext, h, cartAddrBit, hc]

/-- The sixteenth data bit. -/
theorem clockCart_lastData {b : Bool} {s : State} (h : s.cart.state = .data) (hc : s.cart.dataCnt = 1) :
    clockCart b s = putCart (cartAfterData s.cfg { s.cart with data := shiftIn s.cart.data b, dataCnt := 0 }) s := by
  simp [clockCart, cartNext, h, cartDataBit, hc]

/-! ## The bits of a field -/

@[simp] theorem clockCartBits_nil (s : State) : clockCartBits [] s = s := rfl

@[simp] theorem clockCartBits_cons (b : Bool) (bits : List Bool) (s : State) :
    clockCartBits (b :: bits) s = clockCartBits bits (clockCart b s) := rfl

theorem clockCartBits_append (xs ys : List Bool) (s : State) :
    clockCartBits (xs ++ ys) s = clockCartBits ys (clockCartBits xs s) := by
  simp [clockCartBits]

/-- Address bits short of the last only assemble the address. -/
theorem clockCartBits_addr (bits : List Bool) (s : State) (h : s.cart.state = .addr)
    (hl : bits.length < s.cart.addrCnt) :
    clockCartBits bits s =
      { s with cart := { s.cart with
          addr := bits.foldl shiftIn s.cart.addr, addrCnt := s.cart.addrCnt - bits.length } } := by
  induction bits generalizing s with
  | nil => simp
  | cons b bs ih =>
    simp only [List.length_cons] at hl
    have hstep : clockCart b s = { s with cart := cartAddrBit b s.cart } := by
      have : ¬ (s.cart.addrCnt - 1 = 0) := by omega
      simp [clockCart, putCart, cartNext, h, cartAddrBit, this]
    rw [clockCartBits_cons, hstep, ih _ (by simp [cartAddrBit, h]) (by simp [cartAddrBit]; omega)]
    have : s.cart.addrCnt - 1 - bs.length = s.cart.addrCnt - (bs.length + 1) := by omega
    simp [cartAddrBit, this]

/-- Data bits short of the last only assemble the data. -/
theorem clockCartBits_data (bits : List Bool) (s : State) (h : s.cart.state = .data)
    (hl : bits.length < s.cart.dataCnt) :
    clockCartBits bits s =
      { s with cart := { s.cart with
          data := bits.foldl shiftIn s.cart.data, dataCnt := s.cart.dataCnt - bits.length } } := by
  induction bits generalizing s with
  | nil => simp
  | cons b bs ih =>
    simp only [List.length_cons] at hl
    have hstep : clockCart b s = { s with cart := cartDataBit b s.cart } := by
      have : ¬ (s.cart.dataCnt - 1 = 0) := by omega
      simp [clockCart, putCart, cartNext, h, cartDataBit, this]
    rw [clockCartBits_cons, hstep, ih _ (by simp [cartDataBit, h]) (by simp [cartDataBit]; omega)]
    have : s.cart.dataCnt - 1 - bs.length = s.cart.dataCnt - (bs.length + 1) := by omega
    simp [cartDataBit, this]

theorem bitsMsb_ne_nil {n : Nat} (v : BitVec (n + 1)) : bitsMsb v ≠ [] := by
  intro h
  have := bitsMsb_length v
  simp [h] at this

/-- All six address bits: the address is `a`, and the last of them runs `AfterAddr` in the same clock (R263). -/
theorem clockCartBits_address (a : BitVec 6) (s : State) (h : s.cart.state = .addr) (hc : s.cart.addrCnt = 6) :
    clockCartBits (bitsMsb a) s = putCart (cartAfterAddr s.cfg { s.cart with addr := a, addrCnt := 0 }) s := by
  obtain ⟨init, last, hb⟩ := List.eq_nil_or_concat (bitsMsb a) |>.resolve_left (bitsMsb_ne_nil a)
  have hlen : init.length = 5 := by
    have := bitsMsb_length a
    rw [hb] at this
    simpa using this
  have hfold : shiftIn (init.foldl shiftIn s.cart.addr) last = a := by
    have := foldl_shiftIn a s.cart.addr
    rw [hb] at this
    simpa using this
  rw [hb, List.concat_eq_append, clockCartBits_append, clockCartBits_addr init s h (by omega), clockCartBits_cons,
    clockCartBits_nil]
  simp [clockCart, cartNext, h, cartAddrBit, hc, hlen, hfold, putCart, persistCart, emit]

/-- All sixteen data bits: the data is `d`, and the last of them runs `AfterData` in the same clock (R263). -/
theorem clockCartBits_word (d : Half) (s : State) (h : s.cart.state = .data) (hc : s.cart.dataCnt = 16) :
    clockCartBits (bitsMsb d) s = putCart (cartAfterData s.cfg { s.cart with data := d, dataCnt := 0 }) s := by
  obtain ⟨init, last, hb⟩ := List.eq_nil_or_concat (bitsMsb d) |>.resolve_left (bitsMsb_ne_nil d)
  have hlen : init.length = 15 := by
    have := bitsMsb_length d
    rw [hb] at this
    simpa using this
  have hfold : shiftIn (init.foldl shiftIn s.cart.data) last = d := by
    have := foldl_shiftIn d s.cart.data
    rw [hb] at this
    simpa using this
  rw [hb, List.concat_eq_append, clockCartBits_append, clockCartBits_data init s h (by omega), clockCartBits_cons,
    clockCartBits_nil]
  simp [clockCart, cartNext, h, cartDataBit, hc, hlen, hfold, putCart, persistCart, emit]

/-! ## A whole frame from `START` -/

/-- The engine once the nine bits of a frame are in, before `AfterAddr`: only READ has reloaded the data fields (R263, OP_B). -/
def cartHeadDone (op : BitVec 2) (a : BitVec 6) (e : CartEngine) : CartEngine :=
  { e with
    state := .addr, op := op, addr := a, addrCnt := 0
    data := if op = 2 then 0 else e.data
    dataCnt := if op = 2 then 16 else e.dataCnt }

theorem opBits (op : BitVec 2) : opBit1 (op.getMsbD 0) ||| (BitVec.ofBool (op.getMsbD 1)).setWidth 2 = op := by
  revert op
  decide

/-- A nine-clock frame from `START` is `AfterAddr` on the assembled opcode and address (R263). -/
theorem cartFrame_of_start (start : Bool) (op : BitVec 2) (a : BitVec 6) (s : State) (h : s.cart.state = .start) :
    cartFrame start op a s = putCart (cartAfterAddr s.cfg (cartHeadDone op a s.cart)) s := by
  have hop : bitsMsb op = [op.getMsbD 0, op.getMsbD 1] := rfl
  have ho := opBits op
  rw [cartFrame, headBits, hop, List.cons_append, List.cons_append, List.nil_append]
  rw [clockCartBits_cons, clockCart_start h, clockCartBits_cons, clockCart_opA rfl, clockCartBits_cons, clockCart_opB rfl]
  rw [clockCartBits_address a _ (by simp only [cartOpcodeDone]; split <;> rfl)
    (by simp only [cartOpcodeDone]; split <;> rfl)]
  simp only [cartOpcodeDone, ho, cartHeadDone]
  split <;> simp_all [putCart, persistCart, emit]

/-- A twenty-five-clock frame from `START` whose nine bits lead into the data phase is `AfterData` on the assembled data. -/
theorem cartDataFrame_of_start (start : Bool) (op : BitVec 2) (a : BitVec 6) (d : Half) (s : State)
    (h : s.cart.state = .start)
    (hdata : cartAfterAddr s.cfg (cartHeadDone op a s.cart) = (cartEnterData (cartHeadDone op a s.cart), false)) :
    cartDataFrame start op a d s =
      putCart (cartAfterData s.cfg { cartHeadDone op a s.cart with state := .data, data := d, dataCnt := 0 }) s := by
  rw [cartDataFrame, cartFrame_of_start start op a s h, hdata]
  have hp : putCart (cartEnterData (cartHeadDone op a s.cart), false) s =
      { s with cart := cartEnterData (cartHeadDone op a s.cart) } := rfl
  rw [hp, clockCartBits_word d _ rfl rfl]
  rfl

/-! ## What a clock may touch -/

/-- What clocks may touch: the engine, its image and the trace; the image with the trace. -/
def CartOnly (s t : State) : Prop :=
  ∃ e n new, t = { s with cart := e, nvCart := n, events := s.events ++ new } ∧ (new = [] → n = s.nvCart) ∧
    Event.audioReady ∉ new

theorem CartOnly.refl (s : State) : CartOnly s s := ⟨s.cart, s.nvCart, [], by simp, fun _ => rfl, nofun⟩

theorem CartOnly.trans {s t u : State} (h : CartOnly s t) (k : CartOnly t u) : CartOnly s u := by
  obtain ⟨e, n, new, rfl, h1, h2⟩ := h
  obtain ⟨e', n', new', rfl, k1, k2⟩ := k
  refine ⟨e', n', new ++ new', by simp, fun hn => ?_, by simp [h2, k2]⟩
  rw [List.append_eq_nil_iff] at hn
  exact (k1 hn.2).trans (h1 hn.1)

theorem clockCart_only (b : Bool) (s : State) : CartOnly s (clockCart b s) := by
  unfold clockCart putCart
  split
  · exact ⟨_, _, [_], rfl, nofun, by simp⟩
  · exact ⟨(cartNext s.cfg b s.cart).1, s.nvCart, [], by simp, fun _ => rfl, nofun⟩

theorem clockCartBits_only (bits : List Bool) (s : State) : CartOnly s (clockCartBits bits s) := by
  induction bits generalizing s with
  | nil => exact .refl s
  | cons b bs ih => exact (clockCart_only b s).trans (ih _)

/-! ## The engine's invariant -/

theorem cartCommit_inv (c : Config) (arr : Vector Half 64) (p : Bool) (e : CartEngine) :
    CartInv (cartCommit c arr p e).1 := by
  simp only [cartCommit]
  split
  · exact ⟨nofun, nofun, nofun⟩
  · cases c.cartBusyWhenGated <;> exact ⟨nofun, nofun, nofun⟩

theorem cartAfterAddr_inv (c : Config) (e : CartEngine) : CartInv (cartAfterAddr c e).1 := by
  unfold cartAfterAddr
  split
  · split
    · exact ⟨nofun, nofun, nofun⟩
    · exact ⟨nofun, fun _ => ⟨by simp [cartEnterData], by simp [cartEnterData], by simp [cartEnterData, *]⟩, nofun⟩
    · exact cartCommit_inv _ _ _ _
    · exact ⟨nofun, nofun, nofun⟩
  · exact ⟨nofun, fun _ => ⟨by simp [cartEnterData], by simp [cartEnterData], by simp [cartEnterData, *]⟩, nofun⟩
  · exact ⟨nofun, nofun, fun _ => ⟨by simp, by simp, by simp [*]⟩⟩
  · exact cartCommit_inv _ _ _ _

/-- One clock keeps the engine's invariant. -/
theorem cartNext_inv (c : Config) (b : Bool) (e : CartEngine) (h : CartInv e) : CartInv (cartNext c b e).1 := by
  unfold cartNext
  split
  · exact ⟨nofun, nofun, nofun⟩
  · exact ⟨nofun, nofun, nofun⟩
  · simp only [cartOpcodeDone]
    split <;> exact ⟨fun _ => ⟨by simp, by simp⟩, nofun, nofun⟩
  · next hs =>
    have := h.addr hs
    split
    · exact cartAfterAddr_inv _ _
    · next hn =>
      simp only [cartAddrBit] at hn ⊢
      exact ⟨fun _ => ⟨by dsimp only; omega, by dsimp only; omega⟩, by simp [hs], by simp [hs]⟩
  · next hs =>
    have hd := h.data hs
    split
    · unfold cartAfterData
      split
      · exact cartCommit_inv _ _ _ _
      · exact cartCommit_inv _ _ _ _
      · next ho => simp only [cartDataBit] at ho; simp [ho] at hd
      · next ho => simp only [cartDataBit] at ho; simp [ho] at hd
    · next hn =>
      simp only [cartDataBit] at hn ⊢
      exact ⟨by simp [hs], fun _ => ⟨by dsimp only; omega, by dsimp only; omega, hd.2.2⟩, by simp [hs]⟩
  · simp only [cartUnexpected]
    split <;> exact ⟨nofun, nofun, nofun⟩
  · simp only [cartUnexpected]
    split <;> exact ⟨nofun, nofun, nofun⟩

/-- A query of the output keeps the engine's invariant. -/
theorem cartQuery_inv (e : CartEngine) (h : CartInv e) : CartInv (cartQuery e).2 := by
  unfold cartQuery
  split <;> try exact h
  · exact ⟨nofun, nofun, nofun⟩
  · next hs =>
    have hr := h.readOut hs
    by_cases h0 : e.dataCnt - 1 = 0
    · simp only [h0, if_true]
      exact ⟨nofun, nofun, nofun⟩
    · simp only [h0, if_false]
      exact ⟨nofun, nofun, fun _ => ⟨by dsimp only; omega, by dsimp only; omega, hr.2.2⟩⟩

/-! ## The array changes only under the latch (R51) -/

theorem cartCommit_arr {c arr p e} (h : (cartCommit c arr p e).1.arr ≠ e.arr) : e.wen = true := by
  unfold cartCommit at h
  split at h
  · assumption
  · exact absurd rfl h

theorem cartNext_arr {c b e} (h : (cartNext c b e).1.arr ≠ e.arr) : e.wen = true := by
  unfold cartNext at h
  split at h
  · exact absurd rfl h
  · exact absurd rfl h
  · exfalso; apply h; simp only [cartOpcodeDone]; split <;> rfl
  · split at h
    · unfold cartAfterAddr at h
      split at h
      · split at h
        · exact absurd rfl h
        · exact absurd rfl h
        · exact cartCommit_arr (e := cartAddrBit b e) h
        · exact absurd rfl h
      · exact absurd rfl h
      · exact absurd rfl h
      · exact cartCommit_arr (e := cartAddrBit b e) h
    · exact absurd rfl h
  · split at h
    · unfold cartAfterData at h
      split at h
      · exact cartCommit_arr (e := cartDataBit b e) h
      · exact cartCommit_arr (e := cartDataBit b e) h
      · exact absurd rfl h
      · exact absurd rfl h
    · exact absurd rfl h
  · exfalso; apply h; simp only [cartUnexpected]; split <;> rfl
  · exfalso; apply h; simp only [cartUnexpected]; split <;> rfl

theorem clockCart_arr {b s} (h : (clockCart b s).cart.arr ≠ s.cart.arr) : s.cart.wen = true := by
  apply cartNext_arr (c := s.cfg) (b := b)
  unfold clockCart putCart at h
  split at h <;> exact h

end Sys2Proof.Machine
end

