-- ==== Sys2Proof/Laws/Decode.lean ====
section
/-! SUPPORT. What the decoder reads back from the encoder's accesses, one lemma for each format. -/

namespace Sys2Proof.Laws

-- One declaration after the other: the package as one text stays within its threads.
set_option Elab.async false

open Sys2Proof

/-! ## Fields -/

@[simp] theorem dsaOpc_dsaWord (opc p : Byte) : dsaOpc (dsaWord opc p) = opc := by
  apply BitVec.eq_of_getLsbD_eq
  intro i hi
  change ((opc ++ p : BitVec (8 + 8)).extractLsb' 8 8).getLsbD i = opc.getLsbD i
  rw [BitVec.getLsbD_extractLsb', BitVec.getLsbD_append]
  simp [hi]

@[simp] theorem dsaParam_dsaWord (opc p : Byte) : dsaParam (dsaWord opc p) = p := by
  apply BitVec.eq_of_getLsbD_eq
  intro i hi
  change ((opc ++ p : BitVec (8 + 8)).extractLsb' 0 8).getLsbD i = p.getLsbD i
  rw [BitVec.getLsbD_extractLsb', BitVec.getLsbD_append]
  simp [hi]

@[simp] theorem dsaWord_opc_param (w : Half) : dsaWord (dsaOpc w) (dsaParam w) = w := by
  apply BitVec.eq_of_getLsbD_eq
  intro i hi
  change (w.extractLsb' 8 8 ++ w.extractLsb' 0 8 : BitVec (8 + 8)).getLsbD i = w.getLsbD i
  rw [BitVec.getLsbD_append]
  split
  · simp [*]
  · have : 8 + (i - 8) = i := by omega
    have : i - 8 < 8 := by omega
    simp [*]

theorem frameStart_frameHead (s : Bool) (op : BitVec 2) (a : BitVec 6) : frameStart (frameHead s op a) = s := by
  revert s op a
  decide +kernel

theorem frameOp_frameHead (s : Bool) (op : BitVec 2) (a : BitVec 6) : frameOp (frameHead s op a) = op := by
  revert s op a
  decide +kernel

theorem frameAddr_frameHead (s : Bool) (op : BitVec 2) (a : BitVec 6) : frameAddr (frameHead s op a) = a := by
  revert s op a
  decide +kernel

@[simp] theorem subOp_append (sub : BitVec 2) (x : BitVec 4) : subOp (sub ++ x) = sub := by
  revert sub x
  decide +kernel

@[simp] theorem subRest_append (sub : BitVec 2) (x : BitVec 4) : subRest (sub ++ x) = x := by
  revert sub x
  decide +kernel

/-! ## Format BUS -/

theorem halfAt_halfOffset (r : RegName) (h : RegHalf) : halfAt (halfOffset r h) = some (r, h) := by
  cases r <;> cases h <;> rfl

theorem halfOffset_even (r : RegName) (h : RegHalf) : halfOffset r h % 2 = 0 := by
  cases r <;> cases h <;> rfl

theorem halfOffset_lt (r : RegName) (h : RegHalf) : halfOffset r h < 0x30 := by
  cases r <;> cases h <;> decide

theorem halfAt_of_not_recognized {off : Nat} (hev : off % 2 = 0) (h : recognizedOffset off = false) :
    halfAt off = none := by
  by_cases hlt : off < 0x30
  · interval_cases off <;> first | rfl | (exfalso; revert h; decide)
  · unfold halfAt
    split <;> first | rfl | (exfalso; omega)

theorem decodeWindow_read {c : Config} {r : RegName} {h : RegHalf} {v : Half}
    (hw : halfOffset r h < c.butchWindow) :
    decodeWindow c .read .w16 (halfOffset r h) v = .ok (readInstr r h) := by
  have he := halfOffset_even r h
  simp [decodeWindow, halfAt_halfOffset, Nat.not_le.mpr hw, he]

theorem decodeWindow_write {c : Config} {r : RegName} {h : RegHalf} {v : Half}
    (hw : halfOffset r h < c.butchWindow) :
    decodeWindow c .write .w16 (halfOffset r h) v = .ok (writeInstr v r h) := by
  have he := halfOffset_even r h
  simp [decodeWindow, halfAt_halfOffset, Nat.not_le.mpr hw, he]

theorem head_offset {off : Nat} (h : off < 2 ^ 16) : ((BitVec.ofNat 32 off).setWidth 16).toNat = off := by
  simp only [BitVec.toNat_setWidth, BitVec.toNat_ofNat]
  omega

theorem decode_encodeRead {c : Config} {ph : Phase} (r : RegName) (h : RegHalf)
    (hw : halfOffset r h < c.butchWindow) : decode c ph (encodeRead (halfOffset r h)) = .ok (readInstr r h) := by
  have hl := halfOffset_lt r h
  simp only [decode, encodeRead]
  rw [head_offset (by omega), decodeWindow_read hw]

theorem decode_encodeWrite {c : Config} {ph : Phase} (r : RegName) (h : RegHalf) (v : Half)
    (hw : halfOffset r h < c.butchWindow) :
    decode c ph (encodeWrite (halfOffset r h) v) = .ok (writeInstr v r h) := by
  have hl := halfOffset_lt r h
  simp only [decode, encodeWrite]
  rw [head_offset (by omega), decodeWindow_write hw]

/-! ## Format DSA -/

theorem dsaKind_opc {c : Config} (hd : c.opcsDistinct = true) (k : DsaKind) : c.dsaKind (c.opc k) = some k := by
  have hn : (DsaKind.all.map c.opc).Nodup := of_decide_eq_true hd
  have hmem : k ∈ DsaKind.all := by cases k <;> decide
  have hinj := List.inj_on_of_nodup_map hn
  unfold Config.dsaKind
  cases hf : DsaKind.all.find? (fun k' => c.opc k' == c.opc k) with
  | none =>
    have := List.find?_eq_none.mp hf k hmem
    simp at this
  | some k' =>
    have h1 := List.find?_some hf
    have h2 := List.mem_of_find?_eq_some hf
    rw [hinj h2 hmem (by simpa using h1)]

theorem dsaKind_none {c : Config} {opc : Byte} (h : (DsaKind.all.map c.opc).contains opc = false) :
    c.dsaKind opc = none := by
  unfold Config.dsaKind
  rw [List.find?_eq_none]
  intro k hk hkc
  have : opc ∈ DsaKind.all.map c.opc := List.mem_map.mpr ⟨k, hk, by simpa using hkc⟩
  rw [← List.contains_iff_mem, h] at this
  exact absurd this (by decide)

theorem decode_encodeDsa {c : Config} {ph : Phase} {k : DsaKind} {p : Byte} (h : c.dsaOk k p = true) :
    decode c ph (encodeDsa (c.opc k) p) = .ok (dsaInstr p k) := by
  simp only [Config.dsaOk, Bool.and_eq_true, bne_iff_ne, ne_eq] at h
  have h2 : ¬ (dsaWord (c.opc k) p : BitVec 16) = 0#16 := h.2
  simp [decode, encodeDsa, decodeDsa, h2, dsaKind_opc h.1]

/-! ## Formats CE, UE, LINES -/

theorem decode_encodeCart {c : Config} {ph : Phase} (s : Bool) (op : BitVec 2) (a : BitVec 6) (d : Half) :
    decode c ph (encodeCart s op a d) = .ok (decodeCartFrame (frameHead s op a) d) := rfl

theorem decode_encodeUnit {c : Config} {ph : Phase} (s : Bool) (op : BitVec 2) (a : BitVec 6) (d : Half) :
    decode c ph (encodeUnit s op a d) = .ok (decodeUnitPacket c (frameHead s op a) d) := rfl

theorem decode_encodeLines {c : Config} {ph : Phase} (v : Half) :
    decode c ph (encodeLines v) = .ok (decodeLines c ph v) := by
  simp [decode, encodeLines]

end Sys2Proof.Laws
end

