-- ==== Sys2Proof/Laws/Fifo.lean ====
section
/-! SUPPORT. The command queue as a list of words (R33): what `enqueue` and `dequeue` do to it. -/

namespace Sys2Proof.Machine

-- One declaration after the other: the package as one text stays within its threads.
set_option Elab.async false

theorem Fifo.count_le (f : Fifo) : f.count ≤ 511 := by
  have := Nat.mod_lt (f.wr.val + 512 - f.rd.val) (show 512 > 0 by decide)
  unfold Fifo.count
  omega

@[simp] theorem Fifo.words_length (f : Fifo) : f.words.length = f.count := by simp [Fifo.words]

/-- Empty exactly when both cursors are equal (R33). -/
theorem Fifo.count_eq_zero (f : Fifo) : f.count = 0 ↔ f.rd = f.wr := by
  have h1 := f.rd.isLt
  have h2 := f.wr.isLt
  rw [Fin.ext_iff]
  unfold Fifo.count
  omega

/-- Full exactly when the write cursor stands one slot behind the read cursor (R33). -/
theorem Fifo.count_eq_full (f : Fifo) : f.count = 511 ↔ (f.wr.val + 1) % 512 = f.rd.val := by
  have h1 := f.rd.isLt
  have h2 := f.wr.isLt
  unfold Fifo.count
  omega

theorem Fifo.full_iff (f : Fifo) : f.full = true ↔ f.count = 511 := by
  rw [Fifo.count_eq_full, Fifo.full, beq_iff_eq, Fin.ext_iff]
  rfl

theorem Fifo.empty_iff (f : Fifo) : f.empty = true ↔ f.count = 0 := by
  rw [Fifo.count_eq_zero, Fifo.empty, beq_iff_eq]

theorem Fifo.words_eq_nil (f : Fifo) : f.words = [] ↔ f.rd = f.wr := by
  rw [← List.length_eq_zero_iff, Fifo.words_length, Fifo.count_eq_zero]

/-- A stored word stands behind all the others. -/
theorem Fifo.words_push (f : Fifo) (w : Half) (h : f.count < 511) :
    ({ f with slots := f.slots.set f.wr.val w, wr := slotAfter f.wr } : Fifo).words = f.words ++ [w] := by
  have h1 := f.rd.isLt
  have h2 := f.wr.isLt
  have hc : ({ f with slots := f.slots.set f.wr.val w, wr := slotAfter f.wr } : Fifo).count = f.count + 1 := by
    simp only [Fifo.count, slotAfter] at h ⊢
    omega
  rw [Fifo.words, hc, List.range_succ, List.map_append, Fifo.words]
  congr 1
  · apply List.map_congr_left
    intro k hk
    rw [List.mem_range] at hk
    simp only [Fifo.count] at hk h
    rw [Vector.getElem_set_ne]
    dsimp only
    omega
  · simp only [List.map_cons, List.map_nil, List.cons.injEq, and_true]
    simp only [Fifo.count] at h
    have : (f.rd.val + f.count) % 512 = f.wr.val := by
      simp only [Fifo.count]
      omega
    simp only [this]
    exact Vector.getElem_set_self _

/-- A taken word was the first. -/
theorem Fifo.words_pop (f : Fifo) (h : f.count ≠ 0) :
    f.words = f.head :: ({ f with rd := slotAfter f.rd } : Fifo).words := by
  have h1 := f.rd.isLt
  have h2 := f.wr.isLt
  obtain ⟨n, hn⟩ := Nat.exists_eq_succ_of_ne_zero h
  have hc : ({ f with rd := slotAfter f.rd } : Fifo).count = n := by
    simp only [Fifo.count, slotAfter] at h hn ⊢
    omega
  rw [Fifo.words, hn, List.range_succ_eq_map, List.map_cons, List.map_map, Fifo.words, hc]
  congr 1
  · simp only [Nat.add_zero, Fifo.head, Nat.mod_eq_of_lt h1]
  · apply List.map_congr_left
    intro k _
    have : (f.rd.val + (k + 1)) % 512 = ((f.rd.val + 1) % 512 + k) % 512 := by omega
    simp only [Function.comp, this, slotAfter]

/-- `Enqueue` is one of two things (R151): nothing on a full queue, else the word stored and `rx_pending` set. -/
theorem enqueue_cases (w : Half) (s : State) :
    (s.fifo.count = 511 ∧ enqueue w s = s) ∨
      (s.fifo.count < 511 ∧ enqueue w s =
        { s with
          fifo := { s.fifo with slots := s.fifo.slots.set s.fifo.wr.val w, wr := slotAfter s.fifo.wr }
          rxPending := true }) := by
  unfold enqueue
  have := s.fifo.count_le
  split
  · next h => exact .inl ⟨(Fifo.full_iff _).1 h, rfl⟩
  · next h =>
    rw [Fifo.full_iff] at h
    exact .inr ⟨by omega, rfl⟩

theorem words_enqueue (w : Half) (s : State) (h : s.fifo.count < 511) :
    (enqueue w s).fifo.words = s.fifo.words ++ [w] := by
  rcases enqueue_cases w s with ⟨h1, _⟩ | ⟨h1, h2⟩
  · omega
  · rw [h2]
    exact Fifo.words_push _ _ h

@[simp] theorem enqueueAll_nil (s : State) : enqueueAll [] s = s := rfl

@[simp] theorem enqueueAll_cons (w : Half) (ws : List Half) (s : State) :
    enqueueAll (w :: ws) s = enqueueAll ws (enqueue w s) := rfl

/-- Of a list of words the first ones are stored, as many as there is room for (R177). -/
theorem words_enqueueAll (ws : List Half) (s : State) :
    (enqueueAll ws s).fifo.words = s.fifo.words ++ ws.take (511 - s.fifo.count) := by
  induction ws generalizing s with
  | nil => simp
  | cons w ws ih =>
    rw [enqueueAll_cons, ih]
    rcases enqueue_cases w s with ⟨h1, h2⟩ | ⟨h1, h2⟩
    · rw [h2, h1]
      simp
    · have hw := words_enqueue w s h1
      have hl : (enqueue w s).fifo.count = s.fifo.count + 1 := by
        rw [← Fifo.words_length, hw]
        simp
      obtain ⟨n, hn⟩ : ∃ n, 511 - s.fifo.count = n + 1 := ⟨510 - s.fifo.count, by omega⟩
      have hn' : 511 - (s.fifo.count + 1) = n := by omega
      rw [hw, hl, hn, hn', List.take_succ_cons, List.append_assoc]
      rfl

/-- `Dequeue` on a queue that is not empty returns the first word and leaves the others (R152). -/
theorem dequeue_cons {s : State} {x : Half} {xs : List Half} (h : s.fifo.words = x :: xs) :
    (dequeue s).1 = x ∧ (dequeue s).2 = { s with fifo := { s.fifo with rd := slotAfter s.fifo.rd } } ∧
      (dequeue s).2.fifo.words = xs := by
  have hc : s.fifo.count ≠ 0 := by
    rw [← Fifo.words_length, h]
    simp
  have he : s.fifo.empty = false := by
    rw [Bool.eq_false_iff, ne_eq, Fifo.empty_iff]
    exact hc
  have hp := Fifo.words_pop s.fifo hc
  rw [h, List.cons.injEq] at hp
  simp only [dequeue, he, Bool.false_eq_true, if_false]
  exact ⟨hp.1.symm, trivial, hp.2.symm⟩

end Sys2Proof.Machine
end

