-- ==== Sys2Proof/Laws/Dsa.lean ====
section
/-! SUPPORT. The dispatcher: the guard of a command (R160), and what no command's action touches (R162). -/

namespace Sys2Proof.Machine

-- One declaration after the other: the package as one text stays within its threads.
set_option Elab.async false

/-- A command is one of two things (R160): only stored, or stored, `tx_pending` set and its action run. -/
theorem dsaCommand_cases (w : Half) (a : State → Res) (s : State) :
    ((s.dsp.adapterOk = false ∨ w = 0) ∧ dsaCommand w a s = .next (storeHalf .dsdata .lo w s)) ∨
      (s.dsp.adapterOk = true ∧ w ≠ 0 ∧ dsaCommand w a s = a (setTxPending (storeHalf .dsdata .lo w s))) := by
  unfold dsaCommand
  by_cases h : s.dsp.adapterOk = false ∨ w = 0
  · exact .inl ⟨h, if_pos h⟩
  · rw [not_or, Bool.not_eq_false] at h
    exact .inr ⟨h.1, h.2, if_neg (by simpa using h)⟩

/-- A command past the guard. -/
theorem dsaCommand_go {w : Half} {a : State → Res} {s : State} (h1 : s.dsp.adapterOk = true) (h2 : w ≠ 0) :
    dsaCommand w a s = a (setTxPending (storeHalf .dsdata .lo w s)) := by
  rcases dsaCommand_cases w a s with ⟨h | h, _⟩ | ⟨_, _, h⟩
  · rw [h1] at h
    exact Bool.noConfusion h
  · exact absurd h h2
  · exact h

/-- Two actions that agree where the command runs them make the same command. -/
theorem dsaCommand_congr {w : Half} {a a' : State → Res} {s : State}
    (h : a (setTxPending (storeHalf .dsdata .lo w s)) = a' (setTxPending (storeHalf .dsdata .lo w s))) :
    dsaCommand w a s = dsaCommand w a' s := by
  unfold dsaCommand
  simp only [h]

/-- What an action may touch (R162): the queue but for its read cursor, the receive latch, which it does not clear, the
dispatcher but for the adapter's flag, the table, and of the pump the rate, the position (a cursor it moves goes to 0) and
`dirty`. -/
structure DispatchOnly (u t : State) : Prop where
  state : t = { u with rxPending := t.rxPending, fifo := t.fifo, dsp := t.dsp, toc := t.toc, pump := t.pump }
  rd : t.fifo.rd = u.fifo.rd
  adapter : t.dsp.adapterOk = u.dsp.adapterOk
  pump : t.pump = { u.pump with
    rate := t.pump.rate, sector := t.pump.sector, cursor := t.pump.cursor, dirty := t.pump.dirty }
  rx : u.rxPending = true → t.rxPending = true
  cursor : t.pump.cursor = u.pump.cursor ∨ t.pump.cursor = 0

theorem DispatchOnly.refl (u : State) : DispatchOnly u u := ⟨rfl, rfl, rfl, rfl, fun h => h, .inl rfl⟩

theorem DispatchOnly.trans {u v t : State} (h : DispatchOnly u v) (k : DispatchOnly v t) : DispatchOnly u t := by
  refine ⟨?_, k.rd.trans h.rd, k.adapter.trans h.adapter, ?_, k.rx ∘ h.rx, ?_⟩
  · rw [k.state, h.state]
  · rw [k.pump, h.pump]
  · rcases k.cursor with e | e
    · rw [e]
      exact h.cursor
    · exact .inr e

theorem enqueue_only (w : Half) (u : State) : DispatchOnly u (enqueue w u) := by
  rcases enqueue_cases w u with ⟨_, h⟩ | ⟨_, h⟩ <;> rw [h]
  · exact .refl u
  · exact ⟨rfl, rfl, rfl, rfl, fun _ => rfl, .inl rfl⟩

theorem enqueueAll_only (ws : List Half) (u : State) : DispatchOnly u (enqueueAll ws u) := by
  induction ws generalizing u with
  | nil => exact .refl u
  | cons w ws ih => exact (enqueue_only w u).trans (ih _)

/-- No action touches more. -/
theorem dsaAction_only {opc p : Byte} {k : DsaKind} {u t : State} (h : dsaAction opc p k u = .next t) :
    DispatchOnly u t := by
  cases k
  case playTrack => cases h; exact .refl u
  case stop => cases h; exact .refl u
  case pause => cases h; exact .refl u
  case unpause => cases h; exact .refl u
  case gotoMin => cases h; exact ⟨rfl, rfl, rfl, rfl, fun h => h, .inl rfl⟩
  case gotoSec => cases h; exact ⟨rfl, rfl, rfl, rfl, fun h => h, .inl rfl⟩
  case gotoFrm =>
    cases h
    refine DispatchOnly.trans ?_ (enqueue_only _ _)
    exact ⟨rfl, rfl, rfl, rfl, fun h => h, .inr rfl⟩
  case setMode =>
    cases h
    refine DispatchOnly.trans ?_ (enqueue_only _ _)
    exact ⟨rfl, rfl, rfl, rfl, fun h => h, .inl rfl⟩
  case oversample => cases h; exact enqueue_only _ _
  case readToc =>
    simp only [dsaAction, actReadToc] at h
    split at h
    · cases h
    · cases h
      refine DispatchOnly.trans ?_ (enqueueAll_only _ _)
      exact ⟨rfl, rfl, rfl, rfl, fun h => h, .inl rfl⟩
  case readLongToc =>
    simp only [dsaAction, actReadLongToc] at h
    split at h
    · cases h
    · cases h
      refine DispatchOnly.trans ?_ (enqueueAll_only _ _)
      exact ⟨rfl, rfl, rfl, rfl, fun h => h, .inl rfl⟩

theorem dispatchAction_only {w : Half} {u t : State} (h : dispatchAction w u = .next t) : DispatchOnly u t := by
  unfold dispatchAction at h
  split at h
  · exact dsaAction_only h
  · cases h
    exact .refl u

/-- A whole command touches `dsdata.lo`, `tx_pending`, and what its action may touch. -/
theorem dsaCommand_only {w : Half} {a : State → Res} {s t : State} (ha : ∀ u v, a u = .next v → DispatchOnly u v)
    (h : dsaCommand w a s = .next t) :
    ∃ tx, (s.txPending = true → tx = true) ∧ DispatchOnly { storeHalf .dsdata .lo w s with txPending := tx } t := by
  rcases dsaCommand_cases w a s with ⟨_, e⟩ | ⟨_, _, e⟩
  · rw [e] at h
    cases h
    exact ⟨s.txPending, id, .refl _⟩
  · rw [e] at h
    exact ⟨true, fun _ => rfl, ha _ _ h⟩

end Sys2Proof.Machine
end

