-- ==== Sys2Proof/Laws/Pump.lean ====
section
/-! SUPPORT. The pump: what a reload, a fetch and a whole tick come to. -/

namespace Sys2Proof.Machine

-- One declaration after the other: the package as one text stays within its threads.
set_option Elab.async false

/-- A reload is one of three things (R236): nothing while the buffer is not dirty, the sector's bytes, or an invalid buffer. -/
theorem reload_cases (s : State) :
    (s.pump.dirty = false ∧ reload s = s) ∨
      (∃ bytes, s.pump.dirty = true ∧ s.disc.sectors.lookup s.pump.sector = some bytes ∧ reload s =
        { s with pump := { s.pump with buf := Memory.fill .sector bytes, bufValid := true, dirty := false } }) ∨
      (s.pump.dirty = true ∧ s.disc.sectors.lookup s.pump.sector = none ∧ reload s =
        { s with
          pump := { s.pump with
            buf := Memory.fill .sector (Config.failedReadBytes s.draws), bufValid := false, dirty := false }
          draws := s.draws + 1 }) := by
  unfold reload readSector
  cases hd : s.pump.dirty with
  | false => exact .inl ⟨rfl, rfl⟩
  | true =>
    cases hl : s.disc.sectors.lookup s.pump.sector with
    | some bytes => exact .inr (.inl ⟨bytes, rfl, rfl, rfl⟩)
    | none => exact .inr (.inr ⟨rfl, rfl, rfl⟩)

/-- A reload keeps everything but the buffer, its flags and the draws. -/
theorem reload_keeps (s : State) :
    reload s = { s with
      pump := { s.pump with buf := (reload s).pump.buf, bufValid := (reload s).pump.bufValid, dirty := false }
      draws := (reload s).draws } := by
  rcases reload_cases s with ⟨hd, h⟩ | ⟨_, _, _, h⟩ | ⟨_, _, h⟩ <;> rw [h]
  cases s with | mk regs tx rx ov fifo dsp toc pump =>
  cases pump
  simp_all

/-- A reload leaves a canonical buffer canonical. -/
theorem reload_wf (s : State) (h : Memory.wf .sector s.pump.buf = true) :
    Memory.wf .sector (reload s).pump.buf = true := by
  rcases reload_cases s with ⟨_, e⟩ | ⟨_, _, _, e⟩ | ⟨_, _, e⟩ <;> rw [e]
  · exact h
  · exact Memory.wf_fill _ _
  · exact Memory.wf_fill _ _

theorem fetchWord_ok (s : State) (h : s.pump.cursor + 2 ≤ 2352) :
    fetchWord s = .ok (fetchedWord (reload s), { reload s with pump := advance (reload s).pump }) := by
  simp [fetchWord, h]

/-- A fetch that does not have to reload. -/
theorem fetchWord_clean (s : State) (h : s.pump.cursor + 2 ≤ 2352) (hd : s.pump.dirty = false) :
    fetchWord s = .ok (fetchedWord s, { s with pump := advance s.pump }) := by
  rw [fetchWord_ok s h]
  simp [reload, hd]

/-- The state after the tick's two fetches, before its outputs: the buffer `b` is loaded and the cursor is one pair on. -/
def afterPair (b : State) : State :=
  { b with
    pump :=
      { b.pump with
        armed := false
        sector := if b.pump.cursor = 2348 then b.pump.sector + 1 else b.pump.sector
        cursor := if b.pump.cursor = 2348 then 0 else b.pump.cursor + 4
        dirty := decide (b.pump.cursor = 2348) } }

/-- The word `k` bytes behind the cursor. -/
def wordAt (b : State) (k : Nat) : Half :=
  if b.pump.bufValid then
    pcmWord b.cfg (Memory.read .sector b.pump.buf (b.pump.cursor + k)) (Memory.read .sector b.pump.buf (b.pump.cursor + k + 1))
  else 0xFFFF

/-- A tick of an armed pump whose cursor is at a pair (R240): it reloads, takes two words of one sector, exposes them, emits its
event and re-arms while enabled. -/
theorem tick_eq (s : State) (ha : s.pump.armed = true) (hc : CursorInv s.pump) :
    tick s = .next (rearm (emit .audioReady
      (exposePair (wordAt (reload s) 0) (wordAt (reload s) 2) (afterPair (reload s))))) := by
  have hb := hc.bound
  have hp := hc.atPair
  have hk : (reload s).pump.cursor = s.pump.cursor := by rw [reload_keeps s]
  have hdirty : (reload s).pump.dirty = false := by rw [reload_keeps s]
  have hre : reload { s with pump := { s.pump with armed := false } } =
      { reload s with pump := { (reload s).pump with armed := false } } := by
    rcases reload_cases s with ⟨hd, h⟩ | ⟨bytes, hd, hl, h⟩ | ⟨hd, hl, h⟩ <;> rw [h] <;> simp [reload, readSector, *]
  have h1 := fetchWord_ok { s with pump := { s.pump with armed := false } } (by dsimp only; omega)
  rw [hre] at h1
  have hadv : advance { (reload s).pump with armed := false } =
      { (reload s).pump with armed := false, cursor := s.pump.cursor + 2 } := by
    have : ¬ (s.pump.cursor + 2 ≥ 2352) := by omega
    simp [advance, hk, this]
  have h2 := fetchWord_clean
    { reload s with pump := { (reload s).pump with armed := false, cursor := s.pump.cursor + 2 } }
    (by dsimp only; omega) hdirty
  unfold tick
  simp only [ha, if_true, h1, hadv, h2]
  have e1 : fetchedWord { reload s with pump := { (reload s).pump with armed := false } } = wordAt (reload s) 0 := rfl
  have e2 : fetchedWord { reload s with pump := { (reload s).pump with armed := false, cursor := s.pump.cursor + 2 } } =
      wordAt (reload s) 2 := by
    simp only [fetchedWord, wordAt, hk]
  have e3 : ({ reload s with pump := advance { (reload s).pump with armed := false, cursor := s.pump.cursor + 2 } } : State) =
      afterPair (reload s) := by
    simp only [advance, afterPair, hk]
    by_cases h : s.pump.cursor = 2348
    · simp [h]
    · have : ¬ (s.pump.cursor + 2 + 2 ≥ 2352) := by omega
      simp [h, this, hdirty]
  rw [e1, e2, e3]

/-- A tick touches the pump, the draws and the trace, and appends its event; it happens only while armed. -/
theorem tick_only {s t : State} (h : tick s = .next t) :
    ∃ d p, t = { s with pump := p, draws := d, events := s.events ++ [.audioReady] } ∧ s.pump.armed = true := by
  unfold tick at h
  have f : ∀ {u v : State} {w}, fetchWord u = .ok (w, v) → ∃ d p, v = { u with pump := p, draws := d } := by
    intro u v w h
    unfold fetchWord at h
    split at h
    · cases h
      refine ⟨_, _, by rw [reload_keeps u]⟩
    · cases h
  split at h
  · next ha =>
    split at h
    · cases h
    · next l s1 h1 =>
      split at h
      · cases h
      · next r s2 h2 =>
        cases h
        obtain ⟨d, p, e1⟩ := f h1
        obtain ⟨d', p', e2⟩ := f h2
        subst e2; subst e1
        unfold rearm
        split
        · exact ⟨_, _, rfl, ha⟩
        · exact ⟨_, _, rfl, ha⟩
  · cases h

end Sys2Proof.Machine
end

