-- ==== Sys2Proof/Laws/UnitEeprom.lean ====
section
/-! SUPPORT. The CD-unit engine: the lines of a written value, what a clock pulse does in each phase, what a whole packet comes
to from a selected engine. -/

namespace Sys2Proof.Machine

-- One declaration after the other: the package as one text stays within its threads.
set_option Elab.async false

/-! ## Lines -/

/-- The three lines have positions of their own (R341). -/
def LinesApart (c : Config) : Prop :=
  c.unitCsBit ≠ c.unitClkBit ∧ c.unitCsBit ≠ c.unitDiBit ∧ c.unitClkBit ≠ c.unitDiBit

theorem configOk_lines {c : Config} (h : configOk c = true) : LinesApart c := by
  simp only [configOk, Bool.and_eq_true, bne_iff_ne, ne_eq] at h
  exact ⟨h.1.2.1.1, h.1.2.1.2, h.1.2.2⟩

theorem lineBit (b : Bool) (k j : Fin 16) :
    ((BitVec.ofBool b).setWidth 16 <<< k.val).getLsbD j.val = (b && decide (k = j)) := by
  revert b k j
  decide +kernel

theorem linesValue_getLsbD (c : Config) (cs clk di : Bool) (j : Fin 16) :
    (linesValue c cs clk di).getLsbD j.val =
      ((cs && decide (c.unitCsBit = j)) || ((clk && decide (c.unitClkBit = j)) || (di && decide (c.unitDiBit = j)))) := by
  rw [linesValue, BitVec.getLsbD_or, BitVec.getLsbD_or, lineBit, lineBit, lineBit, Bool.or_assoc]

theorem lineCs_linesValue {c : Config} (h : LinesApart c) (cs clk di : Bool) :
    c.lineCs (linesValue c cs clk di) = cs := by
  rw [Config.lineCs, linesValue_getLsbD]
  simp [h.1.symm, h.2.1.symm]

theorem lineClk_linesValue {c : Config} (h : LinesApart c) (cs clk di : Bool) :
    c.lineClk (linesValue c cs clk di) = clk := by
  rw [Config.lineClk, linesValue_getLsbD]
  simp [h.1, h.2.2.symm]

theorem lineDi_linesValue {c : Config} (h : LinesApart c) (cs clk di : Bool) :
    c.lineDi (linesValue c cs clk di) = di := by
  rw [Config.lineDi, linesValue_getLsbD]
  simp [h.2.1, h.2.2]

theorem pulse_low (c : Config) (prev : Bool) : c.pulse false prev = false := by
  unfold Config.pulse
  cases c.unitClockEvent <;> simp

theorem pulse_high {c : Config} {prev : Bool} (h : c.unitClockEvent = .risingEdge → prev = false) :
    c.pulse true prev = true := by
  unfold Config.pulse
  cases hc : c.unitClockEvent <;> simp [hc] at h ⊢
  exact h

/-! ## One pulse -/

theorem setHalf_setHalf (g : Regs) (r : RegName) (h : RegHalf) (v w : Half) :
    (g.setHalf r h v).setHalf r h w = g.setHalf r h w := by
  cases r <;> cases h <;> rfl

theorem setHalf_half (g : Regs) (r : RegName) (h : RegHalf) : g.setHalf r h (g.half r h) = g := by
  cases r <;> cases h <;> rfl

/-- The state with a value in the line half and an engine behind it. -/
def onLines (v : Half) (u : UnitEngine) (s : State) : State :=
  { storeHalf .eebus s.cfg.unitBusHalf v s with unit := u }

@[simp] theorem onLines_cfg (v : Half) (u : UnitEngine) (s : State) : (onLines v u s).cfg = s.cfg := rfl

@[simp] theorem onLines_unit (v : Half) (u : UnitEngine) (s : State) : (onLines v u s).unit = u := rfl

theorem onLines_onLines (v w : Half) (u x : UnitEngine) (s : State) : onLines w x (onLines v u s) = onLines w x s := by
  simp [onLines, storeHalf, setHalf_setHalf]

theorem onLines_self (s : State) : onLines (s.regs.half .eebus s.cfg.unitBusHalf) s.unit s = s := by
  simp [onLines, storeHalf, setHalf_half]

/-- A write of the line half leaves the written value and the engine's next state, and nothing else but the image. -/
theorem lineWrite_eq (v : Half) (s : State) :
    lineWrite v s =
      putUnit (unitNext s.cfg (s.cfg.lineCs v) (s.cfg.lineClk v) (s.cfg.lineDi v) s.unit) (onLines v s.unit s) := by
  simp [lineWrite, putUnit, onLines, storeHalf, persistUnit, emit]

theorem putUnit_onLines (n : UnitEngine × Bool) (v : Half) (u x : UnitEngine) (s : State) :
    putUnit n (onLines v u s) = putUnit n (onLines v x s) := by
  simp [putUnit, onLines, persistUnit, emit]

/-- The ninth command pulse. -/
theorem lineWrite_lastCommand {v : Half} {s : State} (hs : s.cfg.lineCs v = false) (hk : s.cfg.lineClk v = true)
    (hp : s.cfg.unitClockEvent = .risingEdge → s.unit.prevClk = false) (hr : s.unit.ready = true)
    (hc : s.unit.cmdCnt = 8) :
    lineWrite v s =
      putUnit (unitDecode s.cfg { s.unit with
        cmd := shiftIn s.unit.cmd (s.cfg.lineDi v), cmdCnt := 9, ready := false, prevClk := true })
        (storeHalf .eebus s.cfg.unitBusHalf v s) := by
  simp [lineWrite, unitNext, hs, hk, pulse_high hp, unitPulse, hr, hc, unitCommandBit, unitShiftCmd]

/-- A pulse: what it does to the engine, the strobe down again, the last written value stored. -/
theorem pulseBit_eq {b : Bool} {s : State} (hl : LinesApart s.cfg)
    (hp : s.cfg.unitClockEvent = .risingEdge → s.unit.prevClk = false) :
    pulseBit b s =
      putUnit ({ (unitPulse s.cfg b { s.unit with prevClk := true }).1 with prevClk := false },
          (unitPulse s.cfg b { s.unit with prevClk := true }).2)
        (onLines (linesValue s.cfg false false b) s.unit s) := by
  have hup : unitNext s.cfg (s.cfg.lineCs (linesValue s.cfg false true b)) (s.cfg.lineClk (linesValue s.cfg false true b))
      (s.cfg.lineDi (linesValue s.cfg false true b)) s.unit = unitPulse s.cfg b { s.unit with prevClk := true } := by
    simp [lineCs_linesValue hl, lineClk_linesValue hl, lineDi_linesValue hl, unitNext, pulse_high hp]
  rw [pulseBit, lineWrite_eq (linesValue s.cfg false true b) s, hup]
  generalize unitPulse s.cfg b { s.unit with prevClk := true } = n
  have hcfg : (putUnit n (onLines (linesValue s.cfg false true b) s.unit s)).cfg = s.cfg := by
    simp only [putUnit]; split <;> rfl
  rw [lineWrite_eq, hcfg]
  simp only [lineCs_linesValue hl, lineClk_linesValue hl, unitNext, pulse_low, Bool.false_eq_true, if_false]
  cases hn : n.2 <;> simp [putUnit, hn, onLines, storeHalf, persistUnit, emit, setHalf_setHalf]

/-- The same from a state given by its lines and its engine. -/
theorem pulseBit_onLines {b : Bool} {v : Half} {u : UnitEngine} {s : State} (hl : LinesApart s.cfg)
    (hp : s.cfg.unitClockEvent = .risingEdge → u.prevClk = false) :
    pulseBit b (onLines v u s) =
      putUnit ({ (unitPulse s.cfg b { u with prevClk := true }).1 with prevClk := false },
          (unitPulse s.cfg b { u with prevClk := true }).2)
        (onLines (linesValue s.cfg false false b) s.unit s) := by
  have h : (onLines v u s).cfg.unitClockEvent = .risingEdge → (onLines v u s).unit.prevClk = false := hp
  have hl' : LinesApart (onLines v u s).cfg := hl
  rw [pulseBit_eq hl' h, onLines_onLines, putUnit_onLines _ _ _ s.unit]
  rfl

/-! ## The bits of a packet -/

@[simp] theorem pulseBits_nil (s : State) : pulseBits [] s = s := rfl

@[simp] theorem pulseBits_cons (b : Bool) (bits : List Bool) (s : State) :
    pulseBits (b :: bits) s = pulseBits bits (pulseBit b s) := rfl

theorem pulseBits_append (xs ys : List Bool) (s : State) :
    pulseBits (xs ++ ys) s = pulseBits ys (pulseBits xs s) := by
  simp [pulseBits]

/-- Command bits short of the ninth only assemble the command register (R307). -/
theorem pulseBits_command (bits : List Bool) (s : State) (hl : LinesApart s.cfg)
    (v : Half) (u : UnitEngine) (hr : u.ready = true) (hc : u.cmdCnt + bits.length < 9)
    (hp : s.cfg.unitClockEvent = .risingEdge → u.prevClk = false) :
    ∃ w p, (s.cfg.unitClockEvent = .risingEdge → p = false) ∧
      pulseBits bits (onLines v u s) =
        onLines w { u with
          cmd := bits.foldl shiftIn u.cmd, cmdCnt := u.cmdCnt + bits.length, prevClk := p } s := by
  induction bits generalizing v u with
  | nil => exact ⟨v, u.prevClk, hp, by simp⟩
  | cons b bs ih =>
    simp only [List.length_cons] at hc
    have hlt : u.cmdCnt < 9 := by omega
    have hne : ¬ (u.cmdCnt + 1 = 9) := by omega
    have hstep : pulseBit b (onLines v u s) = onLines (linesValue s.cfg false false b)
        { u with cmd := shiftIn u.cmd b, cmdCnt := u.cmdCnt + 1, prevClk := false } s := by
      rw [pulseBit_onLines hl hp]
      simp [putUnit, unitPulse, unitCommandBit, unitShiftCmd, hr, hlt, hne]
      simp [onLines, storeHalf]
    obtain ⟨w, p, h1, h2⟩ := ih (linesValue s.cfg false false b)
      { u with cmd := shiftIn u.cmd b, cmdCnt := u.cmdCnt + 1, prevClk := false } hr
      (by change u.cmdCnt + 1 + bs.length < 9; omega) (fun _ => rfl)
    refine ⟨w, p, h1, ?_⟩
    have e : u.cmdCnt + 1 + bs.length = u.cmdCnt + (bs.length + 1) := by omega
    rw [pulseBits_cons, hstep, h2]
    simp [e]

/-- Data bits short of the sixteenth only shift the accumulator (R313). -/
theorem pulseBits_data (bits : List Bool) (s : State) (hl : LinesApart s.cfg)
    (v : Half) (u : UnitEngine) (hr : u.ready = false) (hd : u.dop ≠ .none) (hc : u.dataCnt + bits.length < 16)
    (hp : s.cfg.unitClockEvent = .risingEdge → u.prevClk = false) :
    ∃ w p, (s.cfg.unitClockEvent = .risingEdge → p = false) ∧
      pulseBits bits (onLines v u s) =
        onLines w { u with
          acc := bits.foldl shiftIn u.acc, dataCnt := u.dataCnt + bits.length, prevClk := p } s := by
  induction bits generalizing v u with
  | nil => exact ⟨v, u.prevClk, hp, by simp⟩
  | cons b bs ih =>
    simp only [List.length_cons] at hc
    have hne : ¬ (u.dataCnt + 1 = 16) := by omega
    have hstep : pulseBit b (onLines v u s) = onLines (linesValue s.cfg false false b)
        { u with acc := shiftIn u.acc b, dataCnt := u.dataCnt + 1, prevClk := false } s := by
      rw [pulseBit_onLines hl hp]
      simp [putUnit, unitPulse, unitDataBit, unitShiftData, hr, hd, hne]
      simp [onLines, storeHalf]
    obtain ⟨w, p, h1, h2⟩ := ih (linesValue s.cfg false false b)
      { u with acc := shiftIn u.acc b, dataCnt := u.dataCnt + 1, prevClk := false } hr hd
      (by change u.dataCnt + 1 + bs.length < 16; omega) (fun _ => rfl)
    refine ⟨w, p, h1, ?_⟩
    have e : u.dataCnt + 1 + bs.length = u.dataCnt + (bs.length + 1) := by omega
    rw [pulseBits_cons, hstep, h2]
    simp [e]

/-! ## A whole packet -/

/-- The engine once the nine bits are in, before `Decode` (R307). -/
def unitPacketIn (start : Bool) (op : BitVec 2) (a : BitVec 6) (u : UnitEngine) : UnitEngine :=
  { u with cmd := BitVec.ofBool start ++ op ++ a, cmdCnt := 9, ready := false, prevClk := false }

/-- `Decode` neither reads nor changes the strobe. -/
theorem unitDecode_prevClk (c : Config) (u : UnitEngine) (b : Bool) :
    (({ (unitDecode c u).1 with prevClk := b }, (unitDecode c u).2) : UnitEngine × Bool) =
      unitDecode c { u with prevClk := b } := by
  simp only [unitDecode, unitCommit, unitBegin]
  split
  · rfl
  · split
    · split <;> first | rfl | (split <;> rfl)
    · rfl
    · rfl
    · split <;> rfl

/-- The end of a data phase neither reads nor changes the strobe. -/
theorem unitDataDone_prevClk (u : UnitEngine) (b : Bool) :
    (({ (unitDataDone u).1 with prevClk := b }, (unitDataDone u).2) : UnitEngine × Bool) =
      unitDataDone { u with prevClk := b } := by
  simp only [unitDataDone, unitCommit]
  split <;> first | rfl | (split <;> rfl)

/-- The last bit of a list of known length, apart from the others. -/
theorem splitLast {l : List Bool} {n : Nat} (h : l.length = n + 1) : ∃ init last, l = init ++ [last] ∧ init.length = n := by
  have hne : l ≠ [] := by
    intro h0
    simp [h0] at h
  refine ⟨l.dropLast, l.getLast hne, (List.dropLast_concat_getLast hne).symm, ?_⟩
  simp [h]

/-- Nine pulses to a selected engine are `Decode` on the packet (R307), in the state that stores the last written value. -/
theorem unitPacket_of_selected (start : Bool) (op : BitVec 2) (a : BitVec 6) (s : State) (hl : LinesApart s.cfg)
    (hs : s.unit.selected s.cfg) :
    unitPacket start op a s =
      putUnit (unitDecode s.cfg (unitPacketIn start op a s.unit))
        (onLines (linesValue s.cfg false false (a.getLsbD 0)) s.unit s) := by
  obtain ⟨hr, hc, -, hp⟩ := hs
  have hlen : (headBits start op a).length = 8 + 1 := by simp [headBits]
  have hlast : (headBits start op a).getLast? = some (a.getLsbD 0) := by
    revert start op a
    decide +kernel
  obtain ⟨init, last, hb, hi⟩ := splitLast hlen
  rw [hb, List.getLast?_concat, Option.some_inj] at hlast
  have hfold : shiftIn (init.foldl shiftIn s.unit.cmd) last = BitVec.ofBool start ++ op ++ a := by
    have := foldl_shiftIn_head start op a s.unit.cmd
    rw [hb] at this
    simpa using this
  obtain ⟨w, p, hp1, h1⟩ := pulseBits_command init s hl (s.regs.half .eebus s.cfg.unitBusHalf) s.unit hr (by omega) hp
  rw [onLines_self] at h1
  rw [unitPacket, hb, pulseBits_append, h1, pulseBits_cons, pulseBits_nil, pulseBit_onLines hl hp1, hlast]
  simp only [unitPulse, unitCommandBit, unitShiftCmd, hr, hc, hi]
  simp only [Nat.zero_add, Nat.reduceLT, Nat.reduceAdd, decide_true, Bool.and_self, if_true, unitDecode_prevClk]
  rw [← hlast, hfold]
  rfl

/-- Sixteen pulses to an engine that has just begun a data phase are the end of that phase on the shifted accumulator (R313). -/
theorem pulseBits_word (d : Half) (s : State) (hl : LinesApart s.cfg) (v : Half) (u : UnitEngine) (hr : u.ready = false)
    (hd : u.dop ≠ .none) (hc : u.dataCnt = 0) (hp : s.cfg.unitClockEvent = .risingEdge → u.prevClk = false) :
    pulseBits (bitsMsb d) (onLines v u s) =
      putUnit (unitDataDone { u with acc := (bitsMsb d).foldl shiftIn u.acc, dataCnt := 16, prevClk := false })
        (onLines (linesValue s.cfg false false (d.getLsbD 0)) u s) := by
  have hlen : (bitsMsb d).length = 15 + 1 := bitsMsb_length d
  have hlast : (bitsMsb d).getLast? = some (d.getLsbD 0) := by
    have : bitsMsb d = ((List.range 15).map fun i => d.getMsbD i) ++ [d.getMsbD 15] := by
      rw [bitsMsb, List.range_succ, List.map_append]
      rfl
    rw [this, List.getLast?_concat]
    simp [BitVec.getMsbD_eq_getLsbD]
  obtain ⟨init, last, hb, hi⟩ := splitLast hlen
  rw [hb, List.getLast?_concat, Option.some_inj] at hlast
  obtain ⟨w, p, hp1, h1⟩ := pulseBits_data init s hl v u hr hd (by omega) hp
  rw [hb, pulseBits_append, h1, pulseBits_cons, pulseBits_nil, pulseBit_onLines hl hp1, hlast, putUnit_onLines _ _ _ u]
  simp only [unitPulse, unitDataBit, unitShiftData, hr, hc, hi]
  simp only [Nat.zero_add, Nat.reduceAdd, Bool.false_and, Bool.false_eq_true, if_false, ne_eq, hd, not_false_eq_true,
    if_true, unitDataDone_prevClk, List.foldl_append, List.foldl_cons, List.foldl_nil]

/-- `Decode` on an assembled packet, by its fields (R307), where the first bit is 1 or is not looked at (R308). -/
theorem unitDecode_packetIn {c : Config} {start : Bool} (h : start = true ∨ c.unitStartBitCheck = false) (op : BitVec 2)
    (a : BitVec 6) (u : UnitEngine) :
    unitDecode c (unitPacketIn start op a u) =
      match op with
      | 0 =>
        match subOp a with
        | 0 => ({ unitPacketIn start op a u with wen := false }, false)
        | 1 => (unitBegin .wral a 0 (unitPacketIn start op a u), false)
        | 2 => unitCommit (Vector.replicate 64 0xFFFF) true (unitPacketIn start op a u)
        | 3 => ({ unitPacketIn start op a u with wen := true }, false)
      | 1 => (unitBegin .write a 0 (unitPacketIn start op a u), false)
      | 2 => (unitBegin .read a ((u.arr[a.toNat]).setWidth 32) (unitPacketIn start op a u), false)
      | 3 => unitCommit (u.arr.set a.toNat 0xFFFF) c.unitErasePersists (unitPacketIn start op a u) := by
  have hs : (c.unitStartBitCheck && !start) = false := by
    rcases h with h | h <;> simp [h]
  unfold unitDecode
  simp only [unitPacketIn, packet_address, packet_opcode, packet_start, hs, Bool.false_eq_true, if_false] <;> rfl

/-! ## What a write of the lines may touch -/

/-- What writes of the line half may touch: that half, the engine, its image and the trace; the image with the trace. -/
def UnitOnly (s t : State) : Prop :=
  ∃ v u n new, t = { storeHalf .eebus s.cfg.unitBusHalf v s with unit := u, nvUnit := n, events := s.events ++ new } ∧
    (new = [] → n = s.nvUnit) ∧ Event.audioReady ∉ new

theorem UnitOnly.trans {s t u : State} (h : UnitOnly s t) (k : UnitOnly t u) : UnitOnly s u := by
  obtain ⟨v, x, n, new, rfl, h1, h2⟩ := h
  obtain ⟨v', x', n', new', rfl, k1, k2⟩ := k
  refine ⟨v', x', n', new ++ new', by simp [storeHalf, setHalf_setHalf], fun hn => ?_, by simp [h2, k2]⟩
  rw [List.append_eq_nil_iff] at hn
  exact (k1 hn.2).trans (h1 hn.1)

theorem lineWrite_only (v : Half) (s : State) : UnitOnly s (lineWrite v s) := by
  unfold lineWrite putUnit
  split
  · exact ⟨v, _, _, [_], rfl, nofun, by simp⟩
  · refine ⟨v, (unitNext s.cfg (s.cfg.lineCs v) (s.cfg.lineClk v) (s.cfg.lineDi v) s.unit).1, s.nvUnit, [], ?_,
      fun _ => rfl, nofun⟩
    rw [List.append_nil]
    rfl

theorem pulseBit_only (b : Bool) (s : State) : UnitOnly s (pulseBit b s) :=
  (lineWrite_only _ _).trans (lineWrite_only _ _)

theorem pulseBits_only (bits : List Bool) (s : State) (h : bits ≠ []) : UnitOnly s (pulseBits bits s) := by
  induction bits generalizing s with
  | nil => exact absurd rfl h
  | cons b bs ih =>
    rw [pulseBits_cons]
    cases bs with
    | nil => exact pulseBit_only b s
    | cons c cs => exact (pulseBit_only b s).trans (ih _ nofun)

/-! ## The engine's invariant -/

theorem unitSelect_inv (u : UnitEngine) : UnitInv (unitSelect u) :=
  ⟨fun _ => ⟨by simp [unitSelect], rfl⟩, fun h => absurd rfl h⟩

theorem unitCommit_inv {arr : Vector Half 64} {p : Bool} {u : UnitEngine} (h : UnitInv u) :
    UnitInv (unitCommit arr p u).1 := by
  unfold unitCommit
  split
  · exact ⟨h.command, h.data⟩
  · exact h

theorem unitDecode_inv {c : Config} {u : UnitEngine} (hr : u.ready = false) (hd : u.dop = .none) :
    UnitInv (unitDecode c u).1 := by
  have h : UnitInv u := ⟨by simp [hr], by simp [hd]⟩
  unfold unitDecode
  simp only []
  split
  · exact ⟨nofun, fun h => absurd rfl h⟩
  · split
    · split
      · exact ⟨h.command, h.data⟩
      · exact ⟨by simp [unitBegin, hr], fun _ => ⟨by simp [unitBegin], by simp [unitBegin, hr]⟩⟩
      · exact unitCommit_inv h
      · exact ⟨h.command, h.data⟩
    · exact ⟨by simp [unitBegin, hr], fun _ => ⟨by simp [unitBegin], by simp [unitBegin, hr]⟩⟩
    · exact ⟨by simp [unitBegin, hr], fun _ => ⟨by simp [unitBegin], by simp [unitBegin, hr]⟩⟩
    · exact unitCommit_inv h

/-- One write of the lines keeps the engine's invariant. -/
theorem unitNext_inv (c : Config) (cs clk di : Bool) (u : UnitEngine) (h : UnitInv u) :
    UnitInv (unitNext c cs clk di u).1 := by
  have hk : ∀ b, UnitInv { u with prevClk := b } := fun _ => ⟨h.command, h.data⟩
  unfold unitNext
  split
  · exact ⟨(unitSelect_inv u).command, (unitSelect_inv u).data⟩
  · split
    · unfold unitPulse
      split
      · next hr =>
        simp only [Bool.and_eq_true, decide_eq_true_eq] at hr
        unfold unitCommandBit
        split
        · exact unitDecode_inv rfl (h.command hr.1).2
        · next hn =>
          simp only [unitShiftCmd] at hn ⊢
          exact ⟨fun h' => ⟨by change u.cmdCnt + 1 < 9; omega, (h.command h').2⟩, h.data⟩
      · split
        · next hd =>
          have h' := h.data hd
          unfold unitDataBit
          split
          · unfold unitDataDone unitCommit
            have hi : ∀ (arr : Vector Half 64), UnitInv { unitShiftData di { u with prevClk := clk } with
                dop := .none, arr := arr } := fun _ =>
              ⟨by simp [unitShiftData, h'.2], fun x => absurd rfl x⟩
            simp only []
            split
            · split
              · exact hi _
              · exact hi _
            · split
              · exact hi _
              · exact hi _
            · exact hi _
            · exact hi _
          · next hn =>
            simp only [unitShiftData] at hn ⊢
            exact ⟨h.command, fun _ => ⟨by change u.dataCnt + 1 < 16; omega, h'.2⟩⟩
        · exact hk _
    · exact hk _

/-! ## The array changes only under the latch (R61) -/

theorem unitCommit_arr {arr p u} (h : (unitCommit arr p u).1.arr ≠ u.arr) : u.wen = true := by
  unfold unitCommit at h
  split at h
  · assumption
  · exact absurd rfl h

theorem unitNext_arr {c cs clk di u} (h : (unitNext c cs clk di u).1.arr ≠ u.arr) : u.wen = true := by
  unfold unitNext at h
  split at h
  · exact absurd rfl h
  · split at h
    · unfold unitPulse at h
      split at h
      · unfold unitCommandBit at h
        split at h
        · unfold unitDecode at h
          simp only at h
          split at h
          · exact absurd rfl h
          · split at h
            · split at h
              · exact absurd rfl h
              · exact absurd rfl h
              · exact unitCommit_arr (u := { unitShiftCmd di { u with prevClk := clk } with ready := false }) h
              · exact absurd rfl h
            · exact absurd rfl h
            · exact absurd rfl h
            · exact unitCommit_arr (u := { unitShiftCmd di { u with prevClk := clk } with ready := false }) h
        · exact absurd rfl h
      · split at h
        · unfold unitDataBit at h
          split at h
          · unfold unitDataDone at h
            simp only at h
            split at h
            · exact unitCommit_arr (u := { unitShiftData di { u with prevClk := clk } with dop := .none }) h
            · exact unitCommit_arr (u := { unitShiftData di { u with prevClk := clk } with dop := .none }) h
            · exact absurd rfl h
            · exact absurd rfl h
          · exact absurd rfl h
        · exact absurd rfl h
    · exact absurd rfl h

theorem lineWrite_arr {v s} (h : (lineWrite v s).unit.arr ≠ s.unit.arr) : s.unit.wen = true := by
  apply unitNext_arr (c := s.cfg) (cs := s.cfg.lineCs v) (clk := s.cfg.lineClk v) (di := s.cfg.lineDi v)
  unfold lineWrite putUnit at h
  split at h <;> exact h

end Sys2Proof.Machine
end

