-- ==== Sys2Proof/Laws/Exec.lean ====
section
/-! SUPPORT. What one operation can do, said once for all of them: `exec_did`. A statement about every operation follows from it
by cases on the fourteen things an operation does. -/

namespace Sys2Proof.Machine

-- One declaration after the other: the package as one text stays within its threads.
set_option Elab.async false

/-- The rows that are a whole cartridge frame. -/
def cartFrameRow : Instr → Bool
  | .cartEwds _ _ | .cartWral _ _ _ | .cartEral _ _ | .cartEwen _ _ | .cartWrite _ _ _ | .cartRead _ _ | .cartErase _ _ => true
  | _ => false

/-- The rows that are a whole packet of the CD-unit. -/
def unitPacketRow : Instr → Bool
  | .unitEwds _ _ | .unitWral _ _ _ | .unitEral _ _ | .unitEwen _ _ | .unitWrite _ _ _ | .unitRead _ _ | .unitErase _ _
  | .unitMalformed _ _ => true
  | _ => false

/-- The rows that are one write of the line half. -/
def unitLineRow : Instr → Bool
  | .unitLinesWrite _ | .unitChipselect _ | .unitCommandBit _ | .unitDataBit _ | .w16EebusHi _ | .w16EebusLo _ => true
  | _ => false

/-- What operation `i` does to state `s` when it answers `t`. -/
inductive Did : Instr → State → State → Prop
  | reset {s} : Did .reset s (resetBlock s)
  | tick {s t} (h : tick s = .next t) : Did .pumpTick s t
  | none {i s} : Did i s s
  | read {i s} (v : Half) : Did i s { s with result := v }
  | acknowledge {s} (v : Half) (h : s.fifo.rd = s.fifo.wr) :
    Did .r16DsctrlLo s { s with result := v, rxPending := false }
  | dequeue {i s} (v : Half) (r : Fin 512) : Did i s { s with result := v, fifo := { s.fifo with rd := r } }
  | store {i s} (r : RegName) (h : RegHalf) (v : Half) : Did i s (storeHalf r h v s)
  | overlay {i s} (h : RegHalf) (v : Half) : Did i s (overlayHook (storeHalf .ctrl h v s))
  | arm {i s} (h : RegHalf) (v : Half) : Did i s (schedule (storeHalf .i2cntrl h v s))
  | command {i s t} (w : Half) (tx : Bool) (htx : s.txPending = true → tx = true)
    (h : DispatchOnly { storeHalf .dsdata .lo w s with txPending := tx } t) : Did i s t
  | cartClock {i s} (b : Bool) (hi : i = .cartClock b ∨ i = .cartUnexpectedClock b) : Did i s (clockCart b s)
  | cartFrame {i s} (bits : List Bool) (hi : cartFrameRow i = true) : Did i s (clockCartBits bits s)
  | cartPort {i s} (v : Half) (e : CartEngine) (harr : e.arr = s.cart.arr) (hinv : CartInv s.cart → CartInv e) :
    Did i s { s with result := v, cart := e }
  | lines {i s} (v : Half) (hi : unitLineRow i = true) : Did i s (lineWrite v s)
  | packet {i s} (bits : List Bool) (hb : bits ≠ []) (hi : unitPacketRow i = true) : Did i s (pulseBits bits s)

theorem overlayHook_cases (s : State) : (overlayHook s = s) ∨ overlayHook s = emit .overlayDisable { s with overlayDisabled := true } := by
  unfold overlayHook; split
  · exact .inl rfl
  · exact .inr rfl

theorem cartQuery_arr (e : CartEngine) : (cartQuery e).2.arr = e.arr := by
  unfold cartQuery
  split <;> rfl

theorem cartSelect_inv (e : CartEngine) : CartInv (cartSelect e) := ⟨nofun, nofun, nofun⟩

theorem did_eebusWrite {i : Instr} {h : RegHalf} {v : Half} {s t : State} (hi : unitLineRow i = true)
    (ht : eebusWrite h v s = .next t) : Did i s t := by
  unfold eebusWrite at ht
  split at ht <;> cases ht
  · exact .lines v hi
  · exact .store .eebus h v

theorem did_eebusRead {i : Instr} {h : RegHalf} {s t : State} (ht : eebusRead h s = .next t) : Did i s t := by
  unfold eebusRead at ht
  split at ht <;> cases ht <;> exact .read _

theorem did_ctrlWrite {i : Instr} {h : RegHalf} {v : Half} {s t : State} (ht : ctrlWrite h v s = .next t) :
    Did i s t := by
  cases ht
  exact .overlay h v

theorem did_i2cntrlWrite {i : Instr} {h : RegHalf} {v : Half} {s t : State} (ht : i2cntrlWrite h v s = .next t) :
    Did i s t := by
  unfold i2cntrlWrite at ht
  simp only at ht
  split at ht
  · unfold armPump at ht
    split at ht
    · split at ht
      · cases ht
        exact .store .i2cntrl h v
      · cases ht
    · cases ht
      exact .arm h v
  · cases ht
    exact .store .i2cntrl h v

theorem did_dsa {i : Instr} {w : Half} {a : State → Res} {s t : State}
    (ha : ∀ u v, a u = .next v → DispatchOnly u v) (ht : dsaCommand w a s = .next t) : Did i s t := by
  obtain ⟨tx, htx, h⟩ := dsaCommand_only ha ht
  exact .command w tx htx h

theorem did_dsaKind {i : Instr} {w : Half} {opc p : Byte} (k : DsaKind) {s t : State}
    (ht : dsaCommand w (dsaAction opc p k) s = .next t) : Did i s t :=
  did_dsa (fun _ _ => dsaAction_only) ht

theorem did_unrecognized {i : Instr} {w : Half} {s t : State} (ht : dsaCommand w actUnrecognized s = .next t) :
    Did i s t := by
  refine did_dsa (fun u v h => ?_) ht
  cases h
  exact .refl u

theorem did_cartFrame {i : Instr} {start : Bool} {op : BitVec 2} {a : BitVec 6} {s t : State} (hi : cartFrameRow i = true)
    (ht : (.next (cartFrame start op a s) : Res) = .next t) : Did i s t := by
  cases ht
  exact .cartFrame _ hi

theorem did_cartDataFrame {i : Instr} {start : Bool} {op : BitVec 2} {a : BitVec 6} {d : Half} {s t : State}
    (hi : cartFrameRow i = true) (ht : (.next (cartDataFrame start op a d s) : Res) = .next t) : Did i s t := by
  cases ht
  rw [cartDataFrame, Machine.cartFrame, ← clockCartBits_append]
  exact .cartFrame _ hi

theorem did_packet {i : Instr} {start : Bool} {op : BitVec 2} {a : BitVec 6} {s t : State} (hi : unitPacketRow i = true)
    (ht : (.next (unitPacket start op a s) : Res) = .next t) : Did i s t := by
  cases ht
  exact .packet _ (headBits_ne_nil _ _ _) hi

theorem did_dataPacket {i : Instr} {start : Bool} {op : BitVec 2} {a : BitVec 6} {d : Half} {s t : State}
    (hi : unitPacketRow i = true) (ht : (.next (unitDataPacket start op a d s) : Res) = .next t) : Did i s t := by
  cases ht
  rw [unitDataPacket, unitPacket, ← pulseBits_append]
  refine .packet _ (fun h => ?_) hi
  rw [List.append_eq_nil_iff] at h
  exact headBits_ne_nil _ _ _ h.1

/-- Every operation does one of the things of `Did`. -/
theorem exec_did {i : Instr} {s t : State} (h : exec i s = .next t) : Did i s t := by
  cases i
  case reset => cases h; exact .reset
  case pumpTick => exact .tick h
  case w16CtrlHi v => exact did_ctrlWrite h
  case w16CtrlLo v => exact did_ctrlWrite h
  case w16I2cntrlHi v => exact did_i2cntrlWrite h
  case w16I2cntrlLo v => exact did_i2cntrlWrite h
  case r16EebusHi => exact did_eebusRead h
  case r16EebusLo => exact did_eebusRead h
  case w16EebusHi v => exact did_eebusWrite rfl h
  case w16EebusLo v => exact did_eebusWrite rfl h
  case w16DsdataLo w => exact did_dsa (fun _ _ => dispatchAction_only) h
  case r16DsctrlLo =>
    simp only [exec, execR16DsctrlLo, dsctrlLoRead] at h
    split at h <;> cases h
    · next he => exact .acknowledge _ (by simpa [Fifo.empty] using he)
    · exact .read _
  case r16DsdataLo =>
    simp only [exec, execR16DsdataLo, dsdataLoRead, Machine.dequeue] at h
    split at h <;> cases h
    · exact .read _
    · exact .dequeue _ _
  case dsaPlayTrack p => exact did_dsaKind (opc := 0) (p := p) .playTrack h
  case dsaStop p => exact did_dsaKind (opc := 0) (p := p) .stop h
  case dsaReadToc p => exact did_dsaKind (opc := 0) (p := p) .readToc h
  case dsaPause p => exact did_dsaKind (opc := 0) (p := p) .pause h
  case dsaUnpause p => exact did_dsaKind (opc := 0) (p := p) .unpause h
  case dsaGotoMin p => exact did_dsaKind (opc := 0) (p := p) .gotoMin h
  case dsaGotoSec p => exact did_dsaKind (opc := 0) (p := p) .gotoSec h
  case dsaGotoFrm p => exact did_dsaKind (opc := 0) (p := p) .gotoFrm h
  case dsaReadLongToc p => exact did_dsaKind (opc := 0) (p := p) .readLongToc h
  case dsaSetMode p => exact did_dsaKind (opc := 0) (p := p) .setMode h
  case dsaOversample p => exact did_dsaKind (opc := s.cfg.opcOversample) (p := p) .oversample h
  case dsaZeroWord => exact did_unrecognized h
  case dsaUnrecognized opc p => exact did_unrecognized h
  case cartEwds st x => exact did_cartFrame rfl h
  case cartEral st x => exact did_cartFrame rfl h
  case cartEwen st x => exact did_cartFrame rfl h
  case cartRead st a => exact did_cartFrame rfl h
  case cartErase st a => exact did_cartFrame rfl h
  case cartWral st x d => exact did_cartDataFrame rfl h
  case cartWrite st a d => exact did_cartDataFrame rfl h
  case cartClock b => cases h; exact .cartClock b (.inl rfl)
  case cartUnexpectedClock b => cases h; exact .cartClock b (.inr rfl)
  case cartChipselect =>
    cases h
    exact .cartPort s.result (cartSelect s.cart) rfl fun _ => cartSelect_inv _
  case cartReaddo =>
    cases h
    exact .cartPort _ (cartQuery s.cart).2 (cartQuery_arr _) (cartQuery_inv _)
  case unitEwds st x => exact did_packet rfl h
  case unitEral st x => exact did_packet rfl h
  case unitEwen st x => exact did_packet rfl h
  case unitRead st a => exact did_packet rfl h
  case unitErase st a => exact did_packet rfl h
  case unitMalformed op a => exact did_packet rfl h
  case unitWral st x d => exact did_dataPacket rfl h
  case unitWrite st a d => exact did_dataPacket rfl h
  case unitLinesWrite v => cases h; exact .lines v rfl
  case unitChipselect v => cases h; exact .lines v rfl
  case unitCommandBit v => cases h; exact .lines v rfl
  case unitDataBit v => cases h; exact .lines v rfl
  case w16Unrecognized off v => cases h; exact .none
  all_goals first
    | (cases h; exact .read _)
    | (cases h; exact .store _ _ _)

end Sys2Proof.Machine
end

