-- ==== Sys2Proof/Laws/PerInstr.lean ====
section
/-! SUPPORT. Decoding an encoded well-formed operation gives it back, one lemma for each constructor. -/

namespace Sys2Proof.Laws.RoundTrip

-- One declaration after the other: the package as one text stays within its threads.
set_option Elab.async false

open Sys2Proof Sys2Proof.Laws

/-- Under every configuration and in every phase in which the operation is well formed, its access decodes to it. -/
def Statement (i : Instr) : Prop :=
  ∀ (c : Config) (ph : Phase), i.wf c ph = true → decode c ph (encode c i) = .ok i

theorem r16CtrlHi : Statement .r16CtrlHi := fun _ _ h =>
  decode_encodeRead .ctrl .hi (of_decide_eq_true h)

theorem r16CtrlLo : Statement .r16CtrlLo := fun _ _ h =>
  decode_encodeRead .ctrl .lo (of_decide_eq_true h)

theorem w16CtrlHi (v : Half) : Statement (.w16CtrlHi v) := fun _ _ h =>
  decode_encodeWrite .ctrl .hi v (of_decide_eq_true h)

theorem w16CtrlLo (v : Half) : Statement (.w16CtrlLo v) := fun _ _ h =>
  decode_encodeWrite .ctrl .lo v (of_decide_eq_true h)

theorem r16DsctrlHi : Statement .r16DsctrlHi := fun _ _ h =>
  decode_encodeRead .dsctrl .hi (of_decide_eq_true h)

theorem w16DsctrlHi (v : Half) : Statement (.w16DsctrlHi v) := fun _ _ h =>
  decode_encodeWrite .dsctrl .hi v (of_decide_eq_true h)

theorem r16DsctrlLo : Statement .r16DsctrlLo := fun _ _ h =>
  decode_encodeRead .dsctrl .lo (of_decide_eq_true h)

theorem w16DsctrlLo (v : Half) : Statement (.w16DsctrlLo v) := fun _ _ h =>
  decode_encodeWrite .dsctrl .lo v (of_decide_eq_true h)

theorem r16DsdataHi : Statement .r16DsdataHi := fun _ _ h =>
  decode_encodeRead .dsdata .hi (of_decide_eq_true h)

theorem w16DsdataHi (v : Half) : Statement (.w16DsdataHi v) := fun _ _ h =>
  decode_encodeWrite .dsdata .hi v (of_decide_eq_true h)

theorem r16DsdataLo : Statement .r16DsdataLo := fun _ _ h =>
  decode_encodeRead .dsdata .lo (of_decide_eq_true h)

theorem w16DsdataLo (v : Half) : Statement (.w16DsdataLo v) := fun _ _ h =>
  decode_encodeWrite .dsdata .lo v (of_decide_eq_true h)

theorem r16I2cntrlHi : Statement .r16I2cntrlHi := fun _ _ h =>
  decode_encodeRead .i2cntrl .hi (of_decide_eq_true h)

theorem r16I2cntrlLo : Statement .r16I2cntrlLo := fun _ _ h =>
  decode_encodeRead .i2cntrl .lo (of_decide_eq_true h)

theorem w16I2cntrlHi (v : Half) : Statement (.w16I2cntrlHi v) := fun _ _ h =>
  decode_encodeWrite .i2cntrl .hi v (of_decide_eq_true h)

theorem w16I2cntrlLo (v : Half) : Statement (.w16I2cntrlLo v) := fun _ _ h =>
  decode_encodeWrite .i2cntrl .lo v (of_decide_eq_true h)

theorem r16SbcntrlHi : Statement .r16SbcntrlHi := fun _ _ h =>
  decode_encodeRead .sbcntrl .hi (of_decide_eq_true h)

theorem w16SbcntrlHi (v : Half) : Statement (.w16SbcntrlHi v) := fun _ _ h =>
  decode_encodeWrite .sbcntrl .hi v (of_decide_eq_true h)

theorem r16SbcntrlLo : Statement .r16SbcntrlLo := fun _ _ h =>
  decode_encodeRead .sbcntrl .lo (of_decide_eq_true h)

theorem w16SbcntrlLo (v : Half) : Statement (.w16SbcntrlLo v) := fun _ _ h =>
  decode_encodeWrite .sbcntrl .lo v (of_decide_eq_true h)

theorem r16SubdataHi : Statement .r16SubdataHi := fun _ _ h =>
  decode_encodeRead .subdata .hi (of_decide_eq_true h)

theorem w16SubdataHi (v : Half) : Statement (.w16SubdataHi v) := fun _ _ h =>
  decode_encodeWrite .subdata .hi v (of_decide_eq_true h)

theorem r16SubdataLo : Statement .r16SubdataLo := fun _ _ h =>
  decode_encodeRead .subdata .lo (of_decide_eq_true h)

theorem w16SubdataLo (v : Half) : Statement (.w16SubdataLo v) := fun _ _ h =>
  decode_encodeWrite .subdata .lo v (of_decide_eq_true h)

theorem r16SubdatbHi : Statement .r16SubdatbHi := fun _ _ h =>
  decode_encodeRead .subdatb .hi (of_decide_eq_true h)

theorem w16SubdatbHi (v : Half) : Statement (.w16SubdatbHi v) := fun _ _ h =>
  decode_encodeWrite .subdatb .hi v (of_decide_eq_true h)

theorem r16SubdatbLo : Statement .r16SubdatbLo := fun _ _ h =>
  decode_encodeRead .subdatb .lo (of_decide_eq_true h)

theorem w16SubdatbLo (v : Half) : Statement (.w16SubdatbLo v) := fun _ _ h =>
  decode_encodeWrite .subdatb .lo v (of_decide_eq_true h)

theorem r16SbtimeHi : Statement .r16SbtimeHi := fun _ _ h =>
  decode_encodeRead .sbtime .hi (of_decide_eq_true h)

theorem w16SbtimeHi (v : Half) : Statement (.w16SbtimeHi v) := fun _ _ h =>
  decode_encodeWrite .sbtime .hi v (of_decide_eq_true h)

theorem r16SbtimeLo : Statement .r16SbtimeLo := fun _ _ h =>
  decode_encodeRead .sbtime .lo (of_decide_eq_true h)

theorem w16SbtimeLo (v : Half) : Statement (.w16SbtimeLo v) := fun _ _ h =>
  decode_encodeWrite .sbtime .lo v (of_decide_eq_true h)

theorem r16FifodataHi : Statement .r16FifodataHi := fun _ _ h =>
  decode_encodeRead .fifodata .hi (of_decide_eq_true h)

theorem w16FifodataHi (v : Half) : Statement (.w16FifodataHi v) := fun _ _ h =>
  decode_encodeWrite .fifodata .hi v (of_decide_eq_true h)

theorem r16FifodataLo : Statement .r16FifodataLo := fun _ _ h =>
  decode_encodeRead .fifodata .lo (of_decide_eq_true h)

theorem w16FifodataLo (v : Half) : Statement (.w16FifodataLo v) := fun _ _ h =>
  decode_encodeWrite .fifodata .lo v (of_decide_eq_true h)

theorem r16I2sdat2Hi : Statement .r16I2sdat2Hi := fun _ _ h =>
  decode_encodeRead .i2sdat2 .hi (of_decide_eq_true h)

theorem w16I2sdat2Hi (v : Half) : Statement (.w16I2sdat2Hi v) := fun _ _ h =>
  decode_encodeWrite .i2sdat2 .hi v (of_decide_eq_true h)

theorem r16I2sdat2Lo : Statement .r16I2sdat2Lo := fun _ _ h =>
  decode_encodeRead .i2sdat2 .lo (of_decide_eq_true h)

theorem w16I2sdat2Lo (v : Half) : Statement (.w16I2sdat2Lo v) := fun _ _ h =>
  decode_encodeWrite .i2sdat2 .lo v (of_decide_eq_true h)

theorem r16EebusHi : Statement .r16EebusHi := fun _ _ h =>
  decode_encodeRead .eebus .hi (of_decide_eq_true h)

theorem w16EebusHi (v : Half) : Statement (.w16EebusHi v) := fun _ _ h =>
  decode_encodeWrite .eebus .hi v (of_decide_eq_true h)

theorem r16EebusLo : Statement .r16EebusLo := fun _ _ h =>
  decode_encodeRead .eebus .lo (of_decide_eq_true h)

theorem w16EebusLo (v : Half) : Statement (.w16EebusLo v) := fun _ _ h =>
  decode_encodeWrite .eebus .lo v (of_decide_eq_true h)

theorem r16Unrecognized (off : Half) : Statement (.r16Unrecognized off) := by
  intro c ph h
  simp only [Instr.wf, Bool.and_eq_true, decide_eq_true_eq, beq_iff_eq, Bool.not_eq_true'] at h
  obtain ⟨⟨h1, h2⟩, h3⟩ := h
  have hn := off.isLt
  simp only [encode, encodeRead, decode]
  rw [head_offset hn]
  simp [decodeWindow, halfAt_of_not_recognized h2 h3, Nat.not_le.mpr h1, h2]

theorem w16Unrecognized (off : Half) (v : Half) : Statement (.w16Unrecognized off v) := by
  intro c ph h
  simp only [Instr.wf, Bool.and_eq_true, decide_eq_true_eq, beq_iff_eq, Bool.not_eq_true'] at h
  obtain ⟨⟨h1, h2⟩, h3⟩ := h
  have hn := off.isLt
  simp only [encode, encodeWrite, decode]
  rw [head_offset hn]
  simp [decodeWindow, halfAt_of_not_recognized h2 h3, Nat.not_le.mpr h1, h2]

theorem dsaPlayTrack (p : Byte) : Statement (.dsaPlayTrack p) := fun _ _ h => decode_encodeDsa (k := .playTrack) h

theorem dsaStop (p : Byte) : Statement (.dsaStop p) := fun _ _ h => decode_encodeDsa (k := .stop) h

theorem dsaReadToc (p : Byte) : Statement (.dsaReadToc p) := fun _ _ h => decode_encodeDsa (k := .readToc) h

theorem dsaPause (p : Byte) : Statement (.dsaPause p) := fun _ _ h => decode_encodeDsa (k := .pause) h

theorem dsaUnpause (p : Byte) : Statement (.dsaUnpause p) := fun _ _ h => decode_encodeDsa (k := .unpause) h

theorem dsaGotoMin (p : Byte) : Statement (.dsaGotoMin p) := fun _ _ h => decode_encodeDsa (k := .gotoMin) h

theorem dsaGotoSec (p : Byte) : Statement (.dsaGotoSec p) := fun _ _ h => decode_encodeDsa (k := .gotoSec) h

theorem dsaGotoFrm (p : Byte) : Statement (.dsaGotoFrm p) := fun _ _ h => decode_encodeDsa (k := .gotoFrm) h

theorem dsaReadLongToc (p : Byte) : Statement (.dsaReadLongToc p) := fun _ _ h => decode_encodeDsa (k := .readLongToc) h

theorem dsaSetMode (p : Byte) : Statement (.dsaSetMode p) := fun _ _ h => decode_encodeDsa (k := .setMode) h

theorem dsaOversample (p : Byte) : Statement (.dsaOversample p) := fun _ _ h => decode_encodeDsa (k := .oversample) h

theorem dsaZeroWord : Statement .dsaZeroWord := fun _ _ _ => rfl

theorem dsaUnrecognized (opc : Byte) (p : Byte) : Statement (.dsaUnrecognized opc p) := by
  intro c ph h
  simp only [Instr.wf, Bool.and_eq_true, bne_iff_ne, ne_eq, Bool.not_eq_true'] at h
  have h1 : ¬ (dsaWord opc p : BitVec 16) = 0#16 := h.1
  simp [encode, encodeDsa, decode, decodeDsa, h1, dsaKind_none h.2]

theorem cartEwds (s : Bool) (x : BitVec 4) : Statement (.cartEwds s x) := by
  intro c ph _
  simp only [encode, decode_encodeCart, decodeCartFrame, frameStart_frameHead, frameOp_frameHead, frameAddr_frameHead, subOp_append,
    subRest_append]
  rfl

theorem cartWral (s : Bool) (x : BitVec 4) (d : Half) : Statement (.cartWral s x d) := by
  intro c ph _
  simp only [encode, decode_encodeCart, decodeCartFrame, frameStart_frameHead, frameOp_frameHead, frameAddr_frameHead, subOp_append,
    subRest_append]
  rfl

theorem cartEral (s : Bool) (x : BitVec 4) : Statement (.cartEral s x) := by
  intro c ph _
  simp only [encode, decode_encodeCart, decodeCartFrame, frameStart_frameHead, frameOp_frameHead, frameAddr_frameHead, subOp_append,
    subRest_append]
  rfl

theorem cartEwen (s : Bool) (x : BitVec 4) : Statement (.cartEwen s x) := by
  intro c ph _
  simp only [encode, decode_encodeCart, decodeCartFrame, frameStart_frameHead, frameOp_frameHead, frameAddr_frameHead, subOp_append,
    subRest_append]
  rfl

theorem cartWrite (s : Bool) (a : BitVec 6) (d : Half) : Statement (.cartWrite s a d) := by
  intro c ph _
  simp only [encode, decode_encodeCart, decodeCartFrame, frameStart_frameHead, frameOp_frameHead, frameAddr_frameHead]
  rfl

theorem cartRead (s : Bool) (a : BitVec 6) : Statement (.cartRead s a) := by
  intro c ph _
  simp only [encode, decode_encodeCart, decodeCartFrame, frameStart_frameHead, frameOp_frameHead, frameAddr_frameHead]
  rfl

theorem cartErase (s : Bool) (a : BitVec 6) : Statement (.cartErase s a) := by
  intro c ph _
  simp only [encode, decode_encodeCart, decodeCartFrame, frameStart_frameHead, frameOp_frameHead, frameAddr_frameHead]
  rfl

theorem cartChipselect : Statement .cartChipselect := fun _ _ _ => rfl

theorem cartClock (b : Bool) : Statement (.cartClock b) := by
  intro c ph h
  have h' : ph.cartStalled = false := by simpa [Instr.wf] using h
  simp [encode, decode, decodeCartClock, h']

theorem cartReaddo : Statement .cartReaddo := fun _ _ _ => rfl

theorem cartUnexpectedClock (b : Bool) : Statement (.cartUnexpectedClock b) := by
  intro c ph h
  have h' : ph.cartStalled = true := by simpa [Instr.wf] using h
  simp [encode, decode, decodeCartClock, h']

theorem unitEwds (s : Bool) (x : BitVec 4) : Statement (.unitEwds s x) := by
  intro c ph h
  have h' : c.startOk s = true := h
  simp only [encode, decode_encodeUnit, decodeUnitPacket, frameStart_frameHead, frameOp_frameHead, frameAddr_frameHead, h',
    subOp_append, subRest_append, if_true]
  rfl

theorem unitWral (s : Bool) (x : BitVec 4) (d : Half) : Statement (.unitWral s x d) := by
  intro c ph h
  have h' : c.startOk s = true := h
  simp only [encode, decode_encodeUnit, decodeUnitPacket, frameStart_frameHead, frameOp_frameHead, frameAddr_frameHead, h',
    subOp_append, subRest_append, if_true]
  rfl

theorem unitEral (s : Bool) (x : BitVec 4) : Statement (.unitEral s x) := by
  intro c ph h
  have h' : c.startOk s = true := h
  simp only [encode, decode_encodeUnit, decodeUnitPacket, frameStart_frameHead, frameOp_frameHead, frameAddr_frameHead, h',
    subOp_append, subRest_append, if_true]
  rfl

theorem unitEwen (s : Bool) (x : BitVec 4) : Statement (.unitEwen s x) := by
  intro c ph h
  have h' : c.startOk s = true := h
  simp only [encode, decode_encodeUnit, decodeUnitPacket, frameStart_frameHead, frameOp_frameHead, frameAddr_frameHead, h',
    subOp_append, subRest_append, if_true]
  rfl

theorem unitWrite (s : Bool) (a : BitVec 6) (d : Half) : Statement (.unitWrite s a d) := by
  intro c ph h
  have h' : c.startOk s = true := h
  simp only [encode, decode_encodeUnit, decodeUnitPacket, frameStart_frameHead, frameOp_frameHead, frameAddr_frameHead, h', if_true]
  rfl

theorem unitRead (s : Bool) (a : BitVec 6) : Statement (.unitRead s a) := by
  intro c ph h
  have h' : c.startOk s = true := h
  simp only [encode, decode_encodeUnit, decodeUnitPacket, frameStart_frameHead, frameOp_frameHead, frameAddr_frameHead, h', if_true]
  rfl

theorem unitErase (s : Bool) (a : BitVec 6) : Statement (.unitErase s a) := by
  intro c ph h
  have h' : c.startOk s = true := h
  simp only [encode, decode_encodeUnit, decodeUnitPacket, frameStart_frameHead, frameOp_frameHead, frameAddr_frameHead, h', if_true]
  rfl

theorem unitMalformed (op : BitVec 2) (a : BitVec 6) : Statement (.unitMalformed op a) := by
  intro c ph h
  have h' : c.unitStartBitCheck = true := h
  simp only [encode, decode_encodeUnit, decodeUnitPacket, frameStart_frameHead, frameOp_frameHead, frameAddr_frameHead]
  simp [Config.startOk, h']

theorem unitLinesWrite (v : Half) : Statement (.unitLinesWrite v) := by
  intro c ph h
  simp only [Instr.wf, Bool.and_eq_true, Bool.not_eq_true'] at h
  simp only [encode, decode_encodeLines, decodeLines, h.1]
  cases hp : c.pulse (c.lineClk v) ph.unitPrevClk <;> simp_all

theorem unitChipselect (v : Half) : Statement (.unitChipselect v) := by
  intro c ph h
  have h' : c.lineCs v = true := h
  simp [encode, decode_encodeLines, decodeLines, h']

theorem unitCommandBit (v : Half) : Statement (.unitCommandBit v) := by
  intro c ph h
  simp only [Instr.wf, Bool.and_eq_true, Bool.not_eq_true'] at h
  simp [encode, decode_encodeLines, decodeLines, h]

theorem unitDataBit (v : Half) : Statement (.unitDataBit v) := by
  intro c ph h
  simp only [Instr.wf, Bool.and_eq_true, Bool.not_eq_true'] at h
  simp [encode, decode_encodeLines, decodeLines, h]

theorem unitLinesRead : Statement .unitLinesRead := fun _ _ _ => rfl

theorem pumpTick : Statement .pumpTick := fun _ _ _ => rfl

theorem reset : Statement .reset := fun _ _ _ => rfl

end Sys2Proof.Laws.RoundTrip
end

