-- ==== Sys2Proof/Laws/Toc.lean ====
section
/-! SUPPORT. The TOC reader: the summary of a session, what a short and a long read of it answer, and which sessions a disc
has. -/

namespace Sys2Proof.Machine

-- One declaration after the other: the package as one text stays within its threads.
set_option Elab.async false

/-! ## Times -/

theorem lsnToMsf_none {lsn : Int} (h : lsn < -150) : lsnToMsf lsn = none := by simp [lsnToMsf, h]

theorem lsnToMsf_some {lsn : Int} (h : -150 ≤ lsn) :
    ∃ m f c : Nat, lsnToMsf lsn = some (m, f, c) ∧ (m : Int) = (lsn + 150) / 75 / 60 ∧ f < 60 ∧ c < 75 := by
  have h' : ¬ lsn < -150 := by omega
  refine ⟨_, _, _, by simp only [lsnToMsf, h', if_false]; rfl, ?_, ?_, ?_⟩ <;> omega

/-! ## The summary of a session -/

theorem storeSummary_refused {first last : Nat} {lsn : Int} (t : Toc) (h : lsn < -150) :
    storeSummary first last lsn t = .error .negativeMSF := by
  simp [storeSummary, lsnToMsf_none h]

/-- A summary whose numbers fit the table is stored as they are, and the other entries stay. -/
theorem storeSummary_stored {first last : Nat} {lsn : Int} (t : Toc) (h : -150 ≤ lsn) (h' : lsn ≤ 294911849)
    (hf : first < 2 ^ 16) (hl : last < 2 ^ 16) :
    ∃ m f r, lsnToMsf lsn = some (m, f, r) ∧
      storeSummary first last lsn t = .ok (stOk, { t with
        entries := t.entries.set 0 ⟨BitVec.ofNat 16 first, BitVec.ofNat 16 last, BitVec.ofNat 16 m, BitVec.ofNat 16 f,
          BitVec.ofNat 16 r⟩ }) := by
  obtain ⟨m, f, r, e, hm, hf', hr⟩ := lsnToMsf_some h
  have hm : m < 2 ^ 16 := by omega
  have hf' : f < 2 ^ 16 := by omega
  have hr : r < 2 ^ 16 := by omega
  exact ⟨m, f, r, e, by simp only [storeSummary, e, toU16, hm, hf', hr, hf, hl, if_true]⟩

/-! ## The sessions of a disc -/

theorem Disc.single_of {d : Disc} (h : d.lastSessionStart = d.trackLSN d.firstTrack) : d.single = true := by
  simp [Disc.single, h]

theorem Disc.TwoSessions.notSingle {d : Disc} {b : Nat} (h : d.TwoSessions b) : d.single = false := by
  simp [Disc.single, h.1]

theorem Disc.TwoSessions.boundary {d : Disc} {b : Nat} (h : d.TwoSessions b) : d.boundary = some b := by
  obtain ⟨-, h1, h2, h3, h4⟩ := h
  rw [Disc.boundary, List.find?_range'_eq_some]
  exact ⟨by simpa using h3, by simp; omega, fun k k1 k2 => by simpa using h4 k k1 k2⟩

/-- A session that the disc has: its tracks and the time of its summary (R136). -/
inductive Disc.Session (c : Config) (d : Disc) : Byte → Nat → Nat → Int → Prop where
  | whole : d.single = true → d.Session c 0 1 d.trackCount (d.leadOutLSN c)
  | first {b : Nat} : d.TwoSessions b → d.Session c 0 1 (b - 1) (d.trackLSN b)
  | second {b : Nat} : d.TwoSessions b → d.Session c 1 b d.trackCount (d.leadOutLSN c)

theorem Disc.Session.short {c : Config} {d : Disc} {p : Byte} {first last : Nat} {time : Int}
    (h : d.Session c p first last time) (t : Toc) : readShortToc c d true p t = storeSummary first last time t := by
  cases h with
  | whole h => simp [readShortToc, h]
  | first h =>
    have : ¬ _ < 2 := Nat.not_lt.2 h.2.1
    simp [readShortToc, h.notSingle, h.boundary, this]
  | second h =>
    have : ¬ _ < 2 := Nat.not_lt.2 h.2.1
    simp [readShortToc, h.notSingle, h.boundary, this]

theorem Disc.Session.lastTrackOf {c : Config} {d : Disc} {p : Byte} {first last : Nat} {time : Int}
    (h : d.Session c p first last time) : d.lastTrackOf p = last := by
  cases h with
  | whole h => simp [Disc.lastTrackOf, h]
  | first h => simp [Disc.lastTrackOf, h.notSingle, h.boundary]
  | second h => simp [Disc.lastTrackOf, h.notSingle]

/-- A session the disc does not have (R136). -/
theorem readShortToc_illegal {c : Config} {d : Disc} {p : Byte} (t : Toc)
    (h : (d.single = true ∧ p ≠ 0) ∨ ((∃ b, d.TwoSessions b) ∧ p ≠ 0 ∧ p ≠ 1)) :
    readShortToc c d true p t = .ok (stIllegal, t) := by
  rcases h with ⟨hs, hp⟩ | ⟨⟨b, hb⟩, h0, h1⟩
  · simp [readShortToc, hs, show ¬ p = 0#8 from hp]
  · have : ¬ b < 2 := Nat.not_lt.2 hb.2.1
    simp [readShortToc, hb.notSingle, hb.boundary, this, show ¬ p = 0#8 from h0, show ¬ p = 1#8 from h1]

theorem Disc.twoSessions_of_boundary {d : Disc} {b : Nat} (hs : d.single = false) (hb : d.boundary = some b)
    (h2 : 2 ≤ b) : d.TwoSessions b := by
  rw [Disc.boundary, List.find?_range'_eq_some] at hb
  obtain ⟨e, m, h⟩ := hb
  simp at e m
  refine ⟨fun h => by simp [Disc.single_of h] at hs, h2, by omega, e, fun k k1 k2 => by simpa using h k k1 k2⟩

/-- A disc that is not single, without a boundary track b, 2 <= b <= N (R135). -/
theorem readShortToc_malformed {c : Config} {d : Disc} {p : Byte} (t : Toc) (hs : d.single = false)
    (h : ¬ ∃ b, d.TwoSessions b) : readShortToc c d true p t = .error .malformedDisc := by
  unfold readShortToc
  simp only [hs, Bool.not_true, Bool.false_eq_true, if_false]
  split
  · rfl
  · next b hb =>
    have : b < 2 := Nat.lt_of_not_le fun hc => h ⟨b, Disc.twoSessions_of_boundary hs hb hc⟩
    simp [this]

/-- A short read that succeeds is one of a session the disc has. -/
theorem Disc.Session.of_short {c : Config} {d : Disc} {p : Byte} {t t1 : Toc}
    (h : readShortToc c d true p t = .ok (stOk, t1)) : ∃ first last time, d.Session c p first last time := by
  have hne : stIllegal ≠ stOk := by decide
  cases hs : d.single with
  | true =>
    by_cases hp : p = 0
    · exact hp ▸ ⟨_, _, _, .whole hs⟩
    · rw [readShortToc_illegal t (.inl ⟨hs, hp⟩)] at h
      simp [hne] at h
  | false =>
    by_cases hb : ∃ b, d.TwoSessions b
    · by_cases h0 : p = 0
      · exact h0 ▸ ⟨_, _, _, .first hb.choose_spec⟩
      · by_cases h1 : p = 1
        · exact h1 ▸ ⟨_, _, _, .second hb.choose_spec⟩
        · rw [readShortToc_illegal t (.inr ⟨hb, h0, h1⟩)] at h
          simp [hne] at h
    · rw [readShortToc_malformed t hs hb] at h
      cases h

theorem Disc.Session.first_pos {c : Config} {d : Disc} {p : Byte} {first last : Nat} {time : Int}
    (h : d.Session c p first last time) : 1 ≤ first ∧ first ≤ last + 1 := by
  cases h with
  | whole => omega
  | first h => have := h.2.1; omega
  | second h => have := h.2.1; have := h.2.2.1; omega

/-- The bounds of a stored summary are the session's, where they fit. -/
theorem storeSummary_bounds {first last : Nat} {lsn : Int} {t t1 : Toc}
    (h : storeSummary first last lsn t = .ok (stOk, t1)) (hf : first < 2 ^ 16) (hl : last < 2 ^ 16) :
    t1.entries[0].firstTrack.toNat = first ∧ t1.entries[0].lastTrack.toNat = last := by
  unfold storeSummary at h
  split at h
  · cases h
  · cases h
    simp only [toU16, hf, hl, if_true, Vector.getElem_set_self, BitVec.toNat_ofNat, Nat.mod_eq_of_lt, and_self]

/-! ## The long read -/

theorem readLongToc_refused {c : Config} {d : Disc} {o : Bool} {p : Byte} {t : Toc} {r : Refusal}
    (h : readShortToc c d o p t = .error r) : readLongToc c d o p t = .error r := by
  rw [readLongToc, h]

theorem readLongToc_failed {c : Config} {d : Disc} {o : Bool} {p : Byte} {t t1 : Toc} {st : Half}
    (h : readShortToc c d o p t = .ok (st, t1)) (hn : st ≠ stOk) : readLongToc c d o p t = .ok (st, t1) := by
  simp only [readLongToc, h, ne_eq, hn, not_false_eq_true, if_true]

/-- A long read of a session that names a track above 99. -/
theorem readLongToc_tooLong {c : Config} {d : Disc} {o : Bool} {p : Byte} {t t1 : Toc}
    (h : readShortToc c d o p t = .ok (stOk, t1)) (hl : 99 < d.lastTrackOf p) :
    readLongToc c d o p t = .error .malformedDisc := by
  simp only [readLongToc, h, ne_eq, not_true_eq_false, if_false, hl, if_true]

/-- A long read of any other session: its bounds are those of the summary, and each of its tracks has its entry. -/
theorem readLongToc_stored {c : Config} {d : Disc} {o : Bool} {p : Byte} {t t1 : Toc}
    (h : readShortToc c d o p t = .ok (stOk, t1)) (hl : d.lastTrackOf p ≤ 99) :
    readLongToc c d o p t = .ok (stOk,
      { entries := (trackRange t1.entries[0].firstTrack.toNat t1.entries[0].lastTrack.toNat).foldl
          (fun v k => v.setIfInBounds k (trackEntry c d k)) t1.entries
        startTrack := t1.entries[0].firstTrack
        endTrack := t1.entries[0].lastTrack }) := by
  simp only [readLongToc, h, ne_eq, not_true_eq_false, if_false, Nat.not_lt.2 hl]

/-- What a long read that succeeds has done. -/
theorem readLongToc_done {c : Config} {d : Disc} {o : Bool} {p : Byte} {t t' : Toc}
    (h : readLongToc c d o p t = .ok (stOk, t')) :
    ∃ t1, readShortToc c d o p t = .ok (stOk, t1) ∧ d.lastTrackOf p ≤ 99 ∧
      t' =
        { entries := (trackRange t1.entries[0].firstTrack.toNat t1.entries[0].lastTrack.toNat).foldl
            (fun v k => v.setIfInBounds k (trackEntry c d k)) t1.entries
          startTrack := t1.entries[0].firstTrack
          endTrack := t1.entries[0].lastTrack } := by
  cases hs : readShortToc c d o p t with
  | error r => rw [readLongToc_refused hs] at h; cases h
  | ok a =>
    obtain ⟨st, t1⟩ := a
    by_cases hn : st = stOk
    · subst hn
      by_cases hl : 99 < d.lastTrackOf p
      · rw [readLongToc_tooLong hs hl] at h; cases h
      · rw [readLongToc_stored hs (Nat.not_lt.1 hl)] at h
        cases h
        exact ⟨t1, rfl, Nat.not_lt.1 hl, rfl⟩
    · rw [readLongToc_failed hs hn] at h
      cases h
      exact absurd rfl hn

theorem mem_trackRange {first last k : Nat} : k ∈ trackRange first last ↔ first ≤ k ∧ k ≤ last := by
  simp only [trackRange, List.mem_range'_1]
  omega

/-- Filling the entries of some tracks: those hold their entry, the others stay. -/
theorem entries_filled (c : Config) (d : Disc) (l : List Nat) (v : Vector TocEntry 100) {k : Nat} (hk : k < 100) :
    (l.foldl (fun v k => v.setIfInBounds k (trackEntry c d k)) v)[k] = if k ∈ l then trackEntry c d k else v[k] := by
  induction l generalizing v with
  | nil => simp
  | cons x xs ih =>
    rw [List.foldl_cons, ih]
    by_cases h : k ∈ xs
    · simp [h]
    · simp only [h, if_false, List.mem_cons, or_false]
      rw [Vector.getElem_setIfInBounds]
      by_cases e : x = k
      · simp [e]
      · simp [e, Ne.symm e]

/-- A short read writes no entry but the summary. -/
theorem readShortToc_entry {c : Config} {d : Disc} {o : Bool} {p : Byte} {t t1 : Toc} {st : Half}
    (h : readShortToc c d o p t = .ok (st, t1)) {k : Nat} (hk : k < 100) (h1 : 1 ≤ k) : t1.entries[k] = t.entries[k] := by
  have key : ∀ f l x, storeSummary f l x t = .ok (st, t1) → t1.entries[k] = t.entries[k] := by
    intro f l x h
    unfold storeSummary at h
    split at h
    · cases h
    · cases h
      simp only
      rw [Vector.getElem_set_ne]
      omega
  unfold readShortToc at h
  split at h
  · cases h; rfl
  · split at h
    · split at h
      · exact key _ _ _ h
      · cases h; rfl
    · split at h
      · cases h
      · split at h
        · cases h
        · split at h
          · exact key _ _ _ h
          · split at h
            · exact key _ _ _ h
            · cases h; rfl

end Sys2Proof.Machine
end

