-- ==== Sys2Proof/Tests/Slice0.lean ====
section
/-! SUPPORT. The model's own tests: ill-formed operations refused, words of the encoding tables decoded, vectors of
spec/95_test_vectors.md (V<n>) on single steps, and for every statement with hypotheses a state and operands that meet them. -/

namespace Sys2Proof.Tests

-- One declaration after the other: the package as one text stays within its threads.
set_option Elab.async false

open Sys2Proof Sys2Proof.Machine

/-! ## Helpers -/

/-- What a test looks at after an operation that completes. -/
def after {α : Type} (r : Res) (f : State → α) : Option α :=
  match r with
  | .next t => some (f t)
  | .fault _ => none
  | .refused _ => none

/-- The reason an operation is refused. -/
def stopped (r : Res) : Option Refusal :=
  match r with
  | .next _ => none
  | .fault _ => none
  | .refused x => some x

/-- What the decoder reads with the default parameters and both engines idle. -/
def reads (p : Port) (head : BitVec 32) (data : Half) : Option Instr :=
  match decode Config.default Phase.idle ⟨p, head, data⟩ with
  | .ok i => some i
  | .error _ => none

/-- The default parameters in a phase. -/
def wfIn (ph : Phase) (i : Instr) : Bool := i.wf Config.default ph

/-- Disc A of spec/95_test_vectors.md: a single session of twelve tracks, lead-out 228000. -/
def discA : Disc := { Disc.blank with trackCount := 12, otherLeadOut := 228000 }

/-- Disc B of spec/95_test_vectors.md: two sessions, tracks 1 to 3 and 4 to 5, lead-out 100000. -/
def discB : Disc := { Disc.blank with
  trackCount := 5
  lastSessionStart := 61400
  tracks := [(1, ⟨0, 0x00, 0x02, 0x00⟩), (2, ⟨15000, 0x03, 0x22, 0x00⟩), (3, ⟨30000, 0x06, 0x42, 0x00⟩),
    (4, ⟨61400, 0x12, 0x34, 0x56⟩), (5, ⟨80000, 0x20, 0x00, 0x10⟩)]
  otherLeadOut := 100000 }

/-- A disc with two sessions of which the second starts at no track. -/
def discBad : Disc := { discB with lastSessionStart := 7 }

/-- A disc that is not single and whose least track at the last-session start is track 1; track 3 starts there too. -/
def discOne : Disc := { Disc.blank with
  firstTrack := 2, trackCount := 3, lastSessionStart := 0, tracks := [(2, ⟨15000, 0, 0, 0⟩)] }

/-- A disc of ninety-nine tracks whose second session is the last of them. -/
def disc99 : Disc := { Disc.blank with
  trackCount := 99, lastSessionStart := 300000, tracks := [(1, ⟨0, 0, 0, 0⟩), (99, ⟨300000, 0, 0, 0⟩)],
  otherTrack := ⟨100, 0, 0, 0⟩, otherLeadOut := -150 }

/-- A disc of a hundred tracks whose second session starts at track 2, at an LSN without a time. -/
def disc100 : Disc := { Disc.blank with
  trackCount := 100, lastSessionStart := -151, tracks := [(1, ⟨0, 0, 0, 0⟩)], otherTrack := ⟨-151, 0, 0, 0⟩,
  otherLeadOut := -150 }

/-- The sectors of spec/95_test_vectors.md section 7. -/
def discS : Disc := { Disc.blank with
  sectors := [(0, [0x01, 0x00, 0x02, 0x00, 0x03, 0x00, 0x04, 0x00]), (1, [0x11, 0x22, 0x33, 0x44])] }

/-- The state after reset with a disc. -/
def onDisc (d : Disc) : State := { State.reset with disc := d }

/-- The state after reset with the adapter not open. -/
def noAdapter : State := { State.reset with dsp := { State.reset.dsp with adapterOk := false } }

/-- The state after reset with `n` words queued. -/
def queued (n : Fin 512) : State := { State.reset with fifo := { State.reset.fifo with wr := n }, rxPending := true }

/-- An armed pump on the sectors of section 7, with the enable bits 1. -/
def armed : State := { onDisc discS with
  regs := { State.reset.regs with i2cntrl := ⟨0, 0x0007⟩ }, pump := { State.reset.pump with armed := true } }

/-- The cartridge engine in a state, with the latch. -/
def cartIn (st : CartState) : State := { State.reset with cart := { State.reset.cart with state := st, wen := true } }

/-- The CD-unit engine selected, with the latch. -/
def selected : State := { State.reset with unit := { unitSelect State.reset.unit with wen := true } }

/-- The CD-unit engine in a data phase, `n` bits in, with the latch. -/
def inData (dop : UnitDop) (n : Nat) : State :=
  { State.reset with unit := { State.reset.unit with dop := dop, dataCnt := n, wen := true, addr := 5 } }

/-- The whole line of `n` writes of the lines from a state. -/
def writes (vs : List Half) (s : State) : Res := runAll (vs.map .unitLinesWrite) s

/-! ## Ill-formed operations -/

/-- A window that ends at the register (R102). -/
def narrow (n : Nat) : Config := { Config.default with butchWindow := n }

/-- Each read at the first offset outside its window. -/
theorem test_wf_refuses_reads_outside_the_window :
    Instr.wf (narrow 0x00) Phase.idle .r16CtrlHi = false ∧
    Instr.wf (narrow 0x02) Phase.idle .r16CtrlLo = false ∧
    Instr.wf (narrow 0x04) Phase.idle .r16DsctrlHi = false ∧
    Instr.wf (narrow 0x06) Phase.idle .r16DsctrlLo = false ∧
    Instr.wf (narrow 0x08) Phase.idle .r16DsdataHi = false ∧
    Instr.wf (narrow 0x0A) Phase.idle .r16DsdataLo = false ∧
    Instr.wf (narrow 0x10) Phase.idle .r16I2cntrlHi = false ∧
    Instr.wf (narrow 0x12) Phase.idle .r16I2cntrlLo = false ∧
    Instr.wf (narrow 0x14) Phase.idle .r16SbcntrlHi = false ∧
    Instr.wf (narrow 0x16) Phase.idle .r16SbcntrlLo = false ∧
    Instr.wf (narrow 0x18) Phase.idle .r16SubdataHi = false ∧
    Instr.wf (narrow 0x1A) Phase.idle .r16SubdataLo = false ∧
    Instr.wf (narrow 0x1C) Phase.idle .r16SubdatbHi = false ∧
    Instr.wf (narrow 0x1E) Phase.idle .r16SubdatbLo = false ∧
    Instr.wf (narrow 0x20) Phase.idle .r16SbtimeHi = false ∧
    Instr.wf (narrow 0x22) Phase.idle .r16SbtimeLo = false ∧
    Instr.wf (narrow 0x24) Phase.idle .r16FifodataHi = false ∧
    Instr.wf (narrow 0x26) Phase.idle .r16FifodataLo = false ∧
    Instr.wf (narrow 0x28) Phase.idle .r16I2sdat2Hi = false ∧
    Instr.wf (narrow 0x2A) Phase.idle .r16I2sdat2Lo = false ∧
    Instr.wf (narrow 0x2C) Phase.idle .r16EebusHi = false ∧
    Instr.wf (narrow 0x2E) Phase.idle .r16EebusLo = false := by
  decide

/-- Each write at the first offset outside its window. -/
theorem test_wf_refuses_writes_outside_the_window :
    Instr.wf (narrow 0x00) Phase.idle (.w16CtrlHi 0) = false ∧
    Instr.wf (narrow 0x02) Phase.idle (.w16CtrlLo 0) = false ∧
    Instr.wf (narrow 0x04) Phase.idle (.w16DsctrlHi 0) = false ∧
    Instr.wf (narrow 0x06) Phase.idle (.w16DsctrlLo 0) = false ∧
    Instr.wf (narrow 0x08) Phase.idle (.w16DsdataHi 0) = false ∧
    Instr.wf (narrow 0x0A) Phase.idle (.w16DsdataLo 0) = false ∧
    Instr.wf (narrow 0x10) Phase.idle (.w16I2cntrlHi 0) = false ∧
    Instr.wf (narrow 0x12) Phase.idle (.w16I2cntrlLo 0) = false ∧
    Instr.wf (narrow 0x14) Phase.idle (.w16SbcntrlHi 0) = false ∧
    Instr.wf (narrow 0x16) Phase.idle (.w16SbcntrlLo 0) = false ∧
    Instr.wf (narrow 0x18) Phase.idle (.w16SubdataHi 0) = false ∧
    Instr.wf (narrow 0x1A) Phase.idle (.w16SubdataLo 0) = false ∧
    Instr.wf (narrow 0x1C) Phase.idle (.w16SubdatbHi 0) = false ∧
    Instr.wf (narrow 0x1E) Phase.idle (.w16SubdatbLo 0) = false ∧
    Instr.wf (narrow 0x20) Phase.idle (.w16SbtimeHi 0) = false ∧
    Instr.wf (narrow 0x22) Phase.idle (.w16SbtimeLo 0) = false ∧
    Instr.wf (narrow 0x24) Phase.idle (.w16FifodataHi 0) = false ∧
    Instr.wf (narrow 0x26) Phase.idle (.w16FifodataLo 0) = false ∧
    Instr.wf (narrow 0x28) Phase.idle (.w16I2sdat2Hi 0) = false ∧
    Instr.wf (narrow 0x2A) Phase.idle (.w16I2sdat2Lo 0) = false ∧
    Instr.wf (narrow 0x2C) Phase.idle (.w16EebusHi 0) = false ∧
    Instr.wf (narrow 0x2E) Phase.idle (.w16EebusLo 0) = false := by
  decide

/-- An unrecognized access at an odd offset, at a recognized one, and outside the window (R211, R90, R212). -/
theorem test_wf_refuses_unrecognized_offsets :
    wfIn Phase.idle (.r16Unrecognized 0x0D) = false ∧ wfIn Phase.idle (.r16Unrecognized 0x0A) = false ∧
    wfIn Phase.idle (.r16Unrecognized 0x100) = false ∧ wfIn Phase.idle (.w16Unrecognized 0x0D 1) = false ∧
    wfIn Phase.idle (.w16Unrecognized 0x2E 1) = false ∧ wfIn Phase.idle (.w16Unrecognized 0x100 1) = false ∧
    wfIn Phase.idle (.r16Unrecognized 0x0C) = true ∧ wfIn Phase.idle (.w16Unrecognized 0xFE 1) = true := by
  decide

/-- A command whose opcode is another's, and one whose word is zero (R104, R112). -/
theorem test_wf_refuses_ambiguous_commands :
    let same : Config := { Config.default with opcStop := 0x01 }
    let zero : Config := { Config.default with opcSetMode := 0x00, opcStop := 0x06 }
    (Instr.dsaPlayTrack 1).wf same Phase.idle = false ∧ (Instr.dsaStop 1).wf same Phase.idle = false ∧
    (Instr.dsaReadToc 1).wf same Phase.idle = false ∧ (Instr.dsaPause 1).wf same Phase.idle = false ∧
    (Instr.dsaUnpause 1).wf same Phase.idle = false ∧ (Instr.dsaGotoMin 1).wf same Phase.idle = false ∧
    (Instr.dsaGotoSec 1).wf same Phase.idle = false ∧ (Instr.dsaGotoFrm 1).wf same Phase.idle = false ∧
    (Instr.dsaReadLongToc 1).wf same Phase.idle = false ∧ (Instr.dsaSetMode 0).wf zero Phase.idle = false ∧
    (Instr.dsaSetMode 1).wf zero Phase.idle = true ∧ (Instr.dsaOversample 1).wf same Phase.idle = false := by
  decide

/-- An unrecognized command that is the zero word, and one whose opcode is in the table (R176). -/
theorem test_wf_refuses_recognized_commands :
    wfIn Phase.idle (.dsaUnrecognized 0 0) = false ∧ wfIn Phase.idle (.dsaUnrecognized 0x15 1) = false ∧
    wfIn Phase.idle (.dsaUnrecognized 0 1) = true := by
  decide

/-- A clock of the wrong phase (R269). -/
theorem test_wf_refuses_clocks_of_the_other_phase :
    wfIn ⟨true, false, false, false⟩ (.cartClock true) = false ∧ wfIn Phase.idle (.cartUnexpectedClock true) = false := by
  decide

/-- A packet without its start bit under the check, and a malformed one without the check (R108, R308). -/
theorem test_wf_refuses_packets_by_start_bit :
    wfIn Phase.idle (.unitEwds false 0) = false ∧ wfIn Phase.idle (.unitWral false 0 0) = false ∧
    wfIn Phase.idle (.unitEral false 0) = false ∧ wfIn Phase.idle (.unitEwen false 0) = false ∧
    wfIn Phase.idle (.unitWrite false 0 0) = false ∧ wfIn Phase.idle (.unitRead false 0) = false ∧
    wfIn Phase.idle (.unitErase false 0) = false ∧
    (Instr.unitMalformed 0 0).wf { Config.default with unitStartBitCheck := false } Phase.idle = false := by
  decide

/-- A value of the lines under a row its chip-select, its strobe or the phase does not select (R302). -/
theorem test_wf_refuses_line_values_of_other_rows :
    wfIn Phase.idle (.unitLinesWrite 1) = false ∧ wfIn ⟨false, true, false, false⟩ (.unitLinesWrite 2) = false ∧
    wfIn Phase.idle (.unitChipselect 2) = false ∧ wfIn Phase.idle (.unitCommandBit 2) = false ∧
    wfIn ⟨false, true, false, true⟩ (.unitCommandBit 2) = false ∧ wfIn ⟨false, true, false, false⟩ (.unitCommandBit 3) = false ∧
    wfIn Phase.idle (.unitDataBit 2) = false ∧ wfIn ⟨false, true, true, false⟩ (.unitDataBit 2) = false ∧
    wfIn ⟨false, false, true, false⟩ (.unitDataBit 2) = true := by
  decide

/-! ## Words of the encoding tables -/

/-- The read of each offset of R190. -/
theorem test_decode_reads :
    reads (.window .read .w16) 0b00000000 0 = some .r16CtrlHi ∧
    reads (.window .read .w16) 0b00000010 0 = some .r16CtrlLo ∧
    reads (.window .read .w16) 0b00000100 0 = some .r16DsctrlHi ∧
    reads (.window .read .w16) 0b00000110 0 = some .r16DsctrlLo ∧
    reads (.window .read .w16) 0b00001000 0 = some .r16DsdataHi ∧
    reads (.window .read .w16) 0b00001010 0 = some .r16DsdataLo ∧
    reads (.window .read .w16) 0b00010000 0 = some .r16I2cntrlHi ∧
    reads (.window .read .w16) 0b00010010 0 = some .r16I2cntrlLo ∧
    reads (.window .read .w16) 0b00010100 0 = some .r16SbcntrlHi ∧
    reads (.window .read .w16) 0b00010110 0 = some .r16SbcntrlLo ∧
    reads (.window .read .w16) 0b00011000 0 = some .r16SubdataHi ∧
    reads (.window .read .w16) 0b00011010 0 = some .r16SubdataLo ∧
    reads (.window .read .w16) 0b00011100 0 = some .r16SubdatbHi ∧
    reads (.window .read .w16) 0b00011110 0 = some .r16SubdatbLo ∧
    reads (.window .read .w16) 0b00100000 0 = some .r16SbtimeHi ∧
    reads (.window .read .w16) 0b00100010 0 = some .r16SbtimeLo ∧
    reads (.window .read .w16) 0b00100100 0 = some .r16FifodataHi ∧
    reads (.window .read .w16) 0b00100110 0 = some .r16FifodataLo ∧
    reads (.window .read .w16) 0b00101000 0 = some .r16I2sdat2Hi ∧
    reads (.window .read .w16) 0b00101010 0 = some .r16I2sdat2Lo ∧
    reads (.window .read .w16) 0b00101100 0 = some .r16EebusHi ∧
    reads (.window .read .w16) 0b00101110 0 = some .r16EebusLo ∧
    reads (.window .read .w16) 0b00001100 0 = some (.r16Unrecognized 0x0C) := by
  decide +kernel

/-- The write of each offset of R190. -/
theorem test_decode_writes :
    reads (.window .write .w16) 0b00000000 0xA5C3 = some (.w16CtrlHi 0xA5C3) ∧
    reads (.window .write .w16) 0b00000010 0xA5C3 = some (.w16CtrlLo 0xA5C3) ∧
    reads (.window .write .w16) 0b00000100 0xA5C3 = some (.w16DsctrlHi 0xA5C3) ∧
    reads (.window .write .w16) 0b00000110 0xA5C3 = some (.w16DsctrlLo 0xA5C3) ∧
    reads (.window .write .w16) 0b00001000 0xA5C3 = some (.w16DsdataHi 0xA5C3) ∧
    reads (.window .write .w16) 0b00001010 0xA5C3 = some (.w16DsdataLo 0xA5C3) ∧
    reads (.window .write .w16) 0b00010000 0xA5C3 = some (.w16I2cntrlHi 0xA5C3) ∧
    reads (.window .write .w16) 0b00010010 0xA5C3 = some (.w16I2cntrlLo 0xA5C3) ∧
    reads (.window .write .w16) 0b00010100 0xA5C3 = some (.w16SbcntrlHi 0xA5C3) ∧
    reads (.window .write .w16) 0b00010110 0xA5C3 = some (.w16SbcntrlLo 0xA5C3) ∧
    reads (.window .write .w16) 0b00011000 0xA5C3 = some (.w16SubdataHi 0xA5C3) ∧
    reads (.window .write .w16) 0b00011010 0xA5C3 = some (.w16SubdataLo 0xA5C3) ∧
    reads (.window .write .w16) 0b00011100 0xA5C3 = some (.w16SubdatbHi 0xA5C3) ∧
    reads (.window .write .w16) 0b00011110 0xA5C3 = some (.w16SubdatbLo 0xA5C3) ∧
    reads (.window .write .w16) 0b00100000 0xA5C3 = some (.w16SbtimeHi 0xA5C3) ∧
    reads (.window .write .w16) 0b00100010 0xA5C3 = some (.w16SbtimeLo 0xA5C3) ∧
    reads (.window .write .w16) 0b00100100 0xA5C3 = some (.w16FifodataHi 0xA5C3) ∧
    reads (.window .write .w16) 0b00100110 0xA5C3 = some (.w16FifodataLo 0xA5C3) ∧
    reads (.window .write .w16) 0b00101000 0xA5C3 = some (.w16I2sdat2Hi 0xA5C3) ∧
    reads (.window .write .w16) 0b00101010 0xA5C3 = some (.w16I2sdat2Lo 0xA5C3) ∧
    reads (.window .write .w16) 0b00101100 0xA5C3 = some (.w16EebusHi 0xA5C3) ∧
    reads (.window .write .w16) 0b00101110 0xA5C3 = some (.w16EebusLo 0xA5C3) ∧
    reads (.window .write .w16) 0b11111110 7 = some (.w16Unrecognized 0xFE 7) := by
  decide +kernel

/-- The words of R104, parameter 0xA5. -/
theorem test_decode_commands :
    reads .dsa 0b0000000110100101 0 = some (.dsaPlayTrack 0xA5) ∧
    reads .dsa 0b0000001010100101 0 = some (.dsaStop 0xA5) ∧
    reads .dsa 0b0000001110100101 0 = some (.dsaReadToc 0xA5) ∧
    reads .dsa 0b0000010010100101 0 = some (.dsaPause 0xA5) ∧
    reads .dsa 0b0000010110100101 0 = some (.dsaUnpause 0xA5) ∧
    reads .dsa 0b0001000010100101 0 = some (.dsaGotoMin 0xA5) ∧
    reads .dsa 0b0001000110100101 0 = some (.dsaGotoSec 0xA5) ∧
    reads .dsa 0b0001001010100101 0 = some (.dsaGotoFrm 0xA5) ∧
    reads .dsa 0b0001010010100101 0 = some (.dsaReadLongToc 0xA5) ∧
    reads .dsa 0b0001010110100101 0 = some (.dsaSetMode 0xA5) ∧
    reads .dsa 0b0111000010100101 0 = some (.dsaOversample 0xA5) ∧
    reads .dsa 0 0 = some .dsaZeroWord ∧
    reads .dsa 0b0101000000000001 0 = some (.dsaUnrecognized 0x50 1) ∧
    reads .dsa 1 0 = some (.dsaUnrecognized 0 1) := by
  decide +kernel

/-- The frames of R107, first clock highest. -/
theorem test_decode_cartridge_frames :
    reads .cartFrame 0b100001010 0x0000 = some (.cartEwds true 0b1010) ∧
    reads .cartFrame 0b000011010 0xABCD = some (.cartWral false 0b1010 0xABCD) ∧
    reads .cartFrame 0b100101010 0x0000 = some (.cartEral true 0b1010) ∧
    reads .cartFrame 0b100111010 0x0000 = some (.cartEwen true 0b1010) ∧
    reads .cartFrame 0b101000101 0x1234 = some (.cartWrite true 5 0x1234) ∧
    reads .cartFrame 0b110000101 0x0000 = some (.cartRead true 5) ∧
    reads .cartFrame 0b111000101 0x0000 = some (.cartErase true 5) := by
  decide +kernel

/-- The packets of R109, bit 8 the first pulse. -/
theorem test_decode_unit_packets :
    reads .unitPacket 0b100001010 0x0000 = some (.unitEwds true 0b1010) ∧
    reads .unitPacket 0b100011010 0xABCD = some (.unitWral true 0b1010 0xABCD) ∧
    reads .unitPacket 0b100101010 0x0000 = some (.unitEral true 0b1010) ∧
    reads .unitPacket 0b100111010 0x0000 = some (.unitEwen true 0b1010) ∧
    reads .unitPacket 0b101000101 0x1234 = some (.unitWrite true 5 0x1234) ∧
    reads .unitPacket 0b110000101 0x0000 = some (.unitRead true 5) ∧
    reads .unitPacket 0b111000101 0x0000 = some (.unitErase true 5) ∧
    reads .unitPacket 0b010000101 0 = some (.unitMalformed 2 5) := by
  decide +kernel

/-- The ports of R111, the lines of R110, the timer and reset. -/
theorem test_decode_ports :
    reads .cartSelect 0 0 = some .cartChipselect ∧ reads .cartClock 1 0 = some (.cartClock true) ∧
    reads .cartQuery 0 0 = some .cartReaddo ∧ reads .linesWrite 0b001 0 = some (.unitChipselect 1) ∧
    reads .linesWrite 0b010 0 = some (.unitLinesWrite 2) ∧ reads .linesRead 0 0 = some .unitLinesRead ∧
    reads .timer 0 0 = some .pumpTick ∧ reads .resetLine 0 0 = some .reset ∧
    decode Config.default ⟨true, true, false, false⟩ ⟨.cartClock, 1, 0⟩ = .ok (.cartUnexpectedClock true) ∧
    decode Config.default ⟨false, true, false, false⟩ ⟨.linesWrite, 0b110, 0⟩ = .ok (.unitCommandBit 6) ∧
    decode Config.default ⟨false, false, true, false⟩ ⟨.linesWrite, 0b010, 0⟩ = .ok (.unitDataBit 2) := by
  refine ⟨?_, ?_, ?_, ?_, ?_, ?_, ?_, ?_, rfl, rfl, rfl⟩ <;> decide +kernel

/-- Bus addresses of the window and of the three cartridge ports (R82, R111), and what is neither. -/
theorem test_decode_bus_addresses :
    reads (.system .write .w16) 0xDFFF0A 0x1503 = some (.w16DsdataLo 0x1503) ∧
    reads (.system .read .w8) 0xF14001 0 = some .cartReaddo ∧
    reads (.system .write .w8) 0xF14801 1 = some (.cartClock true) ∧
    reads (.system .write .w8) 0xF15001 0 = some .cartChipselect ∧
    reads (.window .read .w8) 0x02 0 = none ∧ reads (.window .read .w32) 0x00 0 = none ∧
    reads (.window .write .w16) 0x03 0 = none ∧ reads (.window .read .w16) 0x100 0 = none ∧
    reads (.system .read .w16) 0x000000 0 = none := by
  decide +kernel

/-- Words as the opcode table numbers them. -/
theorem test_decode_table_words :
    decodeTableWord 8 0x12 = some .r16I2cntrlLo ∧ decodeTableWord 16 0x1400 = some (.dsaReadLongToc 0) ∧
    decodeTableWord 16 0x1C5 = some (.unitErase true 5) ∧ decodeTableWord 8 0x01 = some (.unitChipselect 1) ∧
    decodeTableWord 32 (0b101000101 + 0x1234 * 2 ^ 9) = some (.cartWrite true 5 0x1234) := by
  decide +kernel

/-! ## Vectors of spec/95_test_vectors.md -/

/-- V1 to V12. -/
theorem test_lsn_to_msf :
    lsnToMsf (-150) = some (0, 0, 0) ∧ lsnToMsf (-1) = some (0, 1, 74) ∧ lsnToMsf 0 = some (0, 2, 0) ∧
    lsnToMsf 74 = some (0, 2, 74) ∧ lsnToMsf 75 = some (0, 3, 0) ∧ lsnToMsf 4349 = some (0, 59, 74) ∧
    lsnToMsf 4350 = some (1, 0, 0) ∧ lsnToMsf 18517 = some (4, 8, 67) ∧ lsnToMsf 228000 = some (50, 42, 0) ∧
    lsnToMsf 1147350 = some (255, 0, 0) ∧ lsnToMsf 1151850 = some (256, 0, 0) ∧ lsnToMsf (-151) = none := by
  decide +kernel

/-- V13 to V20. -/
theorem test_bcd :
    bcdToBin 0x00 = 0 ∧ bcdToBin 0x09 = 9 ∧ bcdToBin 0x10 = 10 ∧ bcdToBin 0x59 = 59 ∧ bcdToBin 0x74 = 74 ∧
    bcdToBin 0x99 = 99 ∧ bcdToBin 0x1A = 20 ∧ bcdToBin 0xFF = 165 := by
  decide +kernel

/-- V21, V22, V24, V25, V28: the words a short read queues. -/
theorem test_read_toc :
    after (exec (.dsaReadToc 0x00) (onDisc discA)) (fun t => t.fifo.words) = some [0x2001, 0x210C, 0x2232, 0x232A, 0x2400] ∧
    after (exec (.dsaReadToc 0x01) (onDisc discA)) (fun t => t.fifo.words) = some [0x0429] ∧
    after (exec (.dsaReadToc 0x00) (onDisc discB)) (fun t => t.fifo.words) = some [0x2001, 0x2103, 0x220D, 0x2328, 0x2432] ∧
    after (exec (.dsaReadToc 0x01) (onDisc discB)) (fun t => t.fifo.words) = some [0x2004, 0x2105, 0x2216, 0x230F, 0x2419] ∧
    after (exec (.dsaReadToc 0x02) (onDisc discB)) (fun t => t.fifo.words) = some [0x0429] := by
  decide +kernel

/-- V26 and V27: the words a long read queues, and its range. -/
theorem test_read_long_toc :
    after (exec (.dsaReadLongToc 0x00) (onDisc discB)) (fun t => t.fifo.words) =
      some [0x6001, 0x6100, 0x6200, 0x6302, 0x6400, 0x6002, 0x6100, 0x6203, 0x6316, 0x6400, 0x6003, 0x6100, 0x6206, 0x632A,
        0x6400, 0x6000, 0x6100, 0x6200, 0x6300, 0x6400] ∧
    after (exec (.dsaReadLongToc 0x01) (onDisc discB)) (fun t => (t.fifo.words, t.toc.startTrack, t.toc.endTrack)) =
      some ([0x6004, 0x6100, 0x620C, 0x6322, 0x6438, 0x6005, 0x6100, 0x6214, 0x6300, 0x640A, 0x6000, 0x6100, 0x6200, 0x6300,
        0x6400], 4, 5) := by
  decide +kernel

/-- V29: the adapter not open. -/
theorem test_guarded_command :
    after (exec (.dsaReadToc 0) { noAdapter with disc := discA }) (fun t => (t.txPending, t.rxPending, t.fifo.words)) =
      some (false, false, []) := by
  decide +kernel

/-- V30 to V32: the third command of a seek. -/
theorem test_goto_frames :
    let given := fun m s : Byte => { State.reset with dsp := { State.reset.dsp with gotoMin := m, gotoSec := s } }
    after (exec (.dsaGotoFrm 67) (given 4 8)) (fun t => (t.dsp.targetSector, t.pump.sector, t.pump.dirty, t.fifo.words)) =
      some (18517, 18517, true, [0x0100]) ∧
    after (exec (.dsaGotoFrm 0) State.reset) (fun t => t.pump.sector) = some (-150) ∧
    after (exec (.dsaGotoFrm 255) (given 255 255)) (fun t => t.dsp.targetSector) = some 1166730 := by
  decide +kernel

/-- V30: the first two commands of a seek queue nothing. -/
theorem test_goto_minutes_and_seconds :
    after (exec (.dsaGotoMin 4) State.reset) (fun t => (t.dsp.gotoMin, t.txPending, t.rxPending, t.fifo.words)) =
      some (4, true, false, []) ∧
    after (exec (.dsaGotoSec 8) State.reset) (fun t => (t.dsp.gotoSec, t.txPending, t.rxPending, t.fifo.words)) =
      some (8, true, false, []) := by
  decide +kernel

/-- V34 to V36. -/
theorem test_set_mode :
    after (exec (.dsaSetMode 0x03) State.reset) (fun t => (t.fifo.words, t.dsp.playMode, t.pump.rate)) =
      some ([0x1703], 3, .double) ∧
    after (exec (.dsaSetMode 0xFE) State.reset) (fun t => (t.fifo.words, t.pump.rate)) = some ([0x17FE], .single) := by
  decide +kernel

/-- V37. -/
theorem test_oversample :
    after (exec (.dsaOversample 0x01) State.reset) (fun t => t.fifo.words) = some [0x7001] := by
  decide +kernel

/-- V38. -/
theorem test_acknowledged_commands :
    after (exec (.dsaPlayTrack 2) State.reset) (fun t => (t.txPending, t.fifo.words)) = some (true, []) ∧
    after (exec (.dsaStop 0) State.reset) (fun t => (t.txPending, t.fifo.words)) = some (true, []) ∧
    after (exec (.dsaPause 0) State.reset) (fun t => (t.txPending, t.fifo.words)) = some (true, []) ∧
    after (exec (.dsaUnpause 0) State.reset) (fun t => (t.txPending, t.fifo.words)) = some (true, []) := by
  decide +kernel

/-- V39. -/
theorem test_unrecognized_and_zero_word :
    after (exec (.dsaUnrecognized 0x50 0) State.reset) (fun t => (t.txPending, t.fifo.words)) = some (true, []) ∧
    after (exec .dsaZeroWord State.reset) (fun t => t.txPending) = some false ∧
    after (exec (.w16DsdataLo 0x0001) State.reset) (fun t => (t.txPending, t.fifo.words)) = some (true, []) := by
  decide +kernel

/-- V45: two words of a response fit, three are dropped, the table is written all the same. -/
theorem test_response_to_a_nearly_full_queue :
    after (exec (.dsaReadToc 0) { queued 509 with disc := discA }) (fun t => (t.fifo.wr, t.fifo.slots[509], t.fifo.slots[510])) =
      some (511, 0x2001, 0x210C) ∧
    after (exec (.dsaReadToc 0) { queued 509 with disc := discA }) (fun t => t.toc.entries[0]) =
      some ⟨1, 12, 50, 42, 0⟩ := by
  decide +kernel

/-- V42 and V44: the cursors wrap; an empty queue answers the sentinel. -/
theorem test_queue_cursors :
    let wrapped := { State.reset with fifo := { State.reset.fifo with rd := 511, wr := 511 } }
    after (exec (.dsaOversample 0) wrapped) (fun t => (t.fifo.rd, t.fifo.wr, t.fifo.slots[511])) = some (511, 0, 0x7000) ∧
    after (exec .r16DsdataLo State.reset) (fun t => (t.result, t.fifo.rd, t.fifo.wr)) = some (0xFFFF, 0, 0) := by
  decide +kernel

/-- V50 and V52: reads after reset; the stored bits 12 and 13 are hidden by the latches. -/
theorem test_control_reads :
    after (exec .r16CtrlLo State.reset) (fun t => t.result) = some 0 ∧
    after (exec .r16CtrlLo { State.reset with regs := { Regs.zero with ctrl := ⟨0, 0xFFFF⟩ } }) (fun t => t.result) =
      some 0xCFFF ∧
    after (exec .r16CtrlLo { State.reset with txPending := true, rxPending := true }) (fun t => t.result) =
      some 0x3000 := by
  decide +kernel

/-- V51: the acknowledging read. -/
theorem test_dsctrl_read :
    after (exec .r16DsctrlLo (queued 1)) (fun t => t.rxPending) = some true ∧
    after (exec .r16DsctrlLo { queued 1 with fifo := { State.reset.fifo with rd := 1, wr := 1 } }) (fun t => t.rxPending) =
      some false := by
  decide +kernel

/-- V55 to V57: plain halves, unrecognized offsets, the line half. -/
theorem test_plain_unrecognized_and_line_halves :
    after (exec (.w16SbtimeLo 0xBEEF) State.reset) (fun t => t.regs.sbtime) = some ⟨0, 0xBEEF⟩ ∧
    after (exec (.w16Unrecognized 0x0C 0x1234) State.reset) (fun t => t.regs) = some Regs.zero ∧
    after (exec (.w16EebusLo 0xFFF8) State.reset) (fun t => (t.regs.eebus.lo, t.unit)) =
      some (0xFFF8, State.reset.unit) ∧
    after (exec .r16EebusLo { State.reset with regs := { Regs.zero with eebus := ⟨0, 0xFFF8⟩ } }) (fun t => t.result) =
      some 0 := by
  decide +kernel

/-- V58 and V59. -/
theorem test_i2s_control :
    after (exec (.w16I2cntrlLo 0x0003) State.reset) (fun t => t.pump.armed) = some false ∧
    after (exec (.w16I2cntrlLo 0x0007) State.reset) (fun t => t.pump.armed) = some true ∧
    after (exec (.w16I2cntrlLo 0x0003) armed) (fun t => t.pump.armed) = some true := by
  decide +kernel

/-- V60, with the overlay bit 17. -/
theorem test_overlay :
    let s17 := { State.reset with cfg := { Config.default with ctrlOverlayBit := 17 } }
    after (exec (.w16CtrlHi 0x0002) s17) (fun t => (t.overlayDisabled, t.events)) = some (false, []) ∧
    after (exec (.w16CtrlHi 0x0000) s17) (fun t => (t.overlayDisabled, t.events)) = some (true, [.overlayDisable]) := by
  decide +kernel

/-- V61, V62 and V69: a first tick. -/
theorem test_first_tick :
    after (exec .pumpTick armed) (fun t => (t.pump.outLeft, t.pump.outRight, t.pump.cursor, t.pump.armed, t.events)) =
      some (0x0001, 0x0002, 4, true, [.audioReady]) ∧
    after (exec .pumpTick { armed with modeReg := 0x10 }) (fun t => (t.pump.outRight, t.pump.prevRight)) =
      some (0x0000, 0x0002) ∧
    after (exec .pumpTick { armed with cfg := { Config.default with pcmLittleEndian := false } })
      (fun t => (t.pump.outLeft, t.pump.outRight)) = some (0x0100, 0x0200) := by
  decide +kernel

/-- V64, V65 and V66: the last pair of a sector, the first of the next, and a sector that cannot be read. -/
theorem test_tick_at_sector_boundaries :
    after (exec .pumpTick { armed with pump := { armed.pump with cursor := 2348 } })
      (fun t => (t.pump.sector, t.pump.cursor, t.pump.dirty)) = some (1, 0, true) ∧
    after (exec .pumpTick { armed with pump := { armed.pump with sector := 1 } })
      (fun t => (t.pump.outLeft, t.pump.outRight)) = some (0x2211, 0x4433) ∧
    after (exec .pumpTick { armed with pump := { armed.pump with sector := 2 } })
      (fun t => (t.pump.outLeft, t.pump.outRight, t.pump.bufValid, t.pump.cursor)) = some (0xFFFF, 0xFFFF, false, 4) := by
  decide +kernel

/-- V67: the tick after an enable bit was cleared; and a tick that is not enabled. -/
theorem test_tick_not_enabled :
    after (exec .pumpTick { armed with regs := { Regs.zero with i2cntrl := ⟨0, 0x0003⟩ } }) (fun t => t.pump.armed) =
      some false ∧
    stopped (exec .pumpTick State.reset) = some .tickNotArmed := by
  decide +kernel

/-- V70 and V71: WRITE without and with the latch. -/
theorem test_cart_write :
    after (exec (.cartWrite true 5 0x1234) State.reset) (fun t => (t.cart.arr[5], t.cart.state, t.nvCart)) =
      some (0xFFFF, .busy, none) ∧
    after (exec (.cartWrite true 5 0x1234) (cartIn .start)) (fun t => (t.cart.arr[5], t.cart.state, t.nvCart)) =
      some (0x1234, .busy, some [(10, 0x12), (11, 0x34)]) := by
  refine ⟨?_, ?_⟩ <;> decide +kernel

/-- V77, V78 and V79. -/
theorem test_cart_erase_and_fill :
    after (exec (.cartErase true 5) { cartIn .start with cart := { (cartIn .start).cart with arr := Vector.replicate 64 1 } })
      (fun t => (t.cart.arr[5], t.cart.arr[4], t.nvCart)) = some (0xFFFF, 1, none) ∧
    after (exec (.cartWral true 0 0xABCD) (cartIn .start)) (fun t => (t.cart.arr[0], t.cart.arr[63], t.cart.state)) =
      some (0xABCD, 0xABCD, .busy) ∧
    after (exec (.cartEral true 0) { cartIn .start with cart := { (cartIn .start).cart with arr := Vector.replicate 64 1 } })
      (fun t => (t.cart.arr[0], t.cart.arr[63], t.nvCart)) = some (0xFFFF, 0xFFFF, none) := by
  refine ⟨?_, ?_, ?_⟩ <;> decide +kernel

/-- V72, V74 and V76: the output line, EWDS and EWEN, chip-select. -/
theorem test_cart_small_operations :
    after (exec .cartReaddo (cartIn .busy)) (fun t => (t.result, t.cart.state)) = some (0, .start) ∧
    after (exec .cartReaddo (cartIn .start)) (fun t => (t.result, t.cart.state)) = some (1, .start) ∧
    after (exec (.cartEwds true 0) (cartIn .start)) (fun t => (t.cart.wen, t.cart.state)) = some (false, .start) ∧
    after (exec (.cartEwen true 0) State.reset) (fun t => (t.cart.wen, t.cart.state)) = some (true, .start) ∧
    after (exec .cartChipselect State.reset) (fun t => t.cart.wen) = some true := by
  decide +kernel

/-- V73, V80 and V81: READ, its first bits, and clocks that fall back. -/
theorem test_cart_read_and_unexpected_clock :
    after (exec (.cartRead true 63) (cartIn .start)) (fun t => (t.cart.state, t.cart.addr, t.cart.dataCnt)) =
      some (.readOut, 63, 16) ∧
    after (exec .cartReaddo { cartIn .readOut with cart := { (cartIn .readOut).cart with
      arr := Vector.replicate 64 0x1234, dataCnt := 13 } }) (fun t => (t.result, t.cart.dataCnt)) = some (1, 12) ∧
    after (exec (.cartUnexpectedClock true) (cartIn .busy)) (fun t => t.cart.state) = some .start ∧
    after (exec (.cartUnexpectedClock false) (cartIn .readOut)) (fun t => t.cart.state) = some .start := by
  decide +kernel

/-- V84: ten clocks `0 1 1 0 0 0 0 1 0 1` are an ERASE of address 2, and a clock in `BUSY`. -/
theorem test_cart_frame_with_a_leading_zero :
    after (exec (.cartErase false 2) (cartIn .start)) (fun t => (t.cart.op, t.cart.addr, t.cart.state)) =
      some (3, 2, .busy) := by
  decide +kernel

/-- V88: a frame clocked in `BUSY` loses its first bit. -/
theorem test_cart_frame_in_busy :
    after (exec (.cartRead true 5) (cartIn .busy)) (fun t => (t.cart.state, t.cart.op, t.cart.addr, t.cart.addrCnt)) =
      some (.addr, 0, 5, 1) := by
  decide +kernel

/-- V90: a packet without a chip-select is ignored. -/
theorem test_unit_packet_without_select :
    after (exec (.unitEwen true 0) State.reset) (fun t => (t.unit.wen, t.unit.cmdCnt)) = some (false, 0) := by
  decide +kernel

/-- V93 and V102. -/
theorem test_unit_enable_and_disable :
    after (exec (.unitEwen true 0) { selected with unit := unitSelect State.reset.unit })
      (fun t => (t.unit.wen, t.unit.ready, t.unit.cmd, t.unit.cmdCnt)) = some (true, false, 0x130, 9) ∧
    after (exec (.unitEwds true 0) selected) (fun t => t.unit.wen) = some false := by
  decide +kernel

/-- V92 and V95: WRITE without and with the latch. -/
theorem test_unit_write :
    after (exec (.unitWrite true 5 0x1234) { selected with unit := unitSelect State.reset.unit })
      (fun t => (t.unit.arr[5], t.unit.acc, t.nvUnit)) = some (0xFFFF, 0x1234, none) ∧
    after (exec (.unitWrite true 5 0x1234) selected) (fun t => (t.unit.arr[5], t.unit.dop, t.nvUnit)) =
      some (0x1234, .none, some [(10, 0x12), (11, 0x34)]) := by
  refine ⟨?_, ?_⟩ <;> decide +kernel

/-- V96: READ preloads the accumulator, and its first data pulse shows bit 15. -/
theorem test_unit_read :
    let full := { selected with unit := { selected.unit with arr := Vector.replicate 64 0x8001 } }
    after (exec (.unitRead true 5) full) (fun t => (t.unit.acc, t.unit.dop)) = some (0x8001, .read) ∧
    after (exec .unitLinesRead { full with unit := { full.unit with acc := 0x10002 } }) (fun t => t.result) =
      some 0x0008 ∧
    after (exec .unitLinesRead { full with unit := { full.unit with acc := 0x8001 } }) (fun t => t.result) = some 0 := by
  decide +kernel

/-- V98 and V108: a packet without its start bit, with the check and without. -/
theorem test_unit_malformed :
    after (exec (.unitMalformed 2 5) selected) (fun t => (t.unit.ready, t.unit.dop, t.unit.cmd)) =
      some (false, .none, 0b010000101) ∧
    after (exec (.unitWrite false 5 0xFFFE) { selected with cfg := { Config.default with unitStartBitCheck := false } })
      (fun t => t.unit.arr[5]) = some 0xFFFE := by
  decide +kernel

/-- V99 to V101. -/
theorem test_unit_fill_and_erase :
    let full := { selected with unit := { selected.unit with arr := Vector.replicate 64 0xABCD } }
    after (exec (.unitWral true 0 0xABCD) selected) (fun t => (t.unit.arr[0], t.unit.arr[63], t.events.length)) =
      some (0xABCD, 0xABCD, 1) ∧
    after (exec (.unitErase true 5) full) (fun t => (t.unit.arr[5], t.unit.arr[4], t.events.length)) =
      some (0xFFFF, 0xABCD, 1) ∧
    after (exec (.unitEral true 0) full) (fun t => (t.unit.arr[0], t.unit.arr[63], t.events.length)) =
      some (0xFFFF, 0xFFFF, 1) := by
  decide +kernel

/-- V105 and V106: the write that releases chip-select and raises the strobe; a strobe already up. -/
theorem test_unit_lines :
    after (exec (.unitChipselect 0b001) State.reset) (fun t => (t.unit.ready, t.unit.prevClk)) = some (true, false) ∧
    after (exec (.unitCommandBit 0b110) selected) (fun t => (t.unit.cmdCnt, t.unit.cmd)) = some (1, 1) ∧
    after (exec (.unitLinesWrite 0b110) { selected with unit := { selected.unit with prevClk := true } })
      (fun t => t.unit.cmdCnt) = some 0 := by
  decide +kernel

/-- V95, last pulse: the sixteenth data bit commits. -/
theorem test_unit_data_bit :
    after (exec (.unitDataBit 0b110) { inData .write 15 with unit := { (inData .write 15).unit with acc := 0x091A } })
      (fun t => (t.unit.arr[5], t.unit.dop)) = some (0x1235, .none) ∧
    after (exec (.unitDataBit 0b010) (inData .read 14)) (fun t => (t.unit.dataCnt, t.unit.dop)) = some (15, .read) := by
  decide +kernel

/-- V110 to V112: what a reset leaves, and what it keeps. -/
theorem test_reset :
    after (exec .reset { armed with nvUnit := some [(10, 0x12), (11, 0x34)] })
      (fun t => (t.unit.arr[5], t.unit.arr[4], t.regs, t.pump.armed)) = some (0x1234, 0xFFFF, Regs.zero, false) ∧
    after (exec .reset armed) (fun t => (t.cart.arr[0], t.cart.addrCnt, t.cart.dataCnt, t.cart.wen, t.fifo.words)) =
      some (0xFFFF, 6, 16, false, []) := by
  refine ⟨?_, ?_⟩ <;> decide +kernel

/-- The first step after reset runs a presented word. -/
theorem test_step_runs_a_table_word :
    after (step (State.reset.withFetchWord 16 0x1503)) (fun t => (t.dsp.playMode, t.fifo.words, t.inputs)) =
      some (3, [0x1703], []) := by
  decide +kernel

/-- A rejected access stops the step by name (R90, R212). -/
theorem test_step_refuses_by_name :
    stopped (step { State.reset with inputs := [⟨⟨.window .read .w8, 2, 0⟩, 0⟩] }) = some .unsupportedAccessWidth ∧
    stopped (step { State.reset with inputs := [⟨⟨.window .read .w16, 0x100, 0⟩, 0⟩] }) = some .outsideWindow ∧
    stopped (step { State.reset with inputs := [⟨⟨.system .read .w16, 0, 0⟩, 0⟩] }) = some .notAddressed ∧
    stopped (step { State.reset with cfg := { Config.default with opcStop := 1 } }) = some .badConfiguration := by
  decide +kernel

/-! ## Every statement with hypotheses has a state and operands that meet them -/

/-- The store of a half of `i2cntrl`, and its enable condition, as `I2sControlWriteArmsThePump` spells them. -/
def i2sAfter (lo : Half) (s : State) : State := { s with regs := { s.regs with i2cntrl := ⟨s.regs.i2cntrl.hi, lo⟩ } }

/-- The same for the upper half. -/
def i2sAfterHi (hi : Half) (s : State) : State := { s with regs := { s.regs with i2cntrl := ⟨hi, s.regs.i2cntrl.lo⟩ } }

/-- The three enable bits of the whole register. -/
def enabledBits (s : State) : Bool :=
  let x : Word := s.regs.i2cntrl.hi ++ s.regs.i2cntrl.lo
  x.getLsbD s.cfg.i2sEnDiscBit.val && x.getLsbD s.cfg.i2sEnConsumerBit.val && x.getLsbD s.cfg.i2sEnXferBit.val

/-- The state after reset with the enabling write refused while armed. -/
def strict : State := { armed with cfg := { Config.default with pumpRearmWhileArmed := .refuse } }

/-- The state after reset with the line half `.hi`. -/
def linesHi : State := { State.reset with cfg := { Config.default with unitBusHalf := .hi } }

theorem reset_inv : State.reset.Inv :=
  ⟨⟨nofun, nofun, Memory.wf_nil _⟩, ⟨rfl, Nat.zero_le _⟩, ⟨nofun, nofun, nofun⟩, ⟨nofun, fun h => absurd rfl h⟩⟩

theorem witness_ResetGivesEveryComponentItsValue :
    State.reset.nvCart = none ∧ State.reset.nvUnit = none ∧
    { State.reset with nvCart := some [(0, 1)] }.nvCart = some [(0, 1)] ∧
    { State.reset with nvUnit := some [(127, 1)] }.nvUnit = some [(127, 1)] ∧
    (∃ t, exec .reset State.reset = .next t) ∧ Space.nvCart ≠ Space.sector :=
  ⟨rfl, rfl, rfl, rfl, ⟨_, rfl⟩, nofun⟩

theorem witness_DsctrlReadAcknowledgesReceive :
    State.reset.fifo.rd = State.reset.fifo.wr ∧ (queued 1).fifo.rd ≠ (queued 1).fifo.wr ∧
    (queued 511).fifo.rd ≠ (queued 511).fifo.wr := by
  decide

theorem witness_CommandDataReadDequeues :
    State.reset.fifo.rd = State.reset.fifo.wr ∧ (queued 1).fifo.rd ≠ (queued 1).fifo.wr ∧
    (let f : Fifo := ⟨Vector.replicate 512 0, 511, 0⟩; f.rd ≠ f.wr) := by
  decide

theorem witness_I2sControlWriteArmsThePump :
    (enabledBits (i2sAfter 0x0003 State.reset) = false) ∧
    (enabledBits (i2sAfter 0x0007 State.reset) = true ∧ State.reset.pump.armed = false) ∧
    (enabledBits (i2sAfterHi 0xFFFF armed) = true ∧ armed.pump.armed = true ∧
      armed.cfg.pumpRearmWhileArmed = .idempotent) ∧
    (enabledBits (i2sAfter 0x0007 strict) = true ∧ strict.pump.armed = true ∧
      strict.cfg.pumpRearmWhileArmed = .refuse) := by
  decide +kernel

theorem witness_EebusHalvesAreLinesAndStorage :
    State.reset.cfg.unitBusHalf = .lo ∧ linesHi.cfg.unitBusHalf = .hi := by
  decide

theorem witness_LineReadShowsAccumulatorBit16 :
    State.reset.cfg.unitBusHalf = .lo ∧ linesHi.cfg.unitBusHalf = .hi ∧ State.reset.unit.acc.getLsbD 16 = false ∧
    (0x10000 : Word).getLsbD 16 = true := by
  decide

theorem witness_ReadsLeaveEverythingElse :
    (∃ t, exec .r16CtrlHi State.reset = .next t) ∧ (∃ t, exec .r16DsctrlLo (queued 0) = .next t) ∧
    (∃ t, exec .r16DsctrlLo (queued 1) = .next t) ∧ (∃ t, exec .r16DsdataLo State.reset = .next t) ∧
    (∃ t, exec .r16DsdataLo (queued 511) = .next t) ∧ (∃ t, exec .r16EebusHi State.reset = .next t) ∧
    (∃ t, exec .r16EebusLo State.reset = .next t) ∧ (∃ t, exec (.r16Unrecognized 0x0C) State.reset = .next t) ∧
    (∃ t, exec .unitLinesRead State.reset = .next t) :=
  ⟨⟨_, rfl⟩, ⟨_, rfl⟩, ⟨_, rfl⟩, ⟨_, rfl⟩, ⟨_, rfl⟩, ⟨_, rfl⟩, ⟨_, rfl⟩, ⟨_, rfl⟩, ⟨_, rfl⟩⟩

theorem witness_RegisterWritesLeaveEverythingElse :
    (∃ t, exec (.w16CtrlHi 0) { State.reset with cfg := { Config.default with ctrlOverlayBit := 0 } } = .next t) ∧
    (∃ t, exec (.w16DsctrlLo 0xFFFF) State.reset = .next t) ∧ (∃ t, exec (.w16I2cntrlLo 0x0007) State.reset = .next t) ∧
    (∃ t, exec (.w16I2cntrlHi 0) armed = .next t) ∧ (∃ t, exec (.w16Unrecognized 0xFE 1) State.reset = .next t) ∧
    RegName.dsctrl ≠ RegName.ctrl ∧ RegName.dsctrl ≠ RegName.i2cntrl :=
  ⟨⟨_, rfl⟩, ⟨_, rfl⟩, ⟨_, rfl⟩, ⟨_, rfl⟩, ⟨_, rfl⟩, nofun, nofun⟩

theorem witness_QueueBehavesAsAList :
    State.reset.fifo.words = [] ∧ (queued 510).fifo.words.length < 511 ∧ (queued 511).fifo.words.length = 511 ∧
    (queued 1).fifo.words = [0] := by
  decide +kernel

theorem witness_QueuedWordsReturnInOrder :
    State.reset.fifo.rd = State.reset.fifo.wr ∧ (List.replicate 511 (1 : Half)).length ≤ 511 ∧
    (List.replicate 511 (1 : Half)).length = 511 ∧ ([] : List Half).length ≤ 511 := by
  decide +kernel

theorem witness_GuardedCommandIsOnlyStored :
    noAdapter.dsp.adapterOk = false ∧
    (Instr.dsaUnrecognized 0x50 1, (0x50 : Byte)) ∈ [(Instr.dsaStop 1, noAdapter.cfg.opcStop), (.dsaUnrecognized 0x50 1, 0x50)] := by
  decide

theorem witness_AcknowledgedCommandsOnlySetTransmitPending :
    State.reset.dsp.adapterOk = true ∧ State.reset.cfg.opcPlayTrack ++ (0 : Byte) ≠ (0 : Half) ∧
    State.reset.cfg.opcUnpause ++ (0xFF : Byte) ≠ (0 : Half) := by
  decide

theorem witness_UnrecognizedOpcodeOnlySetsTransmitPending :
    State.reset.dsp.adapterOk = true ∧ (0x50 : Byte) ++ (0 : Byte) ≠ (0 : Half) ∧ (∀ k, State.reset.cfg.opc k ≠ 0x50) ∧
    (0 : Byte) ++ (1 : Byte) ≠ (0 : Half) ∧ ∀ k, State.reset.cfg.opc k ≠ 0 := by
  refine ⟨by decide, by decide, fun k => ?_, by decide, fun k => ?_⟩ <;> cases k <;> decide

theorem witness_GotoCommandsAccumulateAndSeek :
    State.reset.dsp.adapterOk = true ∧ State.reset.cfg.opcGotoMin ++ (0 : Byte) ≠ (0 : Half) ∧
    State.reset.cfg.opcGotoSec ++ (255 : Byte) ≠ (0 : Half) ∧ State.reset.cfg.opcGotoFrm ++ (0 : Byte) ≠ (0 : Half) := by
  decide

theorem witness_SetModeSelectsTheRate :
    State.reset.dsp.adapterOk = true ∧ State.reset.cfg.opcSetMode ++ (0 : Byte) ≠ (0 : Half) ∧
    State.reset.cfg.opcSetMode ++ (0xFF : Byte) ≠ (0 : Half) := by
  decide

theorem witness_OversampleEchoesTheCommand :
    State.reset.dsp.adapterOk = true ∧ State.reset.cfg.opcOversample ++ (0 : Byte) ≠ (0 : Half) := by
  decide

theorem witness_ShortTocResponseIsFiveTaggedWords :
    (onDisc discA).dsp.adapterOk = true ∧ (onDisc discA).cfg.opcReadToc ++ (0 : Byte) ≠ (0 : Half) ∧
    (∃ t, readShortToc (onDisc discA).cfg discA true 0 (onDisc discA).toc = .ok (0x0000, t)) ∧
    readShortToc (onDisc discA).cfg discA true 0xFF (onDisc discA).toc = .ok (0x0429, (onDisc discA).toc) :=
  ⟨rfl, by decide, ⟨_, rfl⟩, rfl⟩

theorem witness_LongTocResponseIsAQuintuplePerTrack :
    (onDisc discB).dsp.adapterOk = true ∧ (onDisc discB).cfg.opcReadLongToc ++ (1 : Byte) ≠ (0 : Half) ∧
    (∃ t, readLongToc (onDisc discB).cfg discB true 1 (onDisc discB).toc = .ok (0x0000, t)) ∧
    readLongToc (onDisc discB).cfg discB true 2 (onDisc discB).toc = .ok (0x0429, (onDisc discB).toc) :=
  ⟨rfl, by decide, ⟨_, rfl⟩, rfl⟩

theorem witness_DispatchLeavesEverythingElse :
    (∃ t, exec (.dsaReadLongToc 1) (onDisc discB) = .next t) ∧ (∃ t, exec (.dsaGotoFrm 0) State.reset = .next t) ∧
    (∃ t, exec .dsaZeroWord State.reset = .next t) ∧ (∃ t, exec (.w16DsdataLo 0x1503) State.reset = .next t) ∧
    (RegName.dsdata, RegHalf.hi) ≠ (RegName.dsdata, RegHalf.lo) :=
  ⟨⟨_, rfl⟩, ⟨_, rfl⟩, ⟨_, rfl⟩, ⟨_, rfl⟩, nofun⟩

theorem witness_LsnToMsfInvertsTheFrameCount : (-150 : Int) ≤ -150 ∧ (-151 : Int) < -150 := by
  decide

theorem discB_twoSessions : discB.TwoSessions 4 := by
  refine ⟨by decide, by decide, by decide, by decide, fun k h1 h2 => ?_⟩
  have : k = 1 ∨ k = 2 ∨ k = 3 := by omega
  rcases this with rfl | rfl | rfl <;> decide

theorem disc99_twoSessions : disc99.TwoSessions 99 := by
  refine ⟨by decide, by decide, by decide, by decide, fun k h1 h2 => ?_⟩
  have all : ∀ k : Fin 99, disc99.trackLSN k.val ≠ disc99.lastSessionStart := by decide +kernel
  exact all ⟨k, h2⟩

theorem witness_SessionsPartitionTheDisc :
    (discA.lastSessionStart = discA.trackLSN discA.firstTrack ∧ (0xFF : Byte) ≠ 0) ∧
    (discB.TwoSessions 4 ∧ (2 : Byte) ≠ 0 ∧ (2 : Byte) ≠ 1) ∧
    (discA.trackCount ≤ 99 ∧ -150 ≤ discA.leadOutLSN Config.default ∧ discA.leadOutLSN Config.default ≤ 294911849) ∧
    (discB.trackCount ≤ 99 ∧ -150 ≤ discB.leadOutLSN Config.default ∧ discB.leadOutLSN Config.default ≤ 294911849 ∧
      -150 ≤ discB.trackLSN 4 ∧ discB.trackLSN 4 ≤ 294911849) ∧
    (disc99.trackCount ≤ 99 ∧ -150 ≤ disc99.leadOutLSN Config.default ∧ disc99.TwoSessions 99 ∧
      -150 ≤ disc99.trackLSN 99) :=
  ⟨by decide, ⟨discB_twoSessions, by decide, by decide⟩, by decide, by decide,
    by decide, by decide, disc99_twoSessions, by decide⟩

theorem witness_LongTocFillsTheSessionsTracks :
    (∃ t, readLongToc Config.default discB true 1 State.reset.toc = .ok (0x0000, t) ∧ t.startTrack.toNat = 4 ∧
      t.endTrack.toNat = 5) ∧ discB.TwoSessions 4 ∧
    (∃ t, readLongToc Config.default discA true 0 State.reset.toc = .ok (0x0000, t)) ∧
    discA.lastSessionStart = discA.trackLSN discA.firstTrack ∧ 1 ≤ (4 : Fin 100).val ∧ 1 ≤ (5 : Fin 100).val ∧ 1 ≤ (3 : Fin 100).val ∧
    1 ≤ (99 : Fin 100).val :=
  ⟨⟨_, rfl, by decide +kernel, by decide +kernel⟩, discB_twoSessions, ⟨_, rfl⟩, by decide, by decide, by decide, by decide,
    by decide⟩

theorem witness_MalformedDiscIsRefused :
    ((onDisc discBad).dsp.adapterOk = true ∧ discBad.lastSessionStart ≠ discBad.trackLSN discBad.firstTrack ∧
      (¬ ∃ b, discBad.TwoSessions b) ∧
      Config.default.opcReadToc ++ (0 : Byte) ≠ (0 : Half) ∧ Config.default.opcReadLongToc ++ (9 : Byte) ≠ (0 : Half)) ∧
    (discOne.lastSessionStart ≠ discOne.trackLSN discOne.firstTrack ∧ (¬ ∃ b, discOne.TwoSessions b) ∧
      discOne.trackLSN 3 = discOne.lastSessionStart) ∧
    (let d := { Disc.blank with otherLeadOut := -151, trackCount := 99 };
      d.lastSessionStart = d.trackLSN d.firstTrack ∧ d.leadOutLSN Config.default < -150 ∧ ¬ 99 < d.trackCount) ∧
    (let d := { Disc.blank with otherLeadOut := -150, trackCount := 100 };
      d.lastSessionStart = d.trackLSN d.firstTrack ∧ -150 ≤ d.leadOutLSN Config.default ∧ 99 < d.trackCount) ∧
    (let d := { discB with otherLeadOut := -151 }; d.TwoSessions 4 ∧ d.leadOutLSN Config.default < -150) ∧
    (disc100.TwoSessions 2 ∧ -150 ≤ disc100.leadOutLSN Config.default ∧ 99 < disc100.trackCount ∧
      disc100.trackLSN 2 < -150) := by
  refine ⟨⟨rfl, by decide, ?_, by decide, by decide⟩, ⟨by decide, ?_, by decide⟩, by decide, by decide, ⟨?_, by decide⟩, ?_⟩
  · rintro ⟨k, -, h1, h2, h3, -⟩
    have h2' : k ≤ 5 := h2
    have : k = 2 ∨ k = 3 ∨ k = 4 ∨ k = 5 := by omega
    rcases this with rfl | rfl | rfl | rfl <;> revert h3 <;> decide
  · rintro ⟨k, -, h1, -, -, h4⟩
    exact h4 1 (by decide) h1 (by decide)
  · exact discB_twoSessions
  · refine ⟨⟨by decide, by decide, by decide, by decide, fun k h1 h2 => ?_⟩, by decide, by decide, by decide⟩
    have : k = 1 := by omega
    subst this
    decide

/-- R137 and R35: "t above 99 is refused", also where the number does not fit the table's fields. -/
theorem test_long_toc_refuses_tracks_above_99 :
    stopped (exec (.dsaReadLongToc 0) (onDisc { Disc.blank with trackCount := 100 })) = some .malformedDisc ∧
    stopped (exec (.dsaReadLongToc 0) (onDisc { Disc.blank with trackCount := 70000 })) = some .malformedDisc ∧
    stopped (exec (.dsaReadLongToc 0) (onDisc { Disc.blank with trackCount := 99 })) = none := by
  decide +kernel

/-- R73: "`WS_FALLING_BIT` = 4". -/
theorem test_ws_falling_bit :
    wsFalling { State.reset with modeReg := 0x10 } = true ∧ wsFalling { State.reset with modeReg := 0xEF } = false := by
  decide

theorem witness_TickPlaysAReadableSector :
    armed.pump.armed = true ∧ CursorInv armed.pump ∧ armed.pump.dirty = true ∧
    (∃ bytes, armed.disc.sectors.lookup armed.pump.sector = some bytes) ∧
    (let p := { armed.pump with dirty := false, bufValid := true, cursor := 2348 };
      p.armed = true ∧ CursorInv p ∧ p.dirty = false ∧ p.bufValid = true) :=
  ⟨rfl, ⟨rfl, by decide⟩, rfl, ⟨_, rfl⟩, rfl, ⟨rfl, Nat.le_refl 2348⟩, rfl, rfl⟩

theorem witness_TickPlaysOnesForAnUnreadableSector :
    (let p := { armed.pump with sector := 2 };
      p.armed = true ∧ CursorInv p ∧ p.dirty = true ∧ discS.sectors.lookup p.sector = none) ∧
    (let p := { armed.pump with dirty := false, cursor := 2348 };
      p.armed = true ∧ CursorInv p ∧ p.dirty = false ∧ p.bufValid = false) :=
  ⟨⟨rfl, ⟨rfl, by decide⟩, rfl, rfl⟩, ⟨rfl, ⟨rfl, Nat.le_refl 2348⟩, rfl, rfl⟩⟩

theorem witness_ClearingAnEnableBitCancelsAfterOneTick :
    (∃ t, exec (.w16I2cntrlLo 0x0003) armed = .next t ∧ i2sEnabled t = false) ∧
    (armed.pump.armed = true ∧ CursorInv armed.pump ∧ i2sEnabled armed = true) ∧
    ((i2sAfter 0x0006 armed).pump.armed = true ∧ i2sEnabled (i2sAfter 0x0006 armed) = false) :=
  ⟨⟨_, rfl, by decide⟩, ⟨rfl, ⟨rfl, by decide⟩, by decide⟩, rfl, by decide⟩

theorem witness_TickLeavesEverythingElse :
    (∃ t, exec .pumpTick armed = .next t) ∧
    (let s := { armed with pump := { armed.pump with dirty := false } };
      (∃ t, exec .pumpTick s = .next t) ∧ s.pump.dirty = false ∧ CursorInv s.pump) :=
  ⟨⟨_, tick_eq armed rfl ⟨rfl, by decide⟩⟩, ⟨_, tick_eq { armed with pump := { armed.pump with dirty := false } } rfl ⟨rfl, by decide⟩⟩, rfl, ⟨rfl, by decide⟩⟩

theorem witness_CartClockAssemblesTheFrame :
    State.reset.cart.state = .start ∧ (cartIn .opA).cart.state = .opA ∧
    ((cartIn .opB).cart.state = .opB ∧ ((cartIn .opB).cart.op ||| (if true then 1 else 0)) ≠ 2) ∧
    (({ (cartIn .opB).cart with op := 2 } : CartEngine).op ||| (if false then 1 else 0)) = 2 ∧
    ((cartIn .addr).cart.addrCnt ≠ 1 ∧ (cartIn .addr).cart.addrCnt ≠ 0) ∧
    ((cartIn .data).cart.dataCnt ≠ 1 ∧ (cartIn .data).cart.dataCnt ≠ 0) ∧
    (let e : CartEngine := { (cartIn .addr).cart with op := 0, addr := 0b011000, addrCnt := 1, wen := false };
      e.state = .addr ∧ e.addrCnt = 1 ∧ e.op = 0 ∧ ((e.addr <<< 1) ||| (if false then 1 else 0)).extractLsb' 4 2 = (3 : BitVec 2) ∧
      ((0b000000 : BitVec 6) <<< 1).extractLsb' 4 2 = (0 : BitVec 2) ∧ ((0b001000 : BitVec 6) <<< 1).extractLsb' 4 2 = (1 : BitVec 2) ∧
      ((0b010000 : BitVec 6) <<< 1).extractLsb' 4 2 = (2 : BitVec 2) ∧ e.wen = false ∧ (cartIn .addr).cart.wen = true) ∧
    (let e : CartEngine := { (cartIn .data).cart with op := 1, dataCnt := 1 };
      e.state = .data ∧ e.dataCnt = 1 ∧ e.op = 1 ∧ e.wen = true) ∧
    ((cartIn .readOut).cart.state = .readOut ∧ (cartIn .busy).cart.state = .busy) := by
  decide

theorem witness_CartEwdsAndEwenSetTheLatch : State.reset.cart.state = .start := rfl

theorem witness_CartWritesCommitUnderTheLatch :
    (cartIn .start).cart.state = .start ∧ (cartIn .start).cart.wen = true ∧ State.reset.cart.state = .start ∧
    State.reset.cart.wen = false := by
  decide

theorem witness_CartErasesFillWithOnes :
    ((cartIn .start).cart.state = .start ∧ (cartIn .start).cart.wen = true ∧
      (cartIn .start).cfg.cartErasePersists = false) ∧
    ({ Config.default with cartErasePersists := true } : Config).cartErasePersists = true ∧
    (State.reset.cart.state = .start ∧ State.reset.cart.wen = false) := by
  decide

theorem witness_CartSelectAndOutputLineByState :
    (cartIn .start).cart.state = .start ∧ (cartIn .data).cart.state = .data ∧ (cartIn .busy).cart.state = .busy ∧
    (cartIn .readOut).cart.state = .readOut := by
  decide

theorem witness_CartReadStreamsTheWord : State.reset.cart.state = .start := rfl

theorem witness_CartWriteThenReadYieldsTheData :
    State.reset.cfg.cartBusyWhenGated = true ∧
    ({ Config.default with cartBusyWhenGated := false } : Config).cartBusyWhenGated = false :=
  ⟨rfl, rfl⟩

theorem witness_CartRowsLeaveEverythingElse :
    (∃ t, exec (.cartWrite true 63 0xFFFF) (cartIn .start) = .next t) ∧ (∃ t, exec .cartReaddo State.reset = .next t) ∧
    (∃ t, exec .cartChipselect State.reset = .next t) ∧ (∃ t, exec (.cartUnexpectedClock true) (cartIn .busy) = .next t) ∧
    Space.sector ≠ Space.nvCart :=
  ⟨⟨_, rfl⟩, ⟨_, rfl⟩, ⟨_, rfl⟩, ⟨_, rfl⟩, nofun⟩

theorem witness_UnitLineWritesByPhase :
    (0b011 : Half).getLsbD State.reset.cfg.unitCsBit.val = true ∧
    ((0b110 : Half).getLsbD State.reset.cfg.unitCsBit.val = false ∧
      (0b100 : Half).getLsbD State.reset.cfg.unitClkBit.val = false ∧ State.reset.unit.dop = .none ∧
      State.reset.unit.ready = false ∧ State.reset.cfg.unitClockEvent = .risingEdge) ∧
    ((0b110 : Half).getLsbD State.reset.cfg.unitClkBit.val = true ∧ selected.unit.prevClk = false ∧
      selected.unit.ready = true ∧ selected.unit.cmdCnt < 8 ∧
      ({ selected.unit with cmdCnt := 7 } : UnitEngine).cmdCnt < 8) ∧
    (let u : UnitEngine := { selected.unit with cmdCnt := 8, cmd := 0b010011000 };
      u.ready = true ∧ u.cmdCnt = 8 ∧ selected.cfg.unitStartBitCheck = true ∧ u.wen = true ∧
      ((u.cmd <<< 1) ||| 1).getLsbD 8 = true ∧ ((u.cmd <<< 1) ||| 1).extractLsb' 6 2 = (0 : BitVec 2) ∧
      ((u.cmd <<< 1) ||| 1).extractLsb' 4 2 = (3 : BitVec 2) ∧ ((0b001000000 : BitVec 9) <<< 1).getLsbD 8 = false ∧
      ((0b010010000 : BitVec 9) <<< 1).extractLsb' 4 2 = (2 : BitVec 2) ∧
      ((0b011100000 : BitVec 9) <<< 1).extractLsb' 6 2 = (3 : BitVec 2)) := by
  decide

/-- R307 and R315: the ninth command pulse, here of ERASE of word 5 under the latch, decodes the packet. -/
theorem test_ninth_pulse_erases :
    after (exec (.unitCommandBit 0b110)
        { selected with unit := { selected.unit with arr := Vector.replicate 64 0, cmdCnt := 8, cmd := 0b011100010 } })
      (fun t => (t.unit.arr[5], t.unit.arr[4], t.unit.ready, t.unit.cmdCnt)) = some (0xFFFF, 0, false, 9) := by
  decide +kernel

theorem witness_UnitDataBitShiftsAndCommits :
    ((0b110 : Half).getLsbD State.reset.cfg.unitCsBit.val = false ∧
      (0b110 : Half).getLsbD State.reset.cfg.unitClkBit.val = true ∧ (inData .write 15).unit.prevClk = false ∧
      (inData .write 15).unit.ready = false ∧ (inData .write 15).unit.dop ≠ .none) ∧
    (inData .write 14).unit.dataCnt ≠ 15 ∧ ((inData .read 15).unit.dataCnt = 15 ∧ (inData .read 15).unit.dop = .read) ∧
    ((inData .wral 15).unit.dataCnt = 15 ∧ (inData .wral 15).unit.dop ≠ .read ∧ (inData .wral 15).unit.wen = true) := by
  decide

theorem selected_selected : selected.unit.selected selected.cfg := ⟨rfl, rfl, rfl, fun _ => rfl⟩

theorem witness_UnitEwdsAndEwenSetTheLatch :
    configOk selected.cfg = true ∧ selected.unit.selected selected.cfg ∧
    (false = true ∨ ({ Config.default with unitStartBitCheck := false } : Config).unitStartBitCheck = false) ∧
    configOk { Config.default with unitStartBitCheck := false } = true :=
  ⟨by decide, selected_selected, .inr rfl, by decide⟩

theorem witness_UnitWritesCommitUnderTheLatch :
    configOk selected.cfg = true ∧ selected.unit.selected selected.cfg ∧ (true = true ∨ selected.cfg.unitStartBitCheck = false) ∧
    selected.unit.wen = true ∧ (unitSelect State.reset.unit).selected State.reset.cfg ∧
    (unitSelect State.reset.unit).wen = false :=
  ⟨by decide, selected_selected, .inl rfl, rfl, ⟨rfl, rfl, rfl, fun _ => rfl⟩, rfl⟩

theorem witness_UnitErasesFillWithOnes :
    configOk selected.cfg = true ∧ selected.unit.selected selected.cfg ∧ (true = true ∨ selected.cfg.unitStartBitCheck = false) ∧
    (selected.unit.wen = true ∧ selected.cfg.unitErasePersists = true) ∧
    ({ Config.default with unitErasePersists := false } : Config).unitErasePersists = false ∧
    (unitSelect State.reset.unit).wen = false :=
  ⟨by decide, selected_selected, .inl rfl, ⟨rfl, rfl⟩, rfl, rfl⟩

theorem witness_UnitMalformedPacketGoesIdle :
    configOk selected.cfg = true ∧ selected.unit.selected selected.cfg ∧ selected.cfg.unitStartBitCheck = true :=
  ⟨by decide, selected_selected, rfl⟩

theorem witness_UnitReadShiftsTheWordOut :
    configOk selected.cfg = true ∧ selected.unit.selected selected.cfg ∧ (true = true ∨ selected.cfg.unitStartBitCheck = false) ∧
    ([] : List Bool).length ≤ 16 ∧ (List.replicate 16 true).length ≤ 16 :=
  ⟨by decide, selected_selected, .inl rfl, by decide, by decide⟩

theorem witness_UnitRowsLeaveEverythingElse :
    (∃ t, exec (.unitWrite true 63 0xFFFF) selected = .next t) ∧ (∃ t, exec (.unitLinesWrite 0) selected = .next t) ∧
    (∃ t, exec (.w16EebusHi 1) State.reset = .next t ∧ t.events = State.reset.events) ∧
    (∃ t, exec (.w16EebusLo 1) State.reset = .next t) ∧
    (RegName.eebus, RegHalf.hi) ≠ (RegName.eebus, State.reset.cfg.unitBusHalf) ∧ Space.sector ≠ Space.nvUnit :=
  ⟨⟨_, rfl⟩, ⟨_, rfl⟩, ⟨_, rfl, rfl⟩, ⟨_, rfl⟩, by decide, nofun⟩

theorem witness_PersistedImageReloadsTheArray (arr : Vector Half 64) :
    ({ State.reset with nvCart := some (Memory.fill .nvCart (imageBytes arr)) } : State).nvCart =
      some (Memory.fill .nvCart (imageBytes arr)) ∧
    ({ State.reset with nvUnit := some (Memory.fill .nvUnit (imageBytes arr)) } : State).nvUnit =
      some (Memory.fill .nvUnit (imageBytes arr)) :=
  ⟨rfl, rfl⟩

theorem witness_LatchesDropOnlyWhereTheSpecSays :
    let s := { State.reset with txPending := true, rxPending := true, overlayDisabled := true }
    s.txPending = true ∧ s.overlayDisabled = true ∧ s.rxPending = true ∧
    ∃ t, exec .r16DsctrlLo s = .next t ∧ t.rxPending = false ∧ Instr.r16DsctrlLo ≠ .reset :=
  ⟨rfl, rfl, rfl, _, rfl, rfl, nofun⟩

theorem witness_ArraysChangeOnlyUnderTheLatch :
    (let s := { cartIn .data with cart := { (cartIn .data).cart with op := 1, dataCnt := 1 } };
      (∃ t, exec (.cartClock false) s = .next t) ∧
      after (exec (.cartClock false) s) (fun t => decide (t.cart.arr ≠ s.cart.arr)) = some true) ∧
    (∃ t, exec (.unitDataBit 0b010) (inData .write 15) = .next t) ∧
    after (exec (.unitDataBit 0b010) (inData .write 15)) (fun t => decide (t.unit.arr ≠ State.reset.unit.arr)) = some true ∧
    Instr.cartClock false ≠ .reset :=
  ⟨⟨⟨_, rfl⟩, by decide +kernel⟩, ⟨_, rfl⟩, by decide +kernel, nofun⟩

theorem witness_TraceGrowsAndOnlyTicksSignalAudio :
    (∃ t, exec .pumpTick armed = .next t) ∧ (∃ t, exec (.cartWrite true 5 1) (cartIn .start) = .next t) ∧
    ∃ t, exec .reset armed = .next t :=
  ⟨⟨_, tick_eq armed rfl ⟨rfl, by decide⟩⟩, ⟨_, rfl⟩, ⟨_, rfl⟩⟩

theorem witness_EveryOperationCompletes :
    State.reset.Inv ∧ State.reset.cfg.pumpRearmWhileArmed = .idempotent ∧
    (∀ p, ∃ a, readShortToc State.reset.cfg State.reset.disc State.reset.dsp.adapterOk p State.reset.toc = .ok a) ∧
    (∀ p, ∃ a, readLongToc State.reset.cfg State.reset.disc State.reset.dsp.adapterOk p State.reset.toc = .ok a) ∧
    State.reset.pump.armed = false ∧ armed.pump.armed = true := by
  have short : ∀ p, p ≠ 0 →
      readShortToc State.reset.cfg State.reset.disc State.reset.dsp.adapterOk p State.reset.toc =
        .ok (0x0429, State.reset.toc) := by
    intro p h
    have h' : ¬ p = 0#8 := h
    have hs : State.reset.disc.single = true := rfl
    have ho : State.reset.dsp.adapterOk = true := rfl
    simp [readShortToc, hs, ho, h', stIllegal]
  refine ⟨reset_inv, rfl, fun p => ?_, fun p => ?_, rfl, rfl⟩ <;> by_cases h : p = 0
  · subst h
    exact ⟨_, rfl⟩
  · exact ⟨_, short p h⟩
  · subst h
    exact ⟨_, rfl⟩
  · refine ⟨(0x0429, State.reset.toc), ?_⟩
    rw [readLongToc, short p h]
    rfl

theorem witness_StepRunsThePresentedOperation :
    let s := State.reset.withFetchWord 16 0x1503
    configOk s.cfg = true ∧ s.inputs = [⟨⟨.dsa, 0x1503, 0⟩, 0⟩] ∧
    decode s.cfg s.phase ⟨.dsa, 0x1503, 0⟩ = .ok (.dsaSetMode 3) :=
  ⟨by decide, rfl, rfl⟩

theorem witness_StepsThatRunNoPresentedOperation :
    configOk { Config.default with opcStop := 0x01 } = false ∧
    (configOk armed.cfg = true ∧ armed.inputs = [] ∧ armed.pump.armed = true) ∧
    (State.reset.inputs = [] ∧ State.reset.pump.armed = false) ∧
    decode Config.default Phase.idle ⟨.window .read .w8, 0, 0⟩ = .error .unsupportedAccessWidth ∧
    (State.reset.cfg.butchWindow ≤ (0x100 : BitVec 32).toNat % 2 ^ 16 ∧
      (0xFF : BitVec 32).toNat % 2 ^ 16 < State.reset.cfg.butchWindow ∧ (0xFF : BitVec 32).toNat % 2 = 1 ∧
      (0xFE : BitVec 32).toNat % 2 ^ 16 < State.reset.cfg.butchWindow ∧ Width.w8 ≠ .w16) :=
  ⟨by decide, ⟨by decide, rfl, rfl⟩, ⟨rfl, rfl⟩, rfl, by decide⟩

theorem witness_EveryStepKeepsTheInvariant :
    State.reset.Inv ∧ (∃ t, step State.reset = .next t) ∧ ∃ t, step (State.reset.withFetchWord 16 0x1503) = .next t :=
  ⟨reset_inv, ⟨_, rfl⟩, ⟨_, rfl⟩⟩

theorem witness_DecodingInvertsEncoding :
    wfIn Phase.idle (.cartWrite false 63 0xFFFF) = true ∧ wfIn Phase.idle (.w16EebusLo 0xFFFF) = true ∧
    wfIn Phase.idle (.dsaUnrecognized 0xFF 0xFF) = true ∧ wfIn ⟨false, true, false, false⟩ (.unitCommandBit 0xFFFE) = true := by
  decide

/-- R81, R111 with the defaults of R7: the bus addresses of the window and of the three ports, and one of neither. -/
theorem witness_TableWordsDecodeToTheirRows :
    (0xFE < Config.default.butchWindow ∧ Config.default.butchBase + 0xFE < 2 ^ 32) ∧
    (∀ a ∈ [0xF14001, 0xF14801, 0xF15001, 0xDFFEFF, 0xE00000],
      ¬ (Config.default.butchBase ≤ a ∧ a < Config.default.butchBase + Config.default.butchWindow)) ∧
    Config.default.cartPortCs = 0xF15001 ∧ (Config.default.cartPortDo = 0xF14001 ∧ 0xF14001 ≠ Config.default.cartPortCs) ∧
    (Config.default.cartPortDi = 0xF14801 ∧ 0xF14801 ≠ Config.default.cartPortCs) ∧
    (0xE00000 ≠ Config.default.cartPortCs ∧ 0xE00000 ≠ Config.default.cartPortDo ∧ 0xE00000 ≠ Config.default.cartPortDi) := by
  decide

/-- R81: register offset 0x0A by its bus address; R111: the three ports. -/
theorem test_bus_addresses :
    reads (.system .write .w16) 0xDFFF0A 0x1503 = some (.w16DsdataLo 0x1503) ∧
    reads (.system .read .w16) 0xF14001 0 = some .cartReaddo ∧ reads (.system .write .w16) 0xF14801 3 = some (.cartClock true) ∧
    reads (.system .read .w16) 0xF15001 0 = some .cartChipselect ∧ reads (.system .write .w16) 0xF15001 0 = some .cartChipselect ∧
    reads (.system .write .w16) 0xF14001 0 = none := by
  decide

end Sys2Proof.Tests
end

section
/-! The invariant of the block (O58): each thing an operation can do (`Did`) keeps `State.Inv`, hence every step does. -/

namespace Sys2Proof.Machine

/-- The invariant speaks of the engines, the images, and of the pump only the buffer and the cursor. -/
theorem State.Inv.of_eq {s t : State} (h : s.Inv) (hcart : t.cart = s.cart) (hunit : t.unit = s.unit)
    (hnvCart : t.nvCart = s.nvCart) (hnvUnit : t.nvUnit = s.nvUnit) (hbuf : t.pump.buf = s.pump.buf)
    (hcursor : t.pump.cursor = s.pump.cursor) : t.Inv where
  memory := ⟨hnvCart ▸ h.memory.nvCart, hnvUnit ▸ h.memory.nvUnit, hbuf ▸ h.memory.buf⟩
  cursor := ⟨hcursor ▸ h.cursor.atPair, hcursor ▸ h.cursor.bound⟩
  cart := hcart ▸ h.cart
  unit := hunit ▸ h.unit

/-! ## Reset -/

/-- A reset keeps both images and gives every other component the invariant speaks of its value of R370. -/
theorem resetBlock_inv {s : State} (h : s.Inv) : (resetBlock s).Inv where
  memory := ⟨h.memory.nvCart, h.memory.nvUnit, Memory.wf_nil _⟩
  cursor := ⟨rfl, Nat.zero_le _⟩
  cart := ⟨nofun, nofun, nofun⟩
  unit := ⟨nofun, fun hd => absurd rfl hd⟩

/-! ## The tick -/

theorem rearm_buf (s : State) : (rearm s).pump.buf = s.pump.buf := by
  unfold rearm; split <;> rfl

theorem rearm_cursor (s : State) : (rearm s).pump.cursor = s.pump.cursor := by
  unfold rearm; split <;> rfl

theorem reload_cursor (s : State) : (reload s).pump.cursor = s.pump.cursor := by
  rw [reload_keeps s]

/-- From a pair the cursor comes to the next pair, or back to the first at the end of the audio part (R236). -/
theorem afterPair_cursorInv {b : State} (h : CursorInv b.pump) : CursorInv (afterPair b).pump := by
  obtain ⟨hpair, hbound⟩ := h
  by_cases hend : b.pump.cursor = 2348
  · exact ⟨by simp [afterPair, hend], by simp [afterPair, hend]⟩
  · have hcursor : (afterPair b).pump.cursor = b.pump.cursor + 4 := by simp [afterPair, hend]
    exact ⟨by omega, by omega⟩

theorem tick_inv {s t : State} (h : s.Inv) (ht : tick s = .next t) : t.Inv := by
  obtain ⟨_, _, _, harmed⟩ := tick_only ht
  rw [tick_eq s harmed h.cursor] at ht
  cases ht
  have hreloaded : CursorInv (reload s).pump :=
    ⟨(reload_cursor s).symm ▸ h.cursor.atPair, (reload_cursor s).symm ▸ h.cursor.bound⟩
  have hpaired : (afterPair (reload s)).Inv :=
    { memory := ⟨by simpa [afterPair] using h.memory.nvCart, by simpa [afterPair] using h.memory.nvUnit,
        reload_wf s h.memory.buf⟩
      cursor := afterPair_cursorInv hreloaded
      cart := by simpa [afterPair] using h.cart
      unit := by simpa [afterPair] using h.unit }
  exact hpaired.of_eq (by simp) (by simp) (by simp) (by simp) (rearm_buf _) (rearm_cursor _)

/-! ## Commands -/

theorem DispatchOnly.txPending {u t : State} (h : DispatchOnly u t) : t.txPending = u.txPending := by rw [h.state]

theorem DispatchOnly.overlayDisabled {u t : State} (h : DispatchOnly u t) : t.overlayDisabled = u.overlayDisabled := by
  rw [h.state]

theorem DispatchOnly.cart {u t : State} (h : DispatchOnly u t) : t.cart = u.cart := by rw [h.state]

theorem DispatchOnly.unit {u t : State} (h : DispatchOnly u t) : t.unit = u.unit := by rw [h.state]

theorem DispatchOnly.nvCart {u t : State} (h : DispatchOnly u t) : t.nvCart = u.nvCart := by rw [h.state]

theorem DispatchOnly.nvUnit {u t : State} (h : DispatchOnly u t) : t.nvUnit = u.nvUnit := by rw [h.state]

theorem DispatchOnly.buf {u t : State} (h : DispatchOnly u t) : t.pump.buf = u.pump.buf := by rw [h.pump]

/-- What a command's action may touch keeps the invariant: a cursor it moves goes to 0. -/
theorem DispatchOnly.inv {u t : State} (hd : DispatchOnly u t) (h : u.Inv) : t.Inv where
  memory := ⟨hd.nvCart ▸ h.memory.nvCart, hd.nvUnit ▸ h.memory.nvUnit, hd.buf ▸ h.memory.buf⟩
  cursor := by
    rcases hd.cursor with hsame | hzero
    · exact ⟨hsame ▸ h.cursor.atPair, hsame ▸ h.cursor.bound⟩
    · exact ⟨by rw [hzero], by rw [hzero]; exact Nat.zero_le _⟩
  cart := hd.cart ▸ h.cart
  unit := hd.unit ▸ h.unit

/-! ## The cartridge engine -/

/-- An image the engine asks for is canonical, as every filled store is. -/
theorem putCart_nvCart_wf (n : CartEngine × Bool) {s : State}
    (h : ∀ m, s.nvCart = some m → Memory.wf .nvCart m = true) :
    ∀ m, (putCart n s).nvCart = some m → Memory.wf .nvCart m = true := by
  intro m hm
  unfold putCart at hm
  split at hm
  · cases hm
    exact Memory.wf_fill _ _
  · exact h m hm

theorem clockCart_inv (b : Bool) {s : State} (h : s.Inv) : (clockCart b s).Inv where
  memory := ⟨putCart_nvCart_wf _ h.memory.nvCart, by simpa using h.memory.nvUnit, by simpa using h.memory.buf⟩
  cursor := by simpa using h.cursor
  cart := by simpa using cartNext_inv s.cfg b s.cart h.cart
  unit := by simpa using h.unit

theorem clockCartBits_inv (bits : List Bool) {s : State} (h : s.Inv) : (clockCartBits bits s).Inv := by
  induction bits generalizing s with
  | nil => exact h
  | cons b bits ih => exact ih (clockCart_inv b h)

/-! ## The CD-unit engine -/

theorem putUnit_nvUnit_wf (n : UnitEngine × Bool) {s : State}
    (h : ∀ m, s.nvUnit = some m → Memory.wf .nvUnit m = true) :
    ∀ m, (putUnit n s).nvUnit = some m → Memory.wf .nvUnit m = true := by
  intro m hm
  unfold putUnit at hm
  split at hm
  · cases hm
    exact Memory.wf_fill _ _
  · exact h m hm

theorem lineWrite_inv (v : Half) {s : State} (h : s.Inv) : (lineWrite v s).Inv where
  memory := ⟨by simpa using h.memory.nvCart, putUnit_nvUnit_wf _ h.memory.nvUnit, by simpa using h.memory.buf⟩
  cursor := by simpa using h.cursor
  cart := by simpa using h.cart
  unit := by simpa using unitNext_inv _ _ _ _ _ h.unit

theorem pulseBits_inv (bits : List Bool) {s : State} (h : s.Inv) : (pulseBits bits s).Inv := by
  induction bits generalizing s with
  | nil => exact h
  | cons b bits ih => exact ih (lineWrite_inv _ (lineWrite_inv _ h))

/-! ## Every operation, every step -/

theorem Did.inv {i : Instr} {s t : State} (hd : Did i s t) (h : s.Inv) : t.Inv := by
  cases hd with
  | reset => exact resetBlock_inv h
  | tick ht => exact tick_inv h ht
  | none => exact h
  | read v => exact h.of_eq rfl rfl rfl rfl rfl rfl
  | acknowledge v he => exact h.of_eq rfl rfl rfl rfl rfl rfl
  | dequeue v r => exact h.of_eq rfl rfl rfl rfl rfl rfl
  | store r hf v => exact h.of_eq rfl rfl rfl rfl rfl rfl
  | overlay hf v => exact h.of_eq (by simp) (by simp) (by simp) (by simp) (by simp) (by simp)
  | arm hf v => exact h.of_eq rfl rfl rfl rfl rfl rfl
  | command w tx htx hdis => exact hdis.inv (h.of_eq rfl rfl rfl rfl rfl rfl)
  | cartClock b hi => exact clockCart_inv b h
  | cartFrame bits hi => exact clockCartBits_inv bits h
  | cartPort v e harr hinv => exact ⟨⟨h.memory.nvCart, h.memory.nvUnit, h.memory.buf⟩, h.cursor, hinv h.cart, h.unit⟩
  | lines v hi => exact lineWrite_inv v h
  | packet bits hb hi => exact pulseBits_inv bits h

theorem exec_inv {i : Instr} {s t : State} (h : s.Inv) (ht : exec i s = .next t) : t.Inv :=
  (exec_did ht).inv h

theorem idleStep_inv {s t : State} (h : s.Inv) (ht : idleStep s = .next t) : t.Inv := by
  unfold idleStep at ht
  split at ht
  · exact exec_inv h ht
  · cases ht
    exact h

theorem presentedStep_inv {acc : Access} {s t : State} (h : s.Inv) (ht : presentedStep acc s = .next t) : t.Inv := by
  unfold presentedStep at ht
  split at ht
  · exact exec_inv h ht
  · cases ht

/-- Settles O58: a step is the idle one, or the presented one in a state whose invariant says the same; each of them runs at
most one operation, and every operation keeps the invariant. -/
theorem everyStepKeepsTheInvariant : Obligations.EveryStepKeepsTheInvariant := by
  intro s t h ht
  unfold step at ht
  split at ht
  · exact idleStep_inv h (whenConfigured_next ht)
  · next inp rest _ =>
    have htaken : (takeInput inp rest s).Inv := h.of_eq rfl rfl rfl rfl rfl rfl
    exact presentedStep_inv htaken (whenConfigured_next ht)

end Sys2Proof.Machine
end

section
/-! The command queue as a list (O16). -/

namespace Sys2Proof.Machine

/-- `Enqueue` touches the queue and the receive latch only. -/
theorem enqueue_frame (w : Half) (s : State) :
    { enqueue w s with fifo := s.fifo, rxPending := s.rxPending } = s := by
  rcases enqueue_cases w s with ⟨_, he⟩ | ⟨_, he⟩ <;> rw [he]

theorem enqueue_rxPending_of_room {w : Half} {s : State} (h : s.fifo.count < 511) : (enqueue w s).rxPending = true := by
  rcases enqueue_cases w s with ⟨hfull, _⟩ | ⟨_, he⟩
  · omega
  · rw [he]

theorem enqueue_full {w : Half} {s : State} (h : s.fifo.count = 511) : enqueue w s = s := by
  rcases enqueue_cases w s with ⟨_, he⟩ | ⟨hroom, _⟩
  · exact he
  · omega

theorem dequeue_empty {s : State} (h : s.fifo.words = []) : dequeue s = (0xFFFF, s) :=
  if_pos ((Fifo.empty_iff _).2 ((Fifo.count_eq_zero _).2 ((Fifo.words_eq_nil _).1 h)))

theorem exec_r16DsdataLo (s : State) :
    exec .r16DsdataLo s = .next { (dequeue s).2 with result := (dequeue s).1 } := rfl

/-- Settles O16, clause by clause from what `enqueue` and `dequeue` do to the list of queued words. -/
theorem queueBehavesAsAList : Obligations.QueueBehavesAsAList := by
  intro s w ws
  rw [Fifo.words_length]
  refine ⟨s.fifo.count_le, fun hroom => ?_, enqueue_full, words_enqueueAll ws s, fun hnil => ?_, fun x xs hcons => ?_⟩
  · exact ⟨words_enqueue w s hroom, enqueue_rxPending_of_room hroom, enqueue_frame w s⟩
  · rw [exec_r16DsdataLo, dequeue_empty hnil]
  · obtain ⟨hhead, _, htail⟩ := dequeue_cons hcons
    exact ⟨_, exec_r16DsdataLo s, hhead, htail⟩

end Sys2Proof.Machine
end

section
/-! The status latches over one operation (O52): all but a reset and an acknowledging read keep the three of them set. -/

namespace Sys2Proof.Machine

/-- No set latch of `s` is clear in `t`. -/
structure LatchesKept (s t : State) : Prop where
  tx : s.txPending = true → t.txPending = true
  overlay : s.overlayDisabled = true → t.overlayDisabled = true
  rx : s.rxPending = true → t.rxPending = true

theorem LatchesKept.of_eq {s t : State} (htx : t.txPending = s.txPending) (hov : t.overlayDisabled = s.overlayDisabled)
    (hrx : t.rxPending = s.rxPending) : LatchesKept s t :=
  ⟨htx.trans, hov.trans, hrx.trans⟩

theorem overlayHook_overlayDisabled {s : State} (h : s.overlayDisabled = true) :
    (overlayHook s).overlayDisabled = true := by
  rcases overlayHook_cases s with e | e <;> rw [e]
  · exact h
  · rfl

/-- A command sets the transmit latch or leaves it, and its action clears neither of the others. -/
theorem DispatchOnly.latchesKept {s t : State} {w : Half} {tx : Bool} (htx : s.txPending = true → tx = true)
    (h : DispatchOnly { storeHalf .dsdata .lo w s with txPending := tx } t) : LatchesKept s t where
  tx hs := h.txPending.trans (htx hs)
  overlay := h.overlayDisabled.trans
  rx := h.rx

theorem Did.latchesKept {i : Instr} {s t : State} (hd : Did i s t) (hr : i ≠ .reset) :
    LatchesKept s t ∨
      (i = .r16DsctrlLo ∧ s.fifo.rd = s.fifo.wr ∧ t.txPending = s.txPending ∧ t.overlayDisabled = s.overlayDisabled) := by
  cases hd with
  | reset => exact absurd rfl hr
  | acknowledge v he => exact .inr ⟨rfl, he, rfl, rfl⟩
  | tick ht =>
    obtain ⟨_, _, rfl, _⟩ := tick_only ht
    exact .inl (.of_eq rfl rfl rfl)
  | none => exact .inl (.of_eq rfl rfl rfl)
  | read v => exact .inl (.of_eq rfl rfl rfl)
  | dequeue v r => exact .inl (.of_eq rfl rfl rfl)
  | store r h v => exact .inl (.of_eq rfl rfl rfl)
  | overlay h v => exact .inl ⟨by simp, overlayHook_overlayDisabled (s := storeHalf .ctrl h v s), by simp⟩
  | arm h v => exact .inl (.of_eq rfl rfl rfl)
  | command w tx htx h => exact .inl (h.latchesKept htx)
  | cartClock b hi => exact .inl (.of_eq (by simp) (by simp) (by simp))
  | cartFrame bits hi => exact .inl (.of_eq (by simp) (by simp) (by simp))
  | cartPort v e harr hinv => exact .inl (.of_eq rfl rfl rfl)
  | lines v hi => exact .inl (.of_eq (by simp) (by simp) (by simp))
  | packet bits hb hi => exact .inl (.of_eq (by simp) (by simp) (by simp))

/-- Settles O52: an operation but reset keeps all latches set, or is the acknowledging read, which touches `rx_pending`
alone. -/
theorem latchesDropOnlyWhereTheSpecSays : Obligations.LatchesDropOnlyWhereTheSpecSays := by
  intro i s t h hr
  rcases (exec_did h).latchesKept hr with ⟨htx, hov, hrx⟩ | ⟨hi, he, htx, hov⟩
  · exact ⟨htx, hov, fun hs ht => absurd (hrx hs) (by simp [ht])⟩
  · exact ⟨htx.trans, hov.trans, fun _ _ => ⟨hi, he⟩⟩

end Sys2Proof.Machine
end

section
/-! The EEPROM arrays over one operation (O53): which operations change an array, and under which latch. -/

namespace Sys2Proof.Machine

/-- The cartridge array changes by a whole frame, or by one clock under the latch (R51). -/
theorem Did.cart_arr {i : Instr} {s t : State} (hd : Did i s t) (hr : i ≠ .reset) (h : t.cart.arr ≠ s.cart.arr) :
    (∃ b, i = .cartClock b ∨ i = .cartUnexpectedClock b) ∧ s.cart.wen = true ∨ cartFrameRow i = true := by
  cases hd with
  | reset => exact absurd rfl hr
  | cartClock b hi => exact .inl ⟨⟨b, hi⟩, clockCart_arr h⟩
  | cartFrame bits hi => exact .inr hi
  | cartPort v e harr hinv => exact absurd harr h
  | tick ht =>
    obtain ⟨_, _, rfl, _⟩ := tick_only ht
    exact absurd rfl h
  | command w tx htx hdis => exact absurd (congrArg CartEngine.arr hdis.cart) h
  | none => exact absurd rfl h
  | read v => exact absurd rfl h
  | acknowledge v he => exact absurd rfl h
  | dequeue v r => exact absurd rfl h
  | store r hf v => exact absurd rfl h
  | overlay hf v => exact absurd (by simp) h
  | arm hf v => exact absurd rfl h
  | lines v hi => exact absurd (by simp) h
  | packet bits hb hi => exact absurd (by simp) h

/-- The CD-unit array changes by a whole packet, or by one write of the lines under the latch (R61). -/
theorem Did.unit_arr {i : Instr} {s t : State} (hd : Did i s t) (hr : i ≠ .reset) (h : t.unit.arr ≠ s.unit.arr) :
    unitLineRow i = true ∧ s.unit.wen = true ∨ unitPacketRow i = true := by
  cases hd with
  | reset => exact absurd rfl hr
  | lines v hi => exact .inl ⟨hi, lineWrite_arr h⟩
  | packet bits hb hi => exact .inr hi
  | tick ht =>
    obtain ⟨_, _, rfl, _⟩ := tick_only ht
    exact absurd rfl h
  | command w tx htx hdis => exact absurd (congrArg UnitEngine.arr hdis.unit) h
  | none => exact absurd rfl h
  | read v => exact absurd rfl h
  | acknowledge v he => exact absurd rfl h
  | dequeue v r => exact absurd rfl h
  | store r hf v => exact absurd rfl h
  | overlay hf v => exact absurd (by simp) h
  | arm hf v => exact absurd rfl h
  | cartClock b hi => exact absurd (by simp) h
  | cartFrame bits hi => exact absurd (by simp) h
  | cartPort v e harr hinv => exact absurd rfl h

/-- Settles O53, from which of the operations that change an array the one at hand is. A row test that answers `true` leaves the
rows the statement names; each of the others contradicts it. -/
theorem arraysChangeOnlyUnderTheLatch : Obligations.ArraysChangeOnlyUnderTheLatch := by
  intro i s t h hr
  refine ⟨fun hcart => ?_, fun hunit => ?_⟩
  · rcases (exec_did h).cart_arr hr hcart with ⟨⟨b, rfl | rfl⟩, hwen⟩ | hframe
    · exact hwen
    · exact hwen
    · unfold cartFrameRow at hframe
      split at hframe <;> trivial
  · rcases (exec_did h).unit_arr hr hunit with ⟨hline, hwen⟩ | hpacket
    · unfold unitLineRow at hline
      split at hline <;> trivial
    · unfold unitPacketRow at hpacket
      split at hpacket <;> trivial

end Sys2Proof.Machine
end

section
/-! What a step runs (O56, O57): the idle step or the presented one, each by one equation of `step` and of `decodeWindow`. -/

namespace Sys2Proof.Machine

theorem step_idle {s : State} (hin : s.inputs = []) : step s = whenConfigured s.cfg (idleStep s) := by
  rw [step, hin]

theorem step_presented {s : State} {inp : Input} {rest : List Input} (hin : s.inputs = inp :: rest) :
    step s = whenConfigured s.cfg (presentedStep inp.access (takeInput inp rest s)) := by
  rw [step, hin]

theorem step_badConfiguration {s : State} (hc : configOk s.cfg = false) : step s = .refused .badConfiguration := by
  cases hin : s.inputs with
  | nil => rw [step_idle hin, whenConfigured_bad hc]
  | cons inp rest => rw [step_presented hin, whenConfigured_bad hc]

theorem presentedStep_ok {s : State} {acc : Access} {i : Instr} (h : decode s.cfg s.phase acc = .ok i) :
    presentedStep acc s = exec i s := by
  rw [presentedStep, h]

theorem presentedStep_error {s : State} {acc : Access} {r : Reject} (h : decode s.cfg s.phase acc = .error r) :
    presentedStep acc s = .refused (refuseReject r) := by
  rw [presentedStep, h]

/-- A step on an access the decoder rejects. Taking the access off the list changes neither the configuration nor the phase it
is decoded under. -/
theorem step_rejected {s : State} {inp : Input} {rest : List Input} {r : Reject} (hc : configOk s.cfg = true)
    (hin : s.inputs = inp :: rest) (h : decode s.cfg s.phase inp.access = .error r) :
    step s = .refused (refuseReject r) := by
  have htaken : decode (takeInput inp rest s).cfg (takeInput inp rest s).phase inp.access = .error r := h
  rw [step_presented hin, whenConfigured_ok hc, presentedStep_error htaken]

theorem decodeWindow_outside {c : Config} {off : Nat} (dir : Dir) (w : Width) (v : Half) (h : c.butchWindow ≤ off) :
    decodeWindow c dir w off v = .error .outsideWindow := if_pos h

theorem decodeWindow_unsupported {c : Config} {w : Width} {off : Nat} (dir : Dir) (v : Half) (h : off < c.butchWindow)
    (hw : w ≠ .w16 ∨ off % 2 = 1) : decodeWindow c dir w off v = .error .unsupportedAccessWidth :=
  (if_neg (Nat.not_le.mpr h)).trans (if_pos hw)

/-- A window access is decoded at the offset in bits 15:0 of its head (R102). -/
theorem decode_window (c : Config) (ph : Phase) (dir : Dir) (w : Width) (head : BitVec 32) (d : Half) :
    decode c ph ⟨.window dir w, head, d⟩ = decodeWindow c dir w (head.toNat % 2 ^ 16) d := by
  rw [← BitVec.toNat_setWidth]
  rfl

/-- Settles O56, by the equation of `step` on a presented access. -/
theorem stepRunsThePresentedOperation : Obligations.StepRunsThePresentedOperation := by
  intro s inp rest i hc hin h
  have htaken : decode (takeInput inp rest s).cfg (takeInput inp rest s).phase inp.access = .ok i := h
  rw [step_presented hin, whenConfigured_ok hc, presentedStep_ok htaken]
  rfl

/-- Settles O57: the clauses are the cases of `step`, and the last two of them `step_rejected` at the two rejections of a window
access. -/
theorem stepsThatRunNoPresentedOperation : Obligations.StepsThatRunNoPresentedOperation := by
  intro s
  refine ⟨step_badConfiguration, fun hc hin harm => ?_, fun hc hin harm => ?_, fun _ _ _ => step_rejected,
    fun rest m head d dir w hc hin => ⟨fun hout => ?_, fun hlt hw => ?_⟩⟩
  · rw [step_idle hin, whenConfigured_ok hc, idleStep, if_pos harm]
  · rw [step_idle hin, whenConfigured_ok hc, idleStep, if_neg (by simp [harm])]
  · refine step_rejected (r := .outsideWindow) hc hin ?_
    rw [decode_window, decodeWindow_outside dir w d hout]
  · have hoff : w ≠ .w16 ∨ head.toNat % 2 ^ 16 % 2 = 1 := hw.imp_right fun hodd => by omega
    refine step_rejected (r := .unsupportedAccessWidth) hc hin ?_
    rw [decode_window, decodeWindow_unsupported dir d hlt hoff]

end Sys2Proof.Machine
end

section
/-! The persisted image (O51): its bytes are those of the array, and a reset loads the array back. -/

namespace Sys2Proof.Machine

/-- Bytes `2 i` and `2 i + 1` of a stored image are the high and the low byte of word `i` (R86). -/
theorem read_fill_imageBytes {sp : Space} (hsp : sp.size = 128) (arr : Vector Half 64) (i : Fin 64) :
    Memory.read sp (Memory.fill sp (imageBytes arr)) (2 * i.val) = (arr[i.val]).extractLsb' 8 8 ∧
      Memory.read sp (Memory.fill sp (imageBytes arr)) (2 * i.val + 1) = (arr[i.val]).extractLsb' 0 8 := by
  obtain ⟨hhigh, hlow⟩ := imageBytes_getElem? arr i.val i.isLt
  rw [Memory.read_fill sp _ (by omega), Memory.read_fill sp _ (by omega), hhigh, hlow]
  exact ⟨rfl, rfl⟩

@[simp] theorem resetBlock_cart_arr (s : State) : (resetBlock s).cart.arr = loadImage .nvCart s.nvCart := rfl

@[simp] theorem resetBlock_unit_arr (s : State) : (resetBlock s).unit.arr = loadImage .nvUnit s.nvUnit := rfl

/-- Settles O51: the bytes are `read_fill_imageBytes` for either image, and the array a reset loads is `loadImage_fill`. -/
theorem persistedImageReloadsTheArray : Obligations.PersistedImageReloadsTheArray := by
  intro arr
  refine ⟨fun i sp hsp => ?_, fun s himage => ⟨resetBlock s, rfl, ?_, rfl⟩, fun s himage => ⟨resetBlock s, rfl, ?_, rfl⟩⟩
  · have hsize : sp.size = 128 := by rcases hsp with rfl | rfl <;> rfl
    exact read_fill_imageBytes hsize arr i
  · rw [resetBlock_cart_arr, himage, loadImage_fill .nvCart rfl]
  · rw [resetBlock_unit_arr, himage, loadImage_fill .nvUnit rfl]

end Sys2Proof.Machine
end

section
/-! The frame of the reads (O14): the read of a register half, said once for the 22 of them, and what a read may touch. -/

namespace Sys2Proof.Machine

/-- The read of a register half (R190): four registers have a read of their own, the others the plain one (R191). -/
def readHalf (s : State) : RegName → RegHalf → Res
  | .ctrl, h => ctrlRead h s
  | .dsctrl, .lo => dsctrlLoRead s
  | .dsdata, .lo => dsdataLoRead s
  | .eebus, h => eebusRead h s
  | r, h => plainRead r h s

theorem exec_readInstr (r : RegName) (h : RegHalf) (s : State) : exec (readInstr r h) s = readHalf s r h := by
  cases r <;> cases h <;> rfl

/-- The 22 halves of the window, in the order of their offsets (R190). -/
def windowHalves : List (RegName × RegHalf) :=
  [.ctrl, .dsctrl, .dsdata, .i2cntrl, .sbcntrl, .subdata, .subdatb, .sbtime, .fifodata, .i2sdat2, .eebus].flatMap
    fun r => [(r, .hi), (r, .lo)]

/-- What read `i` may touch: the result; the receive latch, if it acknowledges (R198); the read cursor, if it dequeues (R201). -/
def ReadOnly (i : Instr) (s t : State) : Prop :=
  ∃ v rx rd, t = { s with result := v, rxPending := rx, fifo := { s.fifo with rd := rd } } ∧
    (i ≠ .r16DsctrlLo → rx = s.rxPending) ∧ (i ≠ .r16DsdataLo → rd = s.fifo.rd)

theorem returns_readOnly {i : Instr} {v : Half} {s t : State} (ht : returns v s = .next t) : ReadOnly i s t := by
  cases ht
  exact ⟨v, s.rxPending, s.fifo.rd, rfl, fun _ => rfl, fun _ => rfl⟩

theorem dsctrlLoRead_readOnly {s t : State} (ht : dsctrlLoRead s = .next t) : ReadOnly .r16DsctrlLo s t := by
  unfold dsctrlLoRead at ht
  split at ht
  · cases ht
    exact ⟨_, false, s.fifo.rd, rfl, fun hne => absurd rfl hne, fun _ => rfl⟩
  · exact returns_readOnly ht

theorem dsdataLoRead_readOnly {s t : State} (ht : dsdataLoRead s = .next t) : ReadOnly .r16DsdataLo s t := by
  unfold dsdataLoRead dequeue at ht
  split at ht
  · exact returns_readOnly ht
  · cases ht
    exact ⟨_, s.rxPending, slotAfter s.fifo.rd, rfl, fun _ => rfl, fun hne => absurd rfl hne⟩

theorem eebusRead_readOnly {i : Instr} {h : RegHalf} {s t : State} (ht : eebusRead h s = .next t) : ReadOnly i s t := by
  unfold eebusRead at ht
  split at ht
  · exact returns_readOnly ht
  · exact returns_readOnly ht

theorem readHalf_readOnly {r : RegName} {h : RegHalf} {s t : State} (ht : readHalf s r h = .next t) :
    ReadOnly (readInstr r h) s t := by
  unfold readHalf at ht
  split at ht
  · exact returns_readOnly ht
  · exact dsctrlLoRead_readOnly ht
  · exact dsdataLoRead_readOnly ht
  · exact eebusRead_readOnly ht
  · exact returns_readOnly ht

theorem exec_readOnly {off : Half} {i : Instr} {s t : State}
    (hi : i ∈ windowHalves.map (fun p => readInstr p.1 p.2) ++ [.r16Unrecognized off, .unitLinesRead])
    (ht : exec i s = .next t) : ReadOnly i s t := by
  rcases List.mem_append.mp hi with hhalf | hother
  · obtain ⟨⟨r, h⟩, _, rfl⟩ := List.mem_map.mp hhalf
    exact readHalf_readOnly ((exec_readInstr r h s).symm.trans ht)
  · rcases List.mem_pair.mp hother with rfl | rfl
    · exact returns_readOnly ht
    · exact returns_readOnly ht

/-- Settles O14: a read touches what `ReadOnly` says, hence none of the components named. -/
theorem readsLeaveEverythingElse : Obligations.ReadsLeaveEverythingElse := by
  intro off i s t hi ht
  obtain ⟨v, rx, rd, rfl, hrx, hrd⟩ := exec_readOnly (off := off) hi ht
  exact ⟨rfl, rfl, hrx, rfl, hrd, rfl, rfl, rfl, rfl, rfl, rfl, rfl, rfl, rfl, rfl, fun _ _ => rfl⟩

end Sys2Proof.Machine
end

section
/-! The encodings: every well-formed operation is read back from its access (O59), and an access by system bus address is the one
of the window or of the cartridge port that stands there (O60). -/

namespace Sys2Proof.Laws.RoundTrip

/-- The case of each row of the opcode table. -/
theorem roundTrip : ∀ i : Instr, Statement i
  | .r16CtrlHi => r16CtrlHi
  | .r16CtrlLo => r16CtrlLo
  | .w16CtrlHi v => w16CtrlHi v
  | .w16CtrlLo v => w16CtrlLo v
  | .r16DsctrlHi => r16DsctrlHi
  | .w16DsctrlHi v => w16DsctrlHi v
  | .r16DsctrlLo => r16DsctrlLo
  | .w16DsctrlLo v => w16DsctrlLo v
  | .r16DsdataHi => r16DsdataHi
  | .w16DsdataHi v => w16DsdataHi v
  | .r16DsdataLo => r16DsdataLo
  | .w16DsdataLo v => w16DsdataLo v
  | .r16I2cntrlHi => r16I2cntrlHi
  | .r16I2cntrlLo => r16I2cntrlLo
  | .w16I2cntrlHi v => w16I2cntrlHi v
  | .w16I2cntrlLo v => w16I2cntrlLo v
  | .r16SbcntrlHi => r16SbcntrlHi
  | .w16SbcntrlHi v => w16SbcntrlHi v
  | .r16SbcntrlLo => r16SbcntrlLo
  | .w16SbcntrlLo v => w16SbcntrlLo v
  | .r16SubdataHi => r16SubdataHi
  | .w16SubdataHi v => w16SubdataHi v
  | .r16SubdataLo => r16SubdataLo
  | .w16SubdataLo v => w16SubdataLo v
  | .r16SubdatbHi => r16SubdatbHi
  | .w16SubdatbHi v => w16SubdatbHi v
  | .r16SubdatbLo => r16SubdatbLo
  | .w16SubdatbLo v => w16SubdatbLo v
  | .r16SbtimeHi => r16SbtimeHi
  | .w16SbtimeHi v => w16SbtimeHi v
  | .r16SbtimeLo => r16SbtimeLo
  | .w16SbtimeLo v => w16SbtimeLo v
  | .r16FifodataHi => r16FifodataHi
  | .w16FifodataHi v => w16FifodataHi v
  | .r16FifodataLo => r16FifodataLo
  | .w16FifodataLo v => w16FifodataLo v
  | .r16I2sdat2Hi => r16I2sdat2Hi
  | .w16I2sdat2Hi v => w16I2sdat2Hi v
  | .r16I2sdat2Lo => r16I2sdat2Lo
  | .w16I2sdat2Lo v => w16I2sdat2Lo v
  | .r16EebusHi => r16EebusHi
  | .w16EebusHi v => w16EebusHi v
  | .r16EebusLo => r16EebusLo
  | .w16EebusLo v => w16EebusLo v
  | .r16Unrecognized off => r16Unrecognized off
  | .w16Unrecognized off v => w16Unrecognized off v
  | .dsaPlayTrack p => dsaPlayTrack p
  | .dsaStop p => dsaStop p
  | .dsaReadToc p => dsaReadToc p
  | .dsaPause p => dsaPause p
  | .dsaUnpause p => dsaUnpause p
  | .dsaGotoMin p => dsaGotoMin p
  | .dsaGotoSec p => dsaGotoSec p
  | .dsaGotoFrm p => dsaGotoFrm p
  | .dsaReadLongToc p => dsaReadLongToc p
  | .dsaSetMode p => dsaSetMode p
  | .dsaOversample p => dsaOversample p
  | .dsaZeroWord => dsaZeroWord
  | .dsaUnrecognized opc p => dsaUnrecognized opc p
  | .cartEwds s x => cartEwds s x
  | .cartWral s x d => cartWral s x d
  | .cartEral s x => cartEral s x
  | .cartEwen s x => cartEwen s x
  | .cartWrite s a d => cartWrite s a d
  | .cartRead s a => cartRead s a
  | .cartErase s a => cartErase s a
  | .cartChipselect => cartChipselect
  | .cartClock b => cartClock b
  | .cartReaddo => cartReaddo
  | .cartUnexpectedClock b => cartUnexpectedClock b
  | .unitEwds s x => unitEwds s x
  | .unitWral s x d => unitWral s x d
  | .unitEral s x => unitEral s x
  | .unitEwen s x => unitEwen s x
  | .unitWrite s a d => unitWrite s a d
  | .unitRead s a => unitRead s a
  | .unitErase s a => unitErase s a
  | .unitMalformed op a => unitMalformed op a
  | .unitLinesWrite v => unitLinesWrite v
  | .unitChipselect v => unitChipselect v
  | .unitCommandBit v => unitCommandBit v
  | .unitDataBit v => unitDataBit v
  | .unitLinesRead => unitLinesRead
  | .pumpTick => pumpTick
  | .reset => reset

/-- Settles O59, row by row. -/
theorem decodingInvertsEncoding : Obligations.DecodingInvertsEncoding := fun c ph i hwf => roundTrip i c ph hwf

end Sys2Proof.Laws.RoundTrip

namespace Sys2Proof.Machine

/-! ## System bus addresses -/

section SystemBus

variable {c : Config} {a : Nat}

theorem decodeSystem_inside (ph : Phase) (dir : Dir) (width : Width) (v : Half)
    (hin : c.butchBase ≤ a ∧ a < c.butchBase + c.butchWindow) :
    decodeSystem c ph dir width a v = decodeWindow c dir width (a - c.butchBase) v := if_pos hin

theorem decodeSystem_select (ph : Phase) (dir : Dir) (width : Width) (v : Half)
    (hout : ¬ (c.butchBase ≤ a ∧ a < c.butchBase + c.butchWindow)) (hcs : a = c.cartPortCs) :
    decodeSystem c ph dir width a v = .ok .cartChipselect := (if_neg hout).trans (if_pos hcs)

/-- Away from the window and from `CART_PORT_CS`, a read is a query of `CART_PORT_DO` or is not this block's. -/
theorem decodeSystem_read (ph : Phase) (width : Width) (v : Half)
    (hout : ¬ (c.butchBase ≤ a ∧ a < c.butchBase + c.butchWindow)) (hcs : a ≠ c.cartPortCs) :
    decodeSystem c ph .read width a v = if a = c.cartPortDo then .ok .cartReaddo else .error .notAddressed :=
  (if_neg hout).trans (if_neg hcs)

/-- Away from the window and from `CART_PORT_CS`, a write is a clock at `CART_PORT_DI` or is not this block's. -/
theorem decodeSystem_write (ph : Phase) (width : Width) (v : Half)
    (hout : ¬ (c.butchBase ≤ a ∧ a < c.butchBase + c.butchWindow)) (hcs : a ≠ c.cartPortCs) :
    decodeSystem c ph .write width a v =
      if a = c.cartPortDi then .ok (decodeCartClock ph (v.getLsbD 0)) else .error .notAddressed :=
  (if_neg hout).trans (if_neg hcs)

end SystemBus

theorem decode_system (c : Config) (ph : Phase) (dir : Dir) (width : Width) (a : BitVec 32) (v : Half) :
    decode c ph ⟨.system dir width, a, v⟩ = decodeSystem c ph dir width a.toNat v := rfl

/-- R81, D3: the window stands at `BUTCH_BASE`. -/
theorem decode_system_window (c : Config) (ph : Phase) (dir : Dir) (width : Width) (v : Half) {off : Nat}
    (hwin : off < c.butchWindow) (hoff : off < 2 ^ 16) (haddr : c.butchBase + off < 2 ^ 32) :
    decode c ph ⟨.system dir width, BitVec.ofNat 32 (c.butchBase + off), v⟩ =
      decode c ph ⟨.window dir width, BitVec.ofNat 32 off, v⟩ := by
  have hoff32 : off < 2 ^ 32 := by omega
  rw [decode_system, decode_window, BitVec.toNat_ofNat, BitVec.toNat_ofNat, Nat.mod_eq_of_lt haddr, Nat.mod_eq_of_lt hoff32,
    Nat.mod_eq_of_lt hoff, decodeSystem_inside ph dir width v (by omega), Nat.add_sub_cancel_left]

/-- Settles O60: the ten words by evaluation of the decoder, the bus addresses by the case of `decodeSystem` each falls in. -/
theorem tableWordsDecodeToTheirRows : Obligations.TableWordsDecodeToTheirRows := by
  refine ⟨rfl, rfl, rfl, rfl, rfl, rfl, rfl, rfl, rfl, rfl, fun c ph width v =>
    ⟨fun dir off => decode_system_window c ph dir width v, fun a hout => ⟨fun dir => decodeSystem_select ph dir width v hout,
      fun hcs => ⟨fun hdo => ?_, fun hdo => ?_, fun hdi => ?_, fun hdi => ?_⟩⟩⟩⟩
  · rw [decode_system, decodeSystem_read ph width v hout hcs, if_pos hdo]
  · rw [decode_system, decodeSystem_read ph width v hout hcs, if_neg hdo]
  · rw [decode_system, decodeSystem_write ph width v hout hcs, if_pos hdi, decodeCartClock]
  · rw [decode_system, decodeSystem_write ph width v hout hcs, if_neg hdi]

end Sys2Proof.Machine
end

section
/-! The TOC reader: times as frame counts (O27), the sessions a disc has and has not (O28), what a long read stores (O29), and
where the TOC commands stop (O30). -/

namespace Sys2Proof.Machine

/-! ## Times -/

/-- R131 on the number of frames from LSN -150 on. -/
theorem lsnToMsf_of_frames (n : Nat) : lsnToMsf ((n : Int) - 150) = some (n / 75 / 60, n / 75 % 60, n % 75) := by
  have hlow : ¬ (n : Int) - 150 < -150 := by omega
  have hframes : ((n : Int) - 150 + 150).toNat = n := by omega
  simp only [lsnToMsf, hlow, if_false, hframes]

/-- Settles O27: from -150 on an LSN is a number of frames less 150, and below there is no time. -/
theorem lsnToMsfInvertsTheFrameCount : Obligations.LsnToMsfInvertsTheFrameCount := by
  refine fun lsn => ⟨fun hlow => ?_, lsnToMsf_none⟩
  obtain ⟨n, hn⟩ := Int.eq_ofNat_of_zero_le (show 0 ≤ lsn + 150 by omega)
  obtain rfl : lsn = (n : Int) - 150 := by omega
  exact ⟨_, _, _, lsnToMsf_of_frames n, by omega, by omega, by omega, by omega⟩

/-! ## Sessions -/

theorem Disc.single_of_ne {d : Disc} (h : d.lastSessionStart ≠ d.trackLSN d.firstTrack) : d.single = false := by
  simpa [Disc.single] using h

theorem Disc.TwoSessions.unique {d : Disc} {b b' : Nat} (h : d.TwoSessions b) (h' : d.TwoSessions b') : b = b' :=
  Option.some.inj (h.boundary.symm.trans h'.boundary)

namespace Disc.Session

variable {c : Config} {d : Disc} {p : Byte} {first last : Nat} {time : Int}

/-- A single disc has session 0 alone. -/
theorem of_single (h : d.Session c p first last time) (hs : d.single = true) :
    p = 0 ∧ first = 1 ∧ last = d.trackCount := by
  cases h with
  | whole => exact ⟨rfl, rfl, rfl⟩
  | first hb => simp [hb.notSingle] at hs
  | second hb => simp [hb.notSingle] at hs

/-- A disc of two sessions has sessions 0 and 1, one on each side of the boundary track. -/
theorem of_twoSessions {b : Nat} (h : d.Session c p first last time) (hb : d.TwoSessions b) :
    (p = 0 ∧ first = 1 ∧ last = b - 1) ∨ (p = 1 ∧ first = b ∧ last = d.trackCount) := by
  cases h with
  | whole hs => simp [hb.notSingle] at hs
  | first hb' => exact .inl ⟨rfl, rfl, by rw [hb'.unique hb]⟩
  | second hb' => exact .inr ⟨rfl, hb'.unique hb, rfl⟩

/-- A short read of a session whose last track has an entry and whose summary time fits the table (R136). -/
theorem short_stored (h : d.Session c p first last time) (hlast : last ≤ 99) (hlow : -150 ≤ time)
    (hhigh : time ≤ 294911849) (t : Toc) :
    ∃ m f r, lsnToMsf time = some (m, f, r) ∧
      readShortToc c d true p t = .ok (stOk, { t with
        entries := t.entries.set 0 ⟨BitVec.ofNat 16 first, BitVec.ofNat 16 last, BitVec.ofNat 16 m, BitVec.ofNat 16 f,
          BitVec.ofNat 16 r⟩ }) := by
  obtain ⟨-, hfirst⟩ := h.first_pos
  rw [h.short t]
  exact storeSummary_stored t hlow hhigh (by omega) (by omega)

/-- A long read that succeeds leaves the bounds of its session (R137). -/
theorem long_bounds (h : d.Session c p first last time) {t t' : Toc} (hlong : readLongToc c d true p t = .ok (stOk, t')) :
    t'.startTrack.toNat = first ∧ t'.endTrack.toNat = last := by
  obtain ⟨t1, hshort, hlast, rfl⟩ := readLongToc_done hlong
  rw [h.lastTrackOf] at hlast
  rw [h.short t] at hshort
  obtain ⟨-, hfirst⟩ := h.first_pos
  exact storeSummary_bounds hshort (by omega) (by omega)

/-- A long read succeeds where the short one does and the last track has an entry. -/
theorem long_ok (h : d.Session c p first last time) (hlast : last ≤ 99) (hlow : -150 ≤ time)
    (hhigh : time ≤ 294911849) (t : Toc) : ∃ t', readLongToc c d true p t = .ok (stOk, t') := by
  obtain ⟨_, _, _, -, hshort⟩ := h.short_stored hlast hlow hhigh t
  exact ⟨_, readLongToc_stored hshort (h.lastTrackOf.trans_le hlast)⟩

end Disc.Session

/-- An adapter that is not open (R130, D16). -/
theorem readShortToc_unavailable (c : Config) (d : Disc) (p : Byte) (t : Toc) :
    readShortToc c d false p t = .ok (stUnavailable, t) := rfl

/-- Settles O28: the status of a read that fails is the short read's; the summaries are `Disc.Session.short_stored` of each
session, and the ranges of the long reads `Disc.Session.long_bounds`. -/
theorem sessionsPartitionTheDisc : Obligations.SessionsPartitionTheDisc := by
  refine fun c d t => ⟨fun x => ?_, fun x hx => ?_, fun hN hlow hhigh => ⟨fun hs => ?_, fun b hb hblow hbhigh => ?_⟩⟩
  · have hshort := readShortToc_unavailable c d x t
    exact ⟨hshort, readLongToc_failed hshort (by decide)⟩
  · have hshort := readShortToc_illegal (c := c) t (hx.imp_left fun hs => ⟨Disc.single_of hs.1, hs.2⟩)
    exact ⟨hshort, readLongToc_failed hshort (by decide)⟩
  · exact (Disc.Session.whole (Disc.single_of hs)).short_stored hN hlow hhigh t
  · have hbN : b - 1 ≤ 99 := (Nat.sub_le b 1).trans (hb.2.2.1.trans hN)
    have h0 : d.Session c 0 1 (b - 1) (d.trackLSN b) := .first hb
    have h1 : d.Session c 1 b d.trackCount (d.leadOutLSN c) := .second hb
    obtain ⟨t0, hlong0⟩ := h0.long_ok hbN hblow hbhigh t
    obtain ⟨t1, hlong1⟩ := h1.long_ok hN hlow hhigh t0
    obtain ⟨hstart0, hend0⟩ := h0.long_bounds hlong0
    obtain ⟨hstart1, hend1⟩ := h1.long_bounds hlong1
    exact ⟨h0.short_stored hbN hblow hbhigh t, h1.short_stored hN hlow hhigh t,
      t0, t1, hlong0, hlong1, hstart0, hend0, hstart1, hend1⟩

/-! ## The table after a long read -/

/-- A long read that succeeds fills the entries within the bounds it leaves, and no other but the summary (R137). -/
theorem readLongToc_entries {c : Config} {d : Disc} {o : Bool} {p : Byte} {t t' : Toc}
    (h : readLongToc c d o p t = .ok (stOk, t')) {k : Nat} (hk : k < 100) (h1 : 1 ≤ k) :
    t'.entries[k] =
      if t'.startTrack.toNat ≤ k ∧ k ≤ t'.endTrack.toNat then trackEntry c d k else t.entries[k] := by
  obtain ⟨t1, hshort, -, rfl⟩ := readLongToc_done h
  simp only [entries_filled, mem_trackRange, readShortToc_entry hshort hk h1]

/-- The number of a track that has an entry is stored as it is. -/
theorem trackEntry_eq (c : Config) (d : Disc) {k : Nat} (hk : k < 2 ^ 16) :
    trackEntry c d k = ⟨BitVec.ofNat 16 k, attrOf c k, (bcdToBin (d.track k).bcdMin).setWidth 16,
      (bcdToBin (d.track k).bcdSec).setWidth 16, (bcdToBin (d.track k).bcdFrm).setWidth 16⟩ := by
  simp only [trackEntry, toU16, hk, if_true]

/-- A long read that succeeds is a short read that succeeds, and keeps its summary: the session has no track 0. -/
theorem readLongToc_summary {c : Config} {d : Disc} {p : Byte} {t t' : Toc}
    (h : readLongToc c d true p t = .ok (stOk, t')) :
    ∃ t1, readShortToc c d true p t = .ok (stOk, t1) ∧ t'.entries[0] = t1.entries[0] ∧
      t'.startTrack = t1.entries[0].firstTrack ∧ t'.endTrack = t1.entries[0].lastTrack := by
  obtain ⟨t1, hshort, -, rfl⟩ := readLongToc_done h
  obtain ⟨first, last, time, hses⟩ := Disc.Session.of_short hshort
  have hstart : t1.entries[0].firstTrack.toNat = first := (hses.long_bounds h).1
  have hfirst : 1 ≤ first := hses.first_pos.1
  refine ⟨t1, hshort, ?_, rfl, rfl⟩
  rw [entries_filled, if_neg]
  rw [mem_trackRange]
  omega

/-- Settles O29: the bounds are those of the one session the read is of, the entries `readLongToc_entries`. -/
theorem longTocFillsTheSessionsTracks : Obligations.LongTocFillsTheSessionsTracks := by
  intro c d p t t' h
  obtain ⟨t1, hshort, hsummary⟩ := readLongToc_summary h
  obtain ⟨first, last, time, hses⟩ := Disc.Session.of_short hshort
  obtain ⟨hstart, hend⟩ := hses.long_bounds h
  rw [hstart, hend]
  refine ⟨⟨t1, hshort, hsummary⟩, fun hs => hses.of_single (Disc.single_of hs), fun b hb => hses.of_twoSessions hb,
    fun k hk => ?_⟩
  have hentry := readLongToc_entries h k.isLt hk
  rw [hstart, hend] at hentry
  refine ⟨fun hin => ?_, fun hout => hentry.trans (if_neg hout)⟩
  rw [hentry, if_pos hin, trackEntry_eq c d (by omega)]
  rfl

/-! ## Refused commands -/

section Refused

variable {s : State} {p : Byte} {r : Refusal}

/-- READ_TOC past the guard stops where the short read does. -/
theorem exec_dsaReadToc_refused (hok : s.dsp.adapterOk = true) (hw : s.cfg.opcReadToc ++ p ≠ (0 : Half))
    (h : readShortToc s.cfg s.disc true p s.toc = .error r) : exec (.dsaReadToc p) s = .refused r := by
  have hrun : exec (.dsaReadToc p) s = actReadToc p (setTxPending (storeHalf .dsdata .lo (dsaWord s.cfg.opcReadToc p) s)) :=
    dsaCommand_go hok hw
  rw [hrun]
  simp [actReadToc, hok, h]

/-- READ_LONG_TOC past the guard stops where the long read does. -/
theorem exec_dsaReadLongToc_refused (hok : s.dsp.adapterOk = true) (hw : s.cfg.opcReadLongToc ++ p ≠ (0 : Half))
    (h : readLongToc s.cfg s.disc true p s.toc = .error r) : exec (.dsaReadLongToc p) s = .refused r := by
  have hrun : exec (.dsaReadLongToc p) s =
      actReadLongToc p (setTxPending (storeHalf .dsdata .lo (dsaWord s.cfg.opcReadLongToc p) s)) := dsaCommand_go hok hw
  rw [hrun]
  simp [actReadLongToc, hok, h]

/-- Where the short read is refused, so are both commands. -/
theorem toc_commands_refused (hok : s.dsp.adapterOk = true) (h : readShortToc s.cfg s.disc true p s.toc = .error r) :
    (s.cfg.opcReadToc ++ p ≠ (0 : Half) → exec (.dsaReadToc p) s = .refused r) ∧
      (s.cfg.opcReadLongToc ++ p ≠ (0 : Half) → exec (.dsaReadLongToc p) s = .refused r) :=
  ⟨fun hw => exec_dsaReadToc_refused hok hw h, fun hw => exec_dsaReadLongToc_refused hok hw (readLongToc_refused h)⟩

end Refused

/-- From -150 on a summary is stored, whatever its numbers. -/
theorem storeSummary_ok (first last : Nat) {lsn : Int} (t : Toc) (h : -150 ≤ lsn) :
    ∃ t1, storeSummary first last lsn t = .ok (stOk, t1) := by
  obtain ⟨m, f, r, hmsf, -⟩ := lsnToMsf_some h
  rw [storeSummary, hmsf]
  exact ⟨_, rfl⟩

/-- A long read of a session with a last track above 99: refused also where its number does not fit the summary (R35, R137). -/
theorem Disc.Session.long_tooLong {c : Config} {d : Disc} {p : Byte} {first last : Nat} {time : Int}
    (h : d.Session c p first last time) (hlow : -150 ≤ time) (hlast : 99 < last) (t : Toc) :
    readLongToc c d true p t = .error .malformedDisc := by
  obtain ⟨t1, hsum⟩ := storeSummary_ok first last t hlow
  exact readLongToc_tooLong ((h.short t).trans hsum) (hlast.trans_eq h.lastTrackOf.symm)

/-- Settles O30: both commands stop where the short read does, and READ_LONG_TOC also where a last track is above 99. -/
theorem malformedDiscIsRefused : Obligations.MalformedDiscIsRefused := by
  refine fun s p hok => ⟨fun hs hb => ?_, fun last time hlist => ?_⟩
  · exact toc_commands_refused hok (readShortToc_malformed s.toc (Disc.single_of_ne hs) hb)
  · have hses : ∃ first, s.disc.Session s.cfg p first last time := by
      rcases hlist with ⟨hs, rfl, rfl, rfl⟩ | ⟨b, hb, ⟨rfl, rfl, rfl⟩ | ⟨rfl, rfl, rfl⟩⟩
      · exact ⟨_, .whole (Disc.single_of hs)⟩
      · exact ⟨_, .first hb⟩
      · exact ⟨_, .second hb⟩
    obtain ⟨first, hses⟩ := hses
    refine ⟨fun hneg => ?_, fun hlow hlast hw => ?_⟩
    · exact toc_commands_refused hok ((hses.short s.toc).trans (storeSummary_refused s.toc hneg))
    · exact exec_dsaReadLongToc_refused hok hw (hses.long_tooLong hlow hlast s.toc)

end Sys2Proof.Machine
end

section
/-! The command queue in use: a read of the command-data half (O8), and what was queued read back (O17). -/

namespace Sys2Proof.Machine

theorem dequeue_of_ne {s : State} (h : s.fifo.rd ≠ s.fifo.wr) :
    dequeue s = (s.fifo.head, { s with fifo := { s.fifo with rd := slotAfter s.fifo.rd } }) :=
  if_neg fun hempty => h ((Fifo.count_eq_zero _).1 ((Fifo.empty_iff _).1 hempty))

/-- Settles O8: the row is `Dequeue`, on an empty and on any other queue. -/
theorem commandDataReadDequeues : Obligations.CommandDataReadDequeues := by
  intro s
  rw [exec_r16DsdataLo]
  refine ⟨fun heq => ?_, fun hne => ⟨slotAfter s.fifo.rd, rfl, ?_⟩⟩
  · rw [dequeue_empty ((Fifo.words_eq_nil _).2 heq)]
  · rw [dequeue_of_ne hne, Fifo.head]

theorem runResults_cons {i : Instr} {s t : State} (is : List Instr) (h : exec i s = .next t) :
    runResults (i :: is) s = (runResults is t).map fun p => (t.result :: p.1, p.2) := by
  simp only [runResults, h]

/-- As many reads of `dsdata.lo` as words are queued return these words, oldest first, and leave none (R152). -/
theorem runResults_drain {s : State} {ws : List Half} (h : s.fifo.words = ws) :
    ∃ t, runResults (List.replicate ws.length .r16DsdataLo) s = some (ws, t) ∧ t.fifo.words = [] := by
  induction ws generalizing s with
  | nil => exact ⟨s, rfl, h⟩
  | cons w ws ih =>
    obtain ⟨hhead, -, htail⟩ := dequeue_cons h
    obtain ⟨t, hrun, hleft⟩ := ih (s := { (dequeue s).2 with result := (dequeue s).1 }) htail
    refine ⟨t, ?_, hleft⟩
    rw [List.length_cons, List.replicate_succ, runResults_cons _ (exec_r16DsdataLo s), hrun, hhead]
    rfl

/-- From an empty queue, up to 511 words are all stored. -/
theorem words_enqueueAll_of_empty {s : State} {ws : List Half} (hempty : s.fifo.rd = s.fifo.wr) (hlen : ws.length ≤ 511) :
    (enqueueAll ws s).fifo.words = ws := by
  rw [words_enqueueAll, (Fifo.words_eq_nil _).2 hempty, (Fifo.count_eq_zero _).2 hempty, List.nil_append]
  exact List.take_of_length_le hlen

/-- Settles O17: the words queued are the list, which as many reads drain, and 511 of them fill the queue. -/
theorem queuedWordsReturnInOrder : Obligations.QueuedWordsReturnInOrder := by
  intro s ws hempty hlen
  have hwords := words_enqueueAll_of_empty hempty hlen
  obtain ⟨t, hrun, hleft⟩ := runResults_drain hwords
  refine ⟨⟨t, hrun, (Fifo.words_eq_nil _).1 hleft⟩, fun hfull w => enqueue_full ?_⟩
  rw [← Fifo.words_length, hwords, hfull]

end Sys2Proof.Machine
end

section
/-! The DSA commands: where the guard stops them (O18), what each of them answers past it (O19 to O25). -/

namespace Sys2Proof.Machine

/-! ## The guard -/

/-- A command the guard stops is only stored (R160). -/
theorem dsaCommand_stop {w : Half} {a : State → Res} {s : State} (h : s.dsp.adapterOk = false ∨ w = 0) :
    dsaCommand w a s = .next (storeHalf .dsdata .lo w s) := if_pos h

/-- The row of a command is its word with the action of its kind. -/
theorem exec_dsaInstr (k : DsaKind) (p : Byte) (s : State) :
    exec (dsaInstr p k) s = dsaCommand (dsaWord (s.cfg.opc k) p) (dsaAction (s.cfg.opc k) p k) s := by
  cases k <;> rfl

theorem exec_w16DsdataLo (w : Half) (s : State) : exec (.w16DsdataLo w) s = dsaCommand w (dispatchAction w) s := rfl

/-- With the adapter not initialised the row of a command stores its word (R160). -/
theorem exec_dsaInstr_stop (k : DsaKind) (p : Byte) {s : State} (h : s.dsp.adapterOk = false) :
    exec (dsaInstr p k) s = .next (storeHalf .dsdata .lo (dsaWord (s.cfg.opc k) p) s) :=
  (exec_dsaInstr k p s).trans (dsaCommand_stop (.inl h))

/-- Settles O18: every row is a command, which the guard stops. -/
theorem guardedCommandIsOnlyStored : Obligations.GuardedCommandIsOnlyStored := by
  refine fun s w opc p => ⟨dsaCommand_stop (.inr rfl), dsaCommand_stop (.inr rfl), fun hok =>
    ⟨dsaCommand_stop (.inl hok), fun i o hrow => ?_⟩⟩
  simp only [List.mem_cons, Prod.mk.injEq, List.not_mem_nil, or_false] at hrow
  rcases hrow with ⟨rfl, rfl⟩ | ⟨rfl, rfl⟩ | ⟨rfl, rfl⟩ | ⟨rfl, rfl⟩ | ⟨rfl, rfl⟩ | ⟨rfl, rfl⟩ | ⟨rfl, rfl⟩ |
    ⟨rfl, rfl⟩ | ⟨rfl, rfl⟩ | ⟨rfl, rfl⟩ | ⟨rfl, rfl⟩ | ⟨rfl, rfl⟩
  · exact exec_dsaInstr_stop .playTrack p hok
  · exact exec_dsaInstr_stop .stop p hok
  · exact exec_dsaInstr_stop .readToc p hok
  · exact exec_dsaInstr_stop .pause p hok
  · exact exec_dsaInstr_stop .unpause p hok
  · exact exec_dsaInstr_stop .gotoMin p hok
  · exact exec_dsaInstr_stop .gotoSec p hok
  · exact exec_dsaInstr_stop .gotoFrm p hok
  · exact exec_dsaInstr_stop .readLongToc p hok
  · exact exec_dsaInstr_stop .setMode p hok
  · exact exec_dsaInstr_stop .oversample p hok
  · exact dsaCommand_stop (.inl hok)

/-! ## Past the guard -/

section PastTheGuard

variable {s : State} {p : Byte}

/-- Past the guard the row of a command runs its action on the state with the word stored and `tx_pending` set (R161). -/
theorem exec_dsaInstr_go (k : DsaKind) (hok : s.dsp.adapterOk = true) (hw : s.cfg.opc k ++ p ≠ (0 : Half)) :
    exec (dsaInstr p k) s =
      dsaAction (s.cfg.opc k) p k (setTxPending (storeHalf .dsdata .lo (dsaWord (s.cfg.opc k) p) s)) :=
  (exec_dsaInstr k p s).trans (dsaCommand_go hok hw)

/-- A word whose opcode is none of the eleven does nothing (R176). -/
theorem dispatchAction_unrecognized {opc : Byte} (p : Byte) (h : ∀ k, s.cfg.opc k ≠ opc) :
    dispatchAction (dsaWord opc p) s = .next s := by
  have hnone : s.cfg.dsaKind opc = none := Laws.dsaKind_none (by simp [h])
  rw [dispatchAction, Laws.dsaOpc_dsaWord, hnone]
  rfl

/-- READ_TOC past the guard stores the table and queues the response to what the short read answers (R169). -/
theorem exec_dsaReadToc_next {st : Half} {t : Toc} (hok : s.dsp.adapterOk = true)
    (hw : s.cfg.opcReadToc ++ p ≠ (0 : Half)) (h : readShortToc s.cfg s.disc true p s.toc = .ok (st, t)) :
    exec (.dsaReadToc p) s = .next (enqueueAll (shortResponse st t)
      { setTxPending (storeHalf .dsdata .lo (dsaWord s.cfg.opcReadToc p) s) with toc := t }) := by
  refine (exec_dsaInstr_go .readToc hok hw).trans ?_
  simp [dsaAction, actReadToc, Config.opc, hok, h]

/-- READ_LONG_TOC past the guard stores the table and queues the response to what the long read answers (R170). -/
theorem exec_dsaReadLongToc_next {st : Half} {t : Toc} (hok : s.dsp.adapterOk = true)
    (hw : s.cfg.opcReadLongToc ++ p ≠ (0 : Half)) (h : readLongToc s.cfg s.disc true p s.toc = .ok (st, t)) :
    exec (.dsaReadLongToc p) s = .next (enqueueAll (longResponse st t)
      { setTxPending (storeHalf .dsdata .lo (dsaWord s.cfg.opcReadLongToc p) s) with toc := t }) := by
  refine (exec_dsaInstr_go .readLongToc hok hw).trans ?_
  simp [dsaAction, actReadLongToc, Config.opc, hok, h]

end PastTheGuard

/-! ## Commands without a response -/

/-- Settles O19: the action of each of the four is nothing. -/
theorem acknowledgedCommandsOnlySetTransmitPending : Obligations.AcknowledgedCommandsOnlySetTransmitPending := by
  intro s p o i hrow hok hw
  simp only [List.mem_cons, Prod.mk.injEq, List.not_mem_nil, or_false] at hrow
  rcases hrow with ⟨rfl, rfl⟩ | ⟨rfl, rfl⟩ | ⟨rfl, rfl⟩ | ⟨rfl, rfl⟩
  · exact exec_dsaInstr_go .playTrack hok hw
  · exact exec_dsaInstr_go .stop hok hw
  · exact exec_dsaInstr_go .pause hok hw
  · exact exec_dsaInstr_go .unpause hok hw

/-- Settles O20: the row's action is nothing, and so is what the write dispatches. -/
theorem unrecognizedOpcodeOnlySetsTransmitPending : Obligations.UnrecognizedOpcodeOnlySetsTransmitPending := by
  refine fun s opc p hok hw hopc => ⟨dsaCommand_go hok hw, ?_⟩
  exact (dsaCommand_go hok hw).trans (dispatchAction_unrecognized p hopc)

/-! ## Commands with a response -/

theorem gotoTarget_eq (mins secs frms : Byte) :
    gotoTarget mins secs frms = ((mins.toNat : Int) * 60 + secs.toNat) * 75 + frms.toNat - 150 := by
  simp [gotoTarget]

/-- Settles O21: each of the three is its action past the guard, the target read as an integer. -/
theorem gotoCommandsAccumulateAndSeek : Obligations.GotoCommandsAccumulateAndSeek := by
  refine fun s p hok => ⟨exec_dsaInstr_go .gotoMin hok, exec_dsaInstr_go .gotoSec hok, fun hw => ?_⟩
  rw [← gotoTarget_eq]
  exact exec_dsaInstr_go .gotoFrm hok hw

/-- A byte tagged in the high byte is the word of both (R105). -/
theorem tagged_byte (tag p : Byte) : tagged (tag.setWidth 16 <<< 8) (p.setWidth 16) = tag ++ p := by
  rw [tagged, BitVec.append_def, BitVec.shiftLeftZeroExtend_eq, BitVec.setWidth'_eq]

/-- Settles O22: the action past the guard, its response word read as two bytes. -/
theorem setModeSelectsTheRate : Obligations.SetModeSelectsTheRate := by
  intro s p hok hw
  rw [← tagged_byte]
  exact exec_dsaInstr_go .setMode hok hw

/-- Settles O23: the action past the guard. -/
theorem oversampleEchoesTheCommand : Obligations.OversampleEchoesTheCommand :=
  fun _ _ hok hw => exec_dsaInstr_go .oversample hok hw

theorem shortResponse_ok (t : Toc) : shortResponse 0x0000 t = quintuple 0x2000 t.entries[0] := rfl

theorem shortResponse_status {st : Half} (t : Toc) (h : st ≠ 0x0000) : shortResponse st t = [st] := if_neg h

/-- The five words of a short response (R169). -/
theorem quintuple_short (e : TocEntry) :
    quintuple 0x2000 e = [0x2000 ||| e.firstTrack, 0x2100 ||| e.lastTrack, 0x2200 ||| e.minutes, 0x2300 ||| e.seconds,
      0x2400 ||| e.frames] := rfl

/-- Settles O24: the response is the quintuple of the summary, or the status alone. -/
theorem shortTocResponseIsFiveTaggedWords : Obligations.ShortTocResponseIsFiveTaggedWords := by
  intro s p st t' hok hw h s1 e
  rw [exec_dsaReadToc_next hok hw h]
  split
  · next hst =>
    simp only [hst, shortResponse_ok, quintuple_short, enqueueAll_cons, enqueueAll_nil]
    rfl
  · next hst =>
    rw [shortResponse_status t' hst]
    rfl

theorem longResponse_ok (t : Toc) :
    longResponse 0x0000 t =
      (trackRange t.startTrack.toNat t.endTrack.toNat).flatMap (fun k => quintuple 0x6000 (t.entry k)) ++ endMarker := rfl

theorem longResponse_status {st : Half} (t : Toc) (h : st ≠ 0x0000) : longResponse st t = [st] := if_neg h

/-- Settles O25: the response is the quintuples of the tracks and the end marker, or the status alone. -/
theorem longTocResponseIsAQuintuplePerTrack : Obligations.LongTocResponseIsAQuintuplePerTrack := by
  intro s p st t' hok hw h s1 tracks words
  rw [exec_dsaReadLongToc_next hok hw h]
  split
  · next hst =>
    rw [hst, longResponse_ok]
    rfl
  · next hst =>
    rw [longResponse_status t' hst]
    rfl

end Sys2Proof.Machine
end

section
/-! What the commands leave unchanged (O26). -/

namespace Sys2Proof.Machine

/-! ## Register halves and bytes -/

theorem Reg32.half_setHalf (x : Reg32) (h h' : RegHalf) (v : Half) :
    (x.setHalf h v).half h' = if h' = h then v else x.half h' := by
  cases h <;> cases h' <;> rfl

theorem Regs.get_setHalf (g : Regs) (r r' : RegName) (h : RegHalf) (v : Half) :
    (g.setHalf r h v).get r' = if r' = r then (g.get r).setHalf h v else g.get r' := by
  cases r <;> cases r' <;> rfl

/-- A store in one half of the bundle leaves the other 21 (R192). -/
theorem Regs.half_setHalf_ne (g : Regs) {r r' : RegName} {h h' : RegHalf} (v : Half) (hne : (r', h') ≠ (r, h)) :
    (g.setHalf r h v).half r' h' = g.half r' h' := by
  rw [Regs.half, Regs.get_setHalf]
  split
  · next hr =>
    have hh : h' ≠ h := fun e => hne (by rw [hr, e])
    rw [Reg32.half_setHalf, if_neg hh, Regs.half, hr]
  · rfl

/-- The bytes of a state are those of its two images and its buffer. -/
theorem State.byteAt_of_eq {s t : State} (hcart : t.nvCart = s.nvCart) (hunit : t.nvUnit = s.nvUnit)
    (hbuf : t.pump.buf = s.pump.buf) (sp : Space) (a : Nat) : t.byteAt sp a = s.byteAt sp a := by
  cases sp <;> simp only [State.byteAt, hcart, hunit, hbuf]

/-! ## What no action touches -/

theorem DispatchOnly.regs {u t : State} (h : DispatchOnly u t) : t.regs = u.regs := by rw [h.state]

theorem DispatchOnly.events {u t : State} (h : DispatchOnly u t) : t.events = u.events := by rw [h.state]

theorem DispatchOnly.result {u t : State} (h : DispatchOnly u t) : t.result = u.result := by rw [h.state]

theorem DispatchOnly.cfg {u t : State} (h : DispatchOnly u t) : t.cfg = u.cfg := by rw [h.state]

theorem DispatchOnly.disc {u t : State} (h : DispatchOnly u t) : t.disc = u.disc := by rw [h.state]

theorem DispatchOnly.armed {u t : State} (h : DispatchOnly u t) : t.pump.armed = u.pump.armed := by rw [h.pump]

theorem DispatchOnly.periodUs {u t : State} (h : DispatchOnly u t) : t.pump.periodUs = u.pump.periodUs := by rw [h.pump]

theorem DispatchOnly.outLeft {u t : State} (h : DispatchOnly u t) : t.pump.outLeft = u.pump.outLeft := by rw [h.pump]

theorem DispatchOnly.outRight {u t : State} (h : DispatchOnly u t) : t.pump.outRight = u.pump.outRight := by rw [h.pump]

theorem DispatchOnly.prevRight {u t : State} (h : DispatchOnly u t) : t.pump.prevRight = u.pump.prevRight := by rw [h.pump]

theorem DispatchOnly.bufValid {u t : State} (h : DispatchOnly u t) : t.pump.bufValid = u.pump.bufValid := by rw [h.pump]

/-! ## Commands -/

/-- What a command touches: `dsdata.lo`, `tx_pending`, and what its action may touch (R162). -/
def CommandOnly (s t : State) : Prop :=
  ∃ w tx, DispatchOnly { storeHalf .dsdata .lo w s with txPending := tx } t

theorem exec_dsaInstr_only (k : DsaKind) {p : Byte} {s t : State} (h : exec (dsaInstr p k) s = .next t) :
    CommandOnly s t := by
  obtain ⟨tx, -, hd⟩ := dsaCommand_only (fun _ _ => dsaAction_only) ((exec_dsaInstr k p s).symm.trans h)
  exact ⟨_, tx, hd⟩

theorem dsaCommand_unrecognized_only {w : Half} {s t : State} (h : dsaCommand w actUnrecognized s = .next t) :
    CommandOnly s t := by
  have hact : ∀ u v, actUnrecognized u = .next v → DispatchOnly u v := fun u v huv => by
    cases huv
    exact .refl u
  obtain ⟨tx, -, hd⟩ := dsaCommand_only hact h
  exact ⟨w, tx, hd⟩

theorem exec_w16DsdataLo_only {w : Half} {s t : State} (h : exec (.w16DsdataLo w) s = .next t) : CommandOnly s t := by
  obtain ⟨tx, -, hd⟩ := dsaCommand_only (fun _ _ => dispatchAction_only) ((exec_w16DsdataLo w s).symm.trans h)
  exact ⟨w, tx, hd⟩

/-- Settles O26: each row is a command, and what is listed is none of the things a command touches. -/
theorem dispatchLeavesEverythingElse : Obligations.DispatchLeavesEverythingElse := by
  intro w opc p i s t hrow h
  have honly : CommandOnly s t := by
    simp only [List.mem_cons, List.not_mem_nil, or_false] at hrow
    rcases hrow with rfl | rfl | rfl | rfl | rfl | rfl | rfl | rfl | rfl | rfl | rfl | rfl | rfl | rfl
    · exact exec_dsaInstr_only .playTrack h
    · exact exec_dsaInstr_only .stop h
    · exact exec_dsaInstr_only .readToc h
    · exact exec_dsaInstr_only .pause h
    · exact exec_dsaInstr_only .unpause h
    · exact exec_dsaInstr_only .gotoMin h
    · exact exec_dsaInstr_only .gotoSec h
    · exact exec_dsaInstr_only .gotoFrm h
    · exact exec_dsaInstr_only .readLongToc h
    · exact exec_dsaInstr_only .setMode h
    · exact exec_dsaInstr_only .oversample h
    · exact dsaCommand_unrecognized_only h
    · exact dsaCommand_unrecognized_only h
    · exact exec_w16DsdataLo_only h
  obtain ⟨word, tx, hd⟩ := honly
  refine ⟨fun r half hne => ?_, hd.overlayDisabled, hd.cart, hd.unit, hd.rd, hd.adapter, hd.armed, hd.periodUs, hd.outLeft,
    hd.outRight, hd.prevRight, hd.bufValid, hd.events, hd.result, hd.cfg, hd.disc,
    State.byteAt_of_eq hd.nvCart hd.nvUnit hd.buf⟩
  rw [hd.regs]
  exact Regs.half_setHalf_ne s.regs word hne

end Sys2Proof.Machine
end

section
/-! The register window row by row: the plain halves (O3, O4), unrecognized offsets (O13), the control register and its latches
(O5, O6), the acknowledging read (O7), the command-data write (O9), the I2S-control write (O10), the `eebus` halves (O11, O12). -/

namespace Sys2Proof.Machine

/-- The write of a register half (R190): four registers have a write of their own, the others the plain one (R192). -/
def writeHalf (v : Half) (s : State) : RegName → RegHalf → Res
  | .ctrl, h => ctrlWrite h v s
  | .dsdata, .lo => dsaCommand v (dispatchAction v) s
  | .i2cntrl, h => i2cntrlWrite h v s
  | .eebus, h => eebusWrite h v s
  | r, h => plainWrite r h v s

theorem exec_writeInstr (v : Half) (r : RegName) (h : RegHalf) (s : State) :
    exec (writeInstr v r h) s = writeHalf v s r h := by
  cases r <;> cases h <;> rfl

/-! ## Plain halves and unrecognized offsets -/

/-- Settles O3: each row reads its half plainly. -/
theorem plainReadsReturnTheStoredHalf : Obligations.PlainReadsReturnTheStoredHalf := fun s =>
  ⟨exec_readInstr .dsctrl .hi s, exec_readInstr .dsdata .hi s, exec_readInstr .i2cntrl .hi s, exec_readInstr .i2cntrl .lo s,
    exec_readInstr .sbcntrl .hi s, exec_readInstr .sbcntrl .lo s, exec_readInstr .subdata .hi s, exec_readInstr .subdata .lo s,
    exec_readInstr .subdatb .hi s, exec_readInstr .subdatb .lo s, exec_readInstr .sbtime .hi s, exec_readInstr .sbtime .lo s,
    exec_readInstr .fifodata .hi s, exec_readInstr .fifodata .lo s, exec_readInstr .i2sdat2 .hi s, exec_readInstr .i2sdat2 .lo s⟩

/-- Settles O4: each row writes its half plainly. -/
theorem plainWritesStoreAndNothingElse : Obligations.PlainWritesStoreAndNothingElse := fun s v =>
  ⟨exec_writeInstr v .dsctrl .hi s, exec_writeInstr v .dsctrl .lo s, exec_writeInstr v .dsdata .hi s,
    exec_writeInstr v .sbcntrl .hi s, exec_writeInstr v .sbcntrl .lo s, exec_writeInstr v .subdata .hi s,
    exec_writeInstr v .subdata .lo s, exec_writeInstr v .subdatb .hi s, exec_writeInstr v .subdatb .lo s,
    exec_writeInstr v .sbtime .hi s, exec_writeInstr v .sbtime .lo s, exec_writeInstr v .fifodata .hi s,
    exec_writeInstr v .fifodata .lo s, exec_writeInstr v .i2sdat2 .hi s, exec_writeInstr v .i2sdat2 .lo s⟩

theorem exec_w16Unrecognized (off v : Half) (s : State) : exec (.w16Unrecognized off v) s = .next s := rfl

/-- Settles O13: the read returns the word 0, the write is nothing. -/
theorem unrecognizedOffsetReadsZeroDropsWrites : Obligations.UnrecognizedOffsetReadsZeroDropsWrites :=
  fun s off v => ⟨rfl, exec_w16Unrecognized off v s⟩

/-! ## The control register -/

/-- A latch is shown at its bit of the half that holds it, and every other bit stays (R194). -/
theorem showLatch_getLsbD (h : RegHalf) (c : Fin 32) (latch : Bool) (v : Half) {j : Nat} (hj : j < 16) :
    (showLatch h c latch v).getLsbD j = if bitInHalf h c = true ∧ c.val % 16 = j then latch else v.getLsbD j := by
  have hat (b : Bool) : ((BitVec.ofBool b).setWidth 16 <<< (c.val % 16)).getLsbD j = (b && decide (c.val % 16 = j)) := by
    simpa using lineBit b ⟨c.val % 16, Nat.mod_lt _ (by decide)⟩ ⟨j, hj⟩
  have hmask : ((1 : Half) <<< (c.val % 16)).getLsbD j = decide (c.val % 16 = j) := hat true
  unfold showLatch
  split
  · next hin =>
    rw [BitVec.getLsbD_or, BitVec.getLsbD_and, BitVec.getLsbD_not, hmask, hat]
    by_cases hk : c.val % 16 = j <;> simp [hin, hk, hj]
  · next hout => simp [hout]

/-- On the whole register: the bit at the latch's position is the latch, the others stay. -/
theorem showLatch_word (c : Fin 32) (latch : Bool) (hi lo : Half) (b : Fin 32) :
    (showLatch .hi c latch hi ++ showLatch .lo c latch lo : Word).getLsbD b.val =
      if b = c then latch else (hi ++ lo : Word).getLsbD b.val := by
  have hb := b.isLt
  have hc := c.isLt
  rw [BitVec.getLsbD_append, BitVec.getLsbD_append]
  by_cases hlow : b.val < 16
  · have hat : (bitInHalf .lo c = true ∧ c.val % 16 = b.val) ↔ b = c := by
      simp only [bitInHalf, decide_eq_true_eq, Fin.ext_iff]
      omega
    simp only [hlow, if_true, showLatch_getLsbD .lo c latch lo hlow, hat]
  · have hj : b.val - 16 < 16 := by omega
    have hat : (bitInHalf .hi c = true ∧ c.val % 16 = b.val - 16) ↔ b = c := by
      simp only [bitInHalf, decide_eq_true_eq, Fin.ext_iff]
      omega
    simp only [hlow, if_false, showLatch_getLsbD .hi c latch hi hj, hat]

/-- Settles O5: each half is read through `ctrlView`, which shows the receive latch over the transmit latch over what is
stored. -/
theorem controlReadShowsTheLatches : Obligations.ControlReadShowsTheLatches := by
  refine fun s => ⟨ctrlView s .hi, ctrlView s .lo, exec_readInstr .ctrl .hi s, exec_readInstr .ctrl .lo s, fun b => ?_⟩
  rw [ctrlView, ctrlView, showLatch_word, showLatch_word]
  rfl

/-- Settles O6: the write is the hook on the stored half, and the hook asks for the overlay bit of the whole register. -/
theorem controlWriteRunsTheOverlayHook : Obligations.ControlWriteRunsTheOverlayHook :=
  fun s v => ⟨exec_writeInstr v .ctrl .hi s, exec_writeInstr v .ctrl .lo s⟩

/-! ## DSA control and command data -/

theorem Fifo.empty_iff_cursors (f : Fifo) : f.empty = true ↔ f.rd = f.wr := f.empty_iff.trans f.count_eq_zero

/-- Settles O7: the read clears the latch by the queue's own test, which compares the cursors. -/
theorem dsctrlReadAcknowledgesReceive : Obligations.DsctrlReadAcknowledgesReceive := by
  intro s
  rw [show exec .r16DsctrlLo s = dsctrlLoRead s from exec_readInstr .dsctrl .lo s, dsctrlLoRead]
  refine ⟨fun heq => ?_, fun hne => ?_⟩
  · rw [if_pos (s.fifo.empty_iff_cursors.2 heq)]
    rfl
  · rw [if_neg (mt s.fifo.empty_iff_cursors.1 hne)]
    rfl

/-- A kind found for an opcode has that opcode (R104). -/
theorem opc_of_dsaKind {c : Config} {opc : Byte} {k : DsaKind} (h : c.dsaKind opc = some k) : c.opc k = opc := by
  simpa using List.find?_some h

theorem dispatchAction_of_kind {w : Half} {s : State} {k : DsaKind} (h : s.cfg.dsaKind (dsaOpc w) = some k) :
    dispatchAction w s = dsaAction (dsaOpc w) (dsaParam w) k s := by
  rw [dispatchAction, h]

theorem dispatchAction_of_none {w : Half} {s : State} (h : s.cfg.dsaKind (dsaOpc w) = none) :
    dispatchAction w s = actUnrecognized s := by
  rw [dispatchAction, h]

theorem exec_dsaZeroWord (s : State) : exec .dsaZeroWord s = dsaCommand 0 actUnrecognized s := rfl

theorem exec_dsaUnrecognized (opc p : Byte) (s : State) :
    exec (.dsaUnrecognized opc p) s = dsaCommand (dsaWord opc p) actUnrecognized s := rfl

/-- Settles O9, by the cases of the decoder: the zero word, which both rows only store; a word with the opcode of a kind; a word
with the opcode of none. -/
theorem commandDataWriteIsItsCommand : Obligations.CommandDataWriteIsItsCommand := by
  intro s w
  rw [exec_w16DsdataLo, decodeDsa]
  split
  · next hzero => rw [exec_dsaZeroWord, dsaCommand_stop (.inr hzero), dsaCommand_stop (.inr rfl), hzero]
  · cases hkind : s.cfg.dsaKind (dsaOpc w) with
    | some k =>
      rw [exec_dsaInstr, opc_of_dsaKind hkind, Laws.dsaWord_opc_param]
      exact dsaCommand_congr (dispatchAction_of_kind hkind)
    | none =>
      rw [exec_dsaUnrecognized, Laws.dsaWord_opc_param]
      exact dsaCommand_congr (dispatchAction_of_none hkind)

/-! ## I2S control -/

theorem periodOf_eq (r : Rate) : periodOf r = 1000000 / (r.hz : Rat) := by
  cases r <;> simp [periodOf, Rate.hz]

theorem armPump_unarmed {s : State} (hidle : s.pump.armed = false) : armPump s = .next (schedule s) := if_neg (by simp [hidle])

theorem armPump_idempotent {s : State} (harmed : s.pump.armed = true) (hp : s.cfg.pumpRearmWhileArmed = .idempotent) :
    armPump s = .next s := by
  simp only [armPump, harmed, hp, if_true]

theorem armPump_refuse {s : State} (harmed : s.pump.armed = true) (hp : s.cfg.pumpRearmWhileArmed = .refuse) :
    armPump s = .refused .doubleArm := by
  simp only [armPump, harmed, hp, if_true]

/-- `ArmPump` that completes schedules a tick or does nothing (R233). -/
theorem armPump_next {s t : State} (ht : armPump s = .next t) : t = s ∨ t = schedule s := by
  cases harmed : s.pump.armed with
  | false =>
    rw [armPump_unarmed harmed] at ht
    cases ht
    exact .inr rfl
  | true =>
    cases hp : s.cfg.pumpRearmWhileArmed with
    | idempotent =>
      rw [armPump_idempotent harmed hp] at ht
      cases ht
      exact .inl rfl
    | refuse =>
      rw [armPump_refuse harmed hp] at ht
      cases ht

section I2sControl

variable {h : RegHalf} {v : Half} {s : State}

theorem i2cntrlWrite_disabled (hoff : i2sEnabled (storeHalf .i2cntrl h v s) = false) :
    i2cntrlWrite h v s = .next (storeHalf .i2cntrl h v s) := if_neg (by simp [hoff])

theorem i2cntrlWrite_enabled (hon : i2sEnabled (storeHalf .i2cntrl h v s) = true) :
    i2cntrlWrite h v s = armPump (storeHalf .i2cntrl h v s) := if_pos hon

/-- A write of either half that completes stores it, and may schedule a tick (R203). -/
theorem i2cntrlWrite_next {t : State} (ht : i2cntrlWrite h v s = .next t) :
    t = storeHalf .i2cntrl h v s ∨ t = schedule (storeHalf .i2cntrl h v s) := by
  cases hon : i2sEnabled (storeHalf .i2cntrl h v s) with
  | false =>
    rw [i2cntrlWrite_disabled hon] at ht
    cases ht
    exact .inl rfl
  | true => exact armPump_next ((i2cntrlWrite_enabled hon).symm.trans ht)

end I2sControl

/-- Settles O10: either row is `i2cntrlWrite`, the stored state is what the enable bits are read from, and the rest is
`armPump`. -/
theorem i2sControlWriteArmsThePump : Obligations.I2sControlWriteArmsThePump := by
  intro s s1 v i hrow x enabled
  have hwrite : ∃ h, exec i s = i2cntrlWrite h v s ∧ s1 = storeHalf .i2cntrl h v s := by
    rcases hrow with ⟨rfl, rfl⟩ | ⟨rfl, rfl⟩
    · exact ⟨.hi, rfl, rfl⟩
    · exact ⟨.lo, rfl, rfl⟩
  obtain ⟨h, hexec, rfl⟩ := hwrite
  rw [hexec]
  refine ⟨i2cntrlWrite_disabled, fun hon hidle => ?_, fun hon harmed hp => ?_, fun hon harmed hp => ?_⟩
  · refine ((i2cntrlWrite_enabled hon).trans (armPump_unarmed hidle)).trans ?_
    rw [schedule, periodOf_eq]
    rfl
  · exact (i2cntrlWrite_enabled hon).trans (armPump_idempotent harmed hp)
  · exact (i2cntrlWrite_enabled hon).trans (armPump_refuse harmed hp)

/-! ## The halves of `eebus` -/

section Eebus

variable {h : RegHalf} {s : State}

theorem eebusRead_line (hline : s.cfg.unitBusHalf = h) : eebusRead h s = lineRead s := if_pos hline

theorem eebusRead_plain (hplain : s.cfg.unitBusHalf ≠ h) : eebusRead h s = plainRead .eebus h s := if_neg hplain

theorem eebusWrite_line (v : Half) (hline : s.cfg.unitBusHalf = h) : eebusWrite h v s = .next (lineWrite v s) :=
  if_pos hline

theorem eebusWrite_plain (v : Half) (hplain : s.cfg.unitBusHalf ≠ h) : eebusWrite h v s = plainWrite .eebus h v s :=
  if_neg hplain

end Eebus

/-- Settles O11: by the half the parameter names; the four line rows are the one `lineWrite`. -/
theorem eebusHalvesAreLinesAndStorage : Obligations.EebusHalvesAreLinesAndStorage := by
  refine fun s v => ⟨fun hlo => ?_, fun hhi => ?_, rfl, rfl, rfl, lineWrite v s, rfl⟩
  · exact ⟨eebusRead_plain (h := .hi) (by simp [hlo]), eebusWrite_plain (h := .hi) v (by simp [hlo]), eebusWrite_line v hlo⟩
  · exact ⟨eebusRead_plain (h := .lo) (by simp [hhi]), eebusWrite_plain (h := .lo) v (by simp [hhi]), eebusWrite_line v hhi⟩

/-- Settles O12: the three rows are `lineRead`. -/
theorem lineReadShowsAccumulatorBit16 : Obligations.LineReadShowsAccumulatorBit16 :=
  fun _ => ⟨rfl, eebusRead_line (h := .lo), eebusRead_line (h := .hi)⟩

end Sys2Proof.Machine
end

section
/-! The frame of the register writes (O15): what a write of a half other than `dsdata.lo` and those of `eebus` may touch. -/

namespace Sys2Proof.Machine

/-- What a write of half `h` of register `r` may touch: the half; the overlay and the trace, if it is of `ctrl` (R195); the
timer, if it is of `i2cntrl` (R203). -/
def WriteOnly (r : RegName) (h : RegHalf) (s t : State) : Prop :=
  ∃ v overlay events armed period,
    t = { storeHalf r h v s with
      overlayDisabled := overlay
      events := events
      pump := { s.pump with armed := armed, periodUs := period } } ∧
    (r ≠ .ctrl → overlay = s.overlayDisabled ∧ events = s.events) ∧
    (r ≠ .i2cntrl → armed = s.pump.armed ∧ period = s.pump.periodUs)

theorem storeHalf_writeOnly (r : RegName) (h : RegHalf) (v : Half) (s : State) : WriteOnly r h s (storeHalf r h v s) :=
  ⟨v, _, _, _, _, rfl, fun _ => ⟨rfl, rfl⟩, fun _ => ⟨rfl, rfl⟩⟩

theorem overlayHook_writeOnly (h : RegHalf) (v : Half) (s : State) :
    WriteOnly .ctrl h s (overlayHook (storeHalf .ctrl h v s)) := by
  rcases overlayHook_cases (storeHalf .ctrl h v s) with hsame | hoff
  · rw [hsame]
    exact storeHalf_writeOnly .ctrl h v s
  · rw [hoff]
    exact ⟨v, true, _, _, _, rfl, fun hne => absurd rfl hne, fun _ => ⟨rfl, rfl⟩⟩

theorem i2cntrlWrite_writeOnly {h : RegHalf} {v : Half} {s t : State} (ht : i2cntrlWrite h v s = .next t) :
    WriteOnly .i2cntrl h s t := by
  rcases i2cntrlWrite_next ht with rfl | rfl
  · exact storeHalf_writeOnly .i2cntrl h v s
  · exact ⟨v, _, _, true, _, rfl, fun _ => ⟨rfl, rfl⟩, fun hne => absurd rfl hne⟩

/-- Every half but `dsdata.lo`, whose write is a command (R200), and those of `eebus`, one of which is the lines (R207). -/
def storedOnly (p : RegName × RegHalf) : Bool := p != (.dsdata, .lo) && p.1 != .eebus

theorem writeHalf_writeOnly {r : RegName} {h : RegHalf} {v : Half} {s t : State} (hp : storedOnly (r, h) = true)
    (ht : writeHalf v s r h = .next t) : WriteOnly r h s t := by
  unfold writeHalf at ht
  split at ht
  · cases ht
    exact overlayHook_writeOnly _ v s
  · cases hp
  · exact i2cntrlWrite_writeOnly ht
  · cases hp
  · cases ht
    exact storeHalf_writeOnly _ _ v s

theorem exec_writeOnly {v : Half} {i : Instr} {r : RegName} {h : RegHalf} {s t : State}
    (hi : (i, r, h) ∈ (windowHalves.filter storedOnly).map fun p => (writeInstr v p.1 p.2, p)) (ht : exec i s = .next t) :
    WriteOnly r h s t := by
  obtain ⟨⟨r', h'⟩, hmem, hrow⟩ := List.mem_map.mp hi
  obtain ⟨-, hp⟩ := List.mem_filter.mp hmem
  cases hrow
  exact writeHalf_writeOnly hp ((exec_writeInstr v r h s).symm.trans ht)

/-- Settles O15: a dropped write touches nothing, any other what `WriteOnly` says, hence none of the components named. -/
theorem registerWritesLeaveEverythingElse : Obligations.RegisterWritesLeaveEverythingElse := by
  intro v off i r h s t hi ht
  by_cases hdrop : i = .w16Unrecognized off v
  · subst hdrop
    cases (exec_w16Unrecognized off v s).symm.trans ht
    exact ⟨fun _ _ _ => rfl, rfl, rfl, fun _ => ⟨rfl, rfl⟩, fun _ => ⟨rfl, rfl⟩, rfl, rfl, rfl, rfl, rfl, rfl, rfl, rfl, rfl, rfl,
      rfl, rfl, rfl, rfl, rfl, rfl, fun _ _ => rfl⟩
  · obtain ⟨w, overlay, events, armed, period, rfl, hctrl, htimer⟩ := exec_writeOnly (v := v) (hi.resolve_right hdrop) ht
    exact ⟨fun _ _ hne => Regs.half_setHalf_ne s.regs w (hne.resolve_right hdrop), rfl, rfl,
      fun hr => hctrl (hr.resolve_right hdrop), fun hr => htimer (hr.resolve_right hdrop), rfl, rfl, rfl, rfl, rfl, rfl, rfl, rfl,
      rfl, rfl, rfl, rfl, rfl, rfl, rfl, rfl, State.byteAt_of_eq rfl rfl rfl⟩

end Sys2Proof.Machine
end

section
/-! The timer and the audio pump: a tick on a readable and on an unreadable sector (O31, O32), what it leaves (O34), a cleared
enable bit (O33). -/

namespace Sys2Proof.Machine

/-! ## The reload -/

/-- The buffer loaded with `buf`, usable if `valid`, after `n` draws: what a reload comes to (R236). -/
def loaded (s : State) (buf : Memory) (valid : Bool) (n : Nat) : State :=
  { s with pump := { s.pump with buf := buf, bufValid := valid, dirty := false }, draws := n }

theorem reload_loaded (s : State) :
    reload s = loaded s (reload s).pump.buf (reload s).pump.bufValid (reload s).draws := reload_keeps s

theorem reload_clean {s : State} (hclean : s.pump.dirty = false) : reload s = s := if_neg (by simp [hclean])

theorem reload_clean_loaded {s : State} (hclean : s.pump.dirty = false) :
    reload s = loaded s s.pump.buf s.pump.bufValid s.draws := by
  have hkept := reload_loaded s
  rwa [reload_clean hclean] at hkept ⊢

theorem reload_readable {s : State} {bytes : List Byte} (hdirty : s.pump.dirty = true)
    (hread : s.disc.sectors.lookup s.pump.sector = some bytes) :
    reload s = loaded s (Memory.fill .sector bytes) true s.draws := by
  simp [reload, readSector, hdirty, hread, loaded]

theorem reload_unreadable {s : State} (hdirty : s.pump.dirty = true)
    (hread : s.disc.sectors.lookup s.pump.sector = none) :
    reload s = loaded s (Memory.fill .sector (Config.failedReadBytes s.draws)) false (s.draws + 1) := by
  simp [reload, readSector, hdirty, hread, loaded]

/-! ## A tick at a pair -/

/-- The end of a tick: armed anew, at the period of the rate, exactly while enabled (R234, R235). -/
theorem rearm_eq (s : State) :
    rearm s = { s with pump := { s.pump with
      armed := i2sEnabled s || s.pump.armed
      periodUs := if i2sEnabled s then 1000000 / (s.pump.rate.hz : Rat) else s.pump.periodUs } } := by
  cases hon : i2sEnabled s with
  | false => simp [rearm, hon]
  | true => simp [rearm, hon, schedule, periodOf_eq]

theorem wsFalling_iff (s : State) : wsFalling s = true ↔ s.modeReg.getLsbD s.cfg.wsFallingBit.val = s.cfg.wsFallingValue :=
  beq_iff_eq

/-- The state after a tick at a pair (R240) that took its two words `l` and `r` from a buffer loaded as in `loaded`. -/
def ticked (s : State) (buf : Memory) (valid : Bool) (n : Nat) (l r : Half) : State :=
  { s with
    events := s.events ++ [.audioReady]
    draws := n
    pump := { s.pump with
      armed := i2sEnabled s
      periodUs := if i2sEnabled s then 1000000 / (s.pump.rate.hz : Rat) else s.pump.periodUs
      sector := if s.pump.cursor = 2348 then s.pump.sector + 1 else s.pump.sector
      cursor := if s.pump.cursor = 2348 then 0 else s.pump.cursor + 4
      dirty := decide (s.pump.cursor = 2348)
      buf := buf
      bufValid := valid
      prevRight := r
      outLeft := l
      outRight := if s.modeReg.getLsbD s.cfg.wsFallingBit.val = s.cfg.wsFallingValue then s.pump.prevRight else r } }

/-- A tick of an armed pump at a pair is what its reload makes of it. -/
theorem exec_pumpTick {s : State} {buf : Memory} {valid : Bool} {n : Nat} (harmed : s.pump.armed = true)
    (hpair : CursorInv s.pump) (hload : reload s = loaded s buf valid n) :
    exec .pumpTick s = .next (ticked s buf valid n (wordAt (loaded s buf valid n) 0) (wordAt (loaded s buf valid n) 2)) := by
  have htick := tick_eq s harmed hpair
  rw [hload, rearm_eq] at htick
  simp only [emit_pump, exposePair, afterPair, wsFalling_iff, Bool.or_false] at htick
  exact htick

/-- Whatever its reload makes of the buffer, a tick at a pair emits its event and re-arms as the enable bits say. -/
theorem exec_pumpTick_armed {s : State} (harmed : s.pump.armed = true) (hpair : CursorInv s.pump) :
    ∃ t, exec .pumpTick s = .next t ∧ t.pump.armed = i2sEnabled s ∧ t.events = s.events ++ [.audioReady] :=
  ⟨_, exec_pumpTick harmed hpair (reload_loaded s), rfl, rfl⟩

/-- Settles O31: the reload leaves `buf` valid, and the two words at the cursor are read from it. -/
theorem tickPlaysAReadableSector : Obligations.TickPlaysAReadableSector := by
  intro s buf harmed hpair hbuf byte l r x enabled
  have hload : reload s = loaded s buf true s.draws := by
    rcases hbuf with ⟨hclean, hvalid, rfl⟩ | ⟨hdirty, bytes, hread, rfl⟩
    · exact hvalid ▸ reload_clean_loaded hclean
    · exact reload_readable hdirty hread
  exact exec_pumpTick harmed hpair hload

/-- Settles O32: the reload leaves the buffer invalid, and its words are all ones. -/
theorem tickPlaysOnesForAnUnreadableSector : Obligations.TickPlaysOnesForAnUnreadableSector := by
  intro s harmed hpair hinvalid x enabled
  have hload : ∃ buf n, reload s = loaded s buf false n := by
    rcases hinvalid with ⟨hclean, hvalid⟩ | ⟨hdirty, hread⟩
    · exact ⟨_, _, hvalid ▸ reload_clean_loaded hclean⟩
    · exact ⟨_, _, reload_unreadable hdirty hread⟩
  obtain ⟨buf, n, hload⟩ := hload
  exact ⟨buf, n, exec_pumpTick harmed hpair hload⟩

/-! ## What a tick leaves -/

theorem reload_rate (s : State) : (reload s).pump.rate = s.pump.rate := by rw [reload_keeps s]

theorem advance_rate (p : Pump) : (advance p).rate = p.rate := by
  unfold advance; split <;> rfl

theorem rearm_rate (s : State) : (rearm s).pump.rate = s.pump.rate := by rw [rearm_eq]

theorem fetchWord_rate {s t : State} {w : Half} (h : fetchWord s = .ok (w, t)) : t.pump.rate = s.pump.rate := by
  unfold fetchWord at h
  split at h
  · cases h
    exact (advance_rate _).trans (reload_rate s)
  · cases h

/-- No tick changes the rate, wherever the cursor stands: neither fetch does (R236). -/
theorem tick_rate {s t : State} (h : tick s = .next t) : t.pump.rate = s.pump.rate := by
  unfold tick at h
  split at h
  · split at h
    · cases h
    · next l s1 hleft =>
      split at h
      · cases h
      · next r s2 hright =>
        cases h
        calc (rearm (emit .audioReady (exposePair l r s2))).pump.rate
          _ = s2.pump.rate := rearm_rate _
          _ = s1.pump.rate := fetchWord_rate hright
          _ = s.pump.rate := (fetchWord_rate hleft :)
  · cases h

/-- A tick at a pair whose sector is loaded already leaves the buffer. -/
theorem tick_buf_clean {s t : State} (hclean : s.pump.dirty = false) (hpair : CursorInv s.pump) (h : tick s = .next t) :
    t.pump.buf = s.pump.buf := by
  obtain ⟨_, _, _, harmed⟩ := tick_only h
  cases (exec_pumpTick harmed hpair (reload_clean_loaded hclean)).symm.trans h
  rfl

/-- Settles O34: a tick touches the pump, the draws and the trace, of the pump neither the rate nor a clean buffer. -/
theorem tickLeavesEverythingElse : Obligations.TickLeavesEverythingElse := by
  intro s t h
  have hrate : t.pump.rate = s.pump.rate := tick_rate h
  have hbytes : s.pump.dirty = false → CursorInv s.pump → ∀ a, t.byteAt .sector a = s.byteAt .sector a :=
    fun hclean hpair a => by simp only [State.byteAt, tick_buf_clean hclean hpair h]
  obtain ⟨draws, pump, rfl, -⟩ := tick_only h
  exact ⟨rfl, rfl, rfl, rfl, rfl, rfl, rfl, rfl, rfl, hrate, rfl, rfl, rfl, rfl, fun _ => rfl, fun _ => rfl, hbytes⟩

/-! ## A cleared enable bit -/

/-- An I2S-control write that completes with an enable bit 0 only stores its half (R203, R235). -/
theorem i2cntrlWrite_next_disabled {h : RegHalf} {v : Half} {s t : State} (ht : i2cntrlWrite h v s = .next t)
    (hoff : i2sEnabled t = false) : t = storeHalf .i2cntrl h v s := by
  have hbits : i2sEnabled t = i2sEnabled (storeHalf .i2cntrl h v s) := by
    rcases i2cntrlWrite_next ht with rfl | rfl <;> rfl
  cases (i2cntrlWrite_disabled (hbits.symm.trans hoff)).symm.trans ht
  rfl

/-- Settles O33: the write only stores its half, and the armed tick re-arms as the enable bits say. -/
theorem clearingAnEnableBitCancelsAfterOneTick : Obligations.ClearingAnEnableBitCancelsAfterOneTick := by
  intro s v
  refine ⟨fun t i hrow ht hoff => ?_, fun harmed hpair hoff => hoff ▸ exec_pumpTick_armed harmed hpair,
    fun harmed hpair hon => hon ▸ exec_pumpTick_armed harmed hpair⟩
  have hwrite : ∃ h, exec i s = i2cntrlWrite h v s := by
    rcases hrow with rfl | rfl
    · exact ⟨.hi, rfl⟩
    · exact ⟨.lo, rfl⟩
  obtain ⟨h, hexec⟩ := hwrite
  rw [i2cntrlWrite_next_disabled (hexec.symm.trans ht) hoff]
  rfl

end Sys2Proof.Machine
end

section
/-! The cartridge engine clock by clock (O35), and its chip-select and output line (O39). -/

namespace Sys2Proof.Machine

/-! ## Commits -/

theorem putCart_quiet (e : CartEngine) (s : State) : putCart (e, false) s = { s with cart := e } := rfl

/-- Operation `i` ends in the commit of `arr` by an engine that stands at `e`. -/
def CartCommits (i : Instr) (s : State) (arr : Vector Half 64) (persists : Bool) (e : CartEngine) : Prop :=
  exec i s = .next (putCart (cartCommit s.cfg arr persists e) s)

namespace CartCommits

variable {i : Instr} {s : State} {arr : Vector Half 64} {persists : Bool} {e : CartEngine}

/-- Without the latch neither the array nor the image changes (R270 to R273, D31). -/
theorem gated (h : CartCommits i s arr persists e) (hwen : e.wen = false) :
    exec i s = .next { s with cart := { e with state := if s.cfg.cartBusyWhenGated then .busy else .start } } := by
  rw [h, cartCommit, hwen]
  rfl

/-- An erase under the latch whose image is not persisted (D33). -/
theorem unpersisted (h : CartCommits i s arr persists e) (hwen : e.wen = true) (hpersists : persists = false) :
    exec i s = .next { s with cart := { e with arr := arr, state := .busy } } := by
  rw [h, cartCommit, hwen, hpersists]
  rfl

/-- Under the latch the array changes, and the image with it (R70, R276). -/
theorem persisted (h : CartCommits i s arr persists e) (hwen : e.wen = true) (hpersists : persists = true) :
    exec i s = .next { s with
      cart := { e with arr := arr, state := .busy }
      nvCart := some (Memory.fill .nvCart (imageBytes arr))
      events := s.events ++ [.persist .cart (Memory.fill .nvCart (imageBytes arr))] } := by
  rw [h, cartCommit, hwen, hpersists]
  rfl

end CartCommits

/-! ## The end of a field, by the opcode -/

section AfterField

variable {c : Config} {e : CartEngine} {arr : Vector Half 64}

theorem cartAfterAddr_ewds (hop : e.op = 0) (hsub : subOp e.addr = 0) :
    cartAfterAddr c e = ({ e with state := .start, wen := false }, false) := by
  simp [cartAfterAddr, hop, hsub]

theorem cartAfterAddr_ewen (hop : e.op = 0) (hsub : subOp e.addr = 3) :
    cartAfterAddr c e = ({ e with state := .start, wen := true }, false) := by
  simp [cartAfterAddr, hop, hsub]

theorem cartAfterAddr_read (hop : e.op = 2) :
    cartAfterAddr c e = ({ e with state := .readOut, dataCnt := 16 }, false) := by
  simp [cartAfterAddr, hop]

/-- WRITE and WRAL have a data phase (R270, R271). -/
theorem cartAfterAddr_write (h : e.op = 1 ∨ (e.op = 0 ∧ subOp e.addr = 1)) :
    cartAfterAddr c e = (cartEnterData e, false) := by
  rcases h with hop | ⟨hop, hsub⟩
  · simp [cartAfterAddr, hop]
  · simp [cartAfterAddr, hop, hsub]

/-- ERASE and ERAL commit at once (R272, R273). -/
theorem cartAfterAddr_erase
    (h : (e.op = 3 ∧ arr = e.arr.set e.addr.toNat 0xFFFF) ∨
      (e.op = 0 ∧ subOp e.addr = 2 ∧ arr = Vector.replicate 64 0xFFFF)) :
    cartAfterAddr c e = cartCommit c arr c.cartErasePersists e := by
  rcases h with ⟨hop, rfl⟩ | ⟨hop, hsub, rfl⟩
  · simp [cartAfterAddr, hop]
  · simp [cartAfterAddr, hop, hsub]

/-- WRITE and WRAL commit after their data (R270, R271). -/
theorem cartAfterData_write
    (h : (e.op = 1 ∧ arr = e.arr.set e.addr.toNat e.data) ∨ (e.op = 0 ∧ arr = Vector.replicate 64 e.data)) :
    cartAfterData c e = cartCommit c arr true e := by
  rcases h with ⟨hop, rfl⟩ | ⟨hop, rfl⟩
  · simp [cartAfterData, hop]
  · simp [cartAfterData, hop]

end AfterField

/-! ## The bits a clock brings -/

theorem ofBool_setWidth {n : Nat} (b : Bool) : (BitVec.ofBool b).setWidth n = if b then 1 else 0 := by
  cases b
  · exact BitVec.setWidth_zero n 1
  · exact BitVec.eq_of_toNat_eq (by simp)

/-- R263 writes a shifted-in bit as a number. -/
theorem shiftIn_eq {n : Nat} (v : BitVec n) (b : Bool) : shiftIn v b = (v <<< 1) ||| (if b then 1 else 0) := by
  rw [shiftIn, ofBool_setWidth]

theorem opBit1_eq (b : Bool) : opBit1 b = if b then 2 else 0 := by
  cases b <;> rfl

section OneClock

variable {s : State} (b : Bool)

theorem exec_cartClock : exec (.cartClock b) s = .next (clockCart b s) := rfl

theorem exec_cartUnexpectedClock : exec (.cartUnexpectedClock b) s = .next (clockCart b s) := rfl

/-- The second opcode bit: only READ reloads the data fields (R263). -/
theorem cartOpcodeDone_read {e : CartEngine} (h : (e.op ||| (if b then 1 else 0)) = 2) :
    cartOpcodeDone b e =
      { e with op := 2, addr := 0, addrCnt := 6, data := 0, dataCnt := 16, state := .addr } := by
  rw [cartOpcodeDone, ofBool_setWidth]
  simp only [h, if_true]

theorem cartOpcodeDone_of_ne {e : CartEngine} (h : (e.op ||| (if b then 1 else 0)) ≠ 2) :
    cartOpcodeDone b e =
      { e with op := e.op ||| (if b then 1 else 0), addr := 0, addrCnt := 6, state := .addr } := by
  rw [cartOpcodeDone, ofBool_setWidth]
  simp only [h, if_false]

/-- An address bit short of the last. -/
theorem clockCart_addr (hst : s.cart.state = .addr) (hone : s.cart.addrCnt ≠ 1) (hzero : s.cart.addrCnt ≠ 0) :
    clockCart b s = { s with cart := cartAddrBit b s.cart } :=
  clockCartBits_addr [b] s hst (by rw [List.length_singleton]; omega)

/-- A data bit short of the last. -/
theorem clockCart_data (hst : s.cart.state = .data) (hone : s.cart.dataCnt ≠ 1) (hzero : s.cart.dataCnt ≠ 0) :
    clockCart b s = { s with cart := cartDataBit b s.cart } :=
  clockCartBits_data [b] s hst (by rw [List.length_singleton]; omega)

theorem clockCart_stalled (hst : s.cart.state = .readOut ∨ s.cart.state = .busy) :
    clockCart b s = { s with cart := cartUnexpected s.cfg s.cart } := by
  rcases hst with hst | hst
  · simp [clockCart, cartNext, hst, putCart_quiet]
  · simp [clockCart, cartNext, hst, putCart_quiet]

end OneClock

/-- Settles O35: one equation of the clock for each state, and at the end of a field one of the opcode. -/
theorem cartClockAssemblesTheFrame : Obligations.CartClockAssemblesTheFrame := by
  intro s b
  refine ⟨fun hst => ?_, fun hst => ?_, fun hst hop => ?_, fun hst hop => ?_, fun hst hone hzero => ?_,
    fun hst hone hzero => ?_, fun hst hcnt => ?_, fun hst hcnt => ?_, fun hst => ?_⟩
  · rw [exec_cartClock, clockCart_start hst]
  · rw [exec_cartClock, clockCart_opA hst, opBit1_eq]
  · rw [exec_cartClock, clockCart_opB hst, cartOpcodeDone_of_ne b hop]
  · rw [exec_cartClock, clockCart_opB hst, cartOpcodeDone_read b hop]
  · rw [exec_cartClock, clockCart_addr b hst hone hzero, cartAddrBit, shiftIn_eq]
  · rw [exec_cartClock, clockCart_data b hst hone hzero, cartDataBit, shiftIn_eq]
  · intro ad sub e
    have hlast : exec (.cartClock b) s = .next (putCart (cartAfterAddr s.cfg e) s) := by
      rw [exec_cartClock, clockCart_lastAddr hst hcnt, shiftIn_eq]
    refine ⟨fun hop hsub => ?_, fun hop hsub => ?_, fun hdata => ?_, fun hop => ?_, fun arr herase => ?_⟩
    · rw [hlast, cartAfterAddr_ewds (e := e) hop hsub, putCart_quiet]
    · rw [hlast, cartAfterAddr_ewen (e := e) hop hsub, putCart_quiet]
    · rw [hlast, cartAfterAddr_write (e := e) hdata, putCart_quiet, cartEnterData]
    · rw [hlast, cartAfterAddr_read (e := e) hop, putCart_quiet]
    · have hcommit : CartCommits (.cartClock b) s arr s.cfg.cartErasePersists e := by
        rw [CartCommits, hlast, cartAfterAddr_erase (e := e) herase]
      exact ⟨hcommit.gated, hcommit.unpersisted, hcommit.persisted⟩
  · intro d e arr hwrite
    have hcommit : CartCommits (.cartClock b) s arr true e := by
      rw [CartCommits, exec_cartClock, clockCart_lastData hst hcnt, shiftIn_eq, ← cartAfterData_write (e := e) hwrite]
    exact ⟨hcommit.gated, fun hwen => hcommit.persisted hwen rfl⟩
  · rw [exec_cartUnexpectedClock, clockCart_stalled b hst, cartUnexpected]
    cases s.cfg.cartUnexpectedNext with
    | start => rfl
    | opA => rfl

/-! ## Chip-select and output line -/

section Port

variable {s : State}

theorem exec_cartChipselect (s : State) : exec .cartChipselect s = .next { s with cart := cartSelect s.cart } := rfl

/-- A query answers the bit of the engine's query (R111). -/
theorem exec_cartReaddo_of {b : Bool} {e : CartEngine} (h : cartQuery s.cart = (b, e)) :
    exec .cartReaddo s = .next { s with result := if b = true then 1 else 0, cart := e } := by
  have hrow : exec .cartReaddo s =
      returns ((BitVec.ofBool (cartQuery s.cart).1).setWidth 16) { s with cart := (cartQuery s.cart).2 } := rfl
  rw [hrow, h, ofBool_setWidth]
  rfl

/-- Before and inside a frame the line shows 1 (D30). -/
theorem exec_cartReaddo_idle
    (h : s.cart.state = .start ∨ s.cart.state = .opA ∨ s.cart.state = .opB ∨ s.cart.state = .addr ∨
      s.cart.state = .data) :
    exec .cartReaddo s = .next { s with result := 1 } := by
  have hquery : cartQuery s.cart = (true, s.cart) := by
    rcases h with h | h | h | h | h <;> rw [cartQuery, h]
  exact exec_cartReaddo_of hquery

/-- A busy engine shows 0 once (R275). -/
theorem exec_cartReaddo_busy (h : s.cart.state = .busy) :
    exec .cartReaddo s = .next { s with result := 0, cart := { s.cart with state := .start } } := by
  have hquery : cartQuery s.cart = (false, { s.cart with state := .start }) := by rw [cartQuery, h]
  exact exec_cartReaddo_of hquery

/-- In `READ_OUT` the counter goes down first and names the bit (D35). -/
theorem exec_cartReaddo_readOut (h : s.cart.state = .readOut) :
    exec .cartReaddo s = .next { s with
      result := if (s.cart.arr[s.cart.addr.toNat]).getLsbD (s.cart.dataCnt - 1) = true then 1 else 0
      cart := { s.cart with
        dataCnt := s.cart.dataCnt - 1
        state := if s.cart.dataCnt - 1 = 0 then .start else .readOut } } := by
  have hquery : cartQuery s.cart = (cartStreamBit s.cart, { s.cart with
      dataCnt := s.cart.dataCnt - 1, state := if s.cart.dataCnt - 1 = 0 then .start else .readOut }) := by rw [cartQuery, h]
  exact exec_cartReaddo_of hquery

end Port

/-- Settles O39: the query by the state of the engine. -/
theorem cartSelectAndOutputLineByState : Obligations.CartSelectAndOutputLineByState :=
  fun s => ⟨exec_cartChipselect s, exec_cartReaddo_idle, exec_cartReaddo_busy, exec_cartReaddo_readOut⟩

end Sys2Proof.Machine
end

section
/-! The cartridge frames from `START` (O36, O37, O38), and a word read back bit by bit (O40, O41). -/

namespace Sys2Proof.Machine

/-! ## Frames -/

section Frames

variable {s : State} {arr : Vector Half 64} {wen : Bool} {op : BitVec 2} {a : BitVec 6} {d : Half} (start : Bool)

theorem cartHeadDone_of_ne (e : CartEngine) (hop : op ≠ 2) :
    cartHeadDone op a e = { e with state := .addr, op := op, addr := a, addrCnt := 0 } := by
  simp only [cartHeadDone, hop, if_false]

theorem cartHeadDone_read (e : CartEngine) :
    cartHeadDone 2 a e = { e with state := .addr, op := 2, addr := a, addrCnt := 0, data := 0, dataCnt := 16 } := rfl

/-- A frame of WRITE or of WRAL is the commit of its data (R270, R271). -/
theorem cartDataFrame_commits {i : Instr} (hrow : exec i s = .next (cartDataFrame start op a d s))
    (hst : s.cart.state = .start) (hwen : s.cart.wen = wen)
    (h : (op = 1 ∧ arr = s.cart.arr.set a.toNat d) ∨ (op = 0 ∧ subOp a = 1 ∧ arr = Vector.replicate 64 d)) :
    CartCommits i s arr true ⟨s.cart.arr, .data, op, a, 0, d, 0, wen⟩ := by
  subst hwen
  have hdata : op = 1 ∨ (op = 0 ∧ subOp a = 1) := h.imp (fun ⟨hop, _⟩ => hop) fun ⟨hop, hsub, _⟩ => ⟨hop, hsub⟩
  have hword : (op = 1 ∧ arr = s.cart.arr.set a.toNat d) ∨ (op = 0 ∧ arr = Vector.replicate 64 d) :=
    h.imp_right fun ⟨hop, _, harr⟩ => ⟨hop, harr⟩
  rw [CartCommits, hrow, cartDataFrame_of_start start op a d s hst (cartAfterAddr_write hdata)]
  rw [← cartAfterData_write (e := ⟨s.cart.arr, .data, op, a, 0, d, 0, s.cart.wen⟩) hword]
  rfl

/-- A frame of ERASE or of ERAL is a commit of ones (R272, R273). -/
theorem cartFrame_commits {i : Instr} (hrow : exec i s = .next (cartFrame start op a s))
    (hst : s.cart.state = .start) (hwen : s.cart.wen = wen)
    (h : (op = 3 ∧ arr = s.cart.arr.set a.toNat 0xFFFF) ∨
      (op = 0 ∧ subOp a = 2 ∧ arr = Vector.replicate 64 0xFFFF)) :
    CartCommits i s arr s.cfg.cartErasePersists
      ⟨s.cart.arr, .addr, op, a, 0, s.cart.data, s.cart.dataCnt, wen⟩ := by
  subst hwen
  have hop : op ≠ 2 := by
    rcases h with ⟨rfl, -⟩ | ⟨rfl, -⟩ <;> decide
  rw [CartCommits, hrow, cartFrame_of_start start op a s hst, cartHeadDone_of_ne s.cart hop]
  rw [cartAfterAddr_erase h]

/-- EWDS (R266). -/
theorem exec_cartEwds (x : BitVec 4) (hst : s.cart.state = .start) :
    exec (.cartEwds start x) s = .next { s with
      cart := { s.cart with state := .start, op := 0, addr := 0#2 ++ x, addrCnt := 0, wen := false } } := by
  have hframe : exec (.cartEwds start x) s = .next (cartFrame start 0 (0#2 ++ x) s) := rfl
  have hsub : subOp (0#2 ++ x) = 0 := subOp_append 0 x
  have hafter := cartAfterAddr_ewds (c := s.cfg)
    (e := { s.cart with state := .addr, op := 0, addr := 0#2 ++ x, addrCnt := 0 }) rfl hsub
  rw [hframe, cartFrame_of_start start 0 _ s hst, cartHeadDone_of_ne s.cart (by decide), hafter, putCart_quiet]

/-- EWEN (R267). -/
theorem exec_cartEwen (x : BitVec 4) (hst : s.cart.state = .start) :
    exec (.cartEwen start x) s = .next { s with
      cart := { s.cart with state := .start, op := 0, addr := 3#2 ++ x, addrCnt := 0, wen := true } } := by
  have hframe : exec (.cartEwen start x) s = .next (cartFrame start 0 (3#2 ++ x) s) := rfl
  have hsub : subOp (3#2 ++ x) = 3 := subOp_append 3 x
  have hafter := cartAfterAddr_ewen (c := s.cfg)
    (e := { s.cart with state := .addr, op := 0, addr := 3#2 ++ x, addrCnt := 0 }) rfl hsub
  rw [hframe, cartFrame_of_start start 0 _ s hst, cartHeadDone_of_ne s.cart (by decide), hafter, putCart_quiet]

/-- READ (R274). -/
theorem exec_cartRead (hst : s.cart.state = .start) :
    exec (.cartRead start a) s = .next { s with
      cart := ⟨s.cart.arr, .readOut, 2, a, 0, 0, 16, s.cart.wen⟩ } := by
  have hframe : exec (.cartRead start a) s = .next (cartFrame start 2 a s) := rfl
  rw [hframe, cartFrame_of_start start 2 a s hst, cartHeadDone_read, cartAfterAddr_read rfl, putCart_quiet]

end Frames

/-- Settles O36: the sixth address bit sets the latch by the sub-opcode. -/
theorem cartEwdsAndEwenSetTheLatch : Obligations.CartEwdsAndEwenSetTheLatch :=
  fun _ st x hst => ⟨exec_cartEwds st x hst, exec_cartEwen st x hst⟩

/-- Settles O37: both rows are commits that persist. -/
theorem cartWritesCommitUnderTheLatch : Obligations.CartWritesCommitUnderTheLatch := by
  intro s st a x d hst i op ad arr hrow
  have hcommit : ∀ wen, s.cart.wen = wen → CartCommits i s arr true ⟨s.cart.arr, .data, op, ad, 0, d, 0, wen⟩ := by
    intro wen hwen
    rcases hrow with ⟨rfl, rfl, rfl, harr⟩ | ⟨rfl, rfl, rfl, harr⟩
    · exact cartDataFrame_commits st rfl hst hwen (.inl ⟨rfl, harr⟩)
    · exact cartDataFrame_commits st rfl hst hwen (.inr ⟨rfl, subOp_append 1 x, harr⟩)
  exact ⟨fun hwen => (hcommit true hwen).persisted rfl rfl, fun hwen => (hcommit false hwen).gated rfl⟩

/-- Settles O38: both rows are commits whose persist is the parameter. -/
theorem cartErasesFillWithOnes : Obligations.CartErasesFillWithOnes := by
  intro s st a x hst i op ad arr hrow
  have hcommit : ∀ wen, s.cart.wen = wen → CartCommits i s arr s.cfg.cartErasePersists
      ⟨s.cart.arr, .addr, op, ad, 0, s.cart.data, s.cart.dataCnt, wen⟩ := by
    intro wen hwen
    rcases hrow with ⟨rfl, rfl, rfl, harr⟩ | ⟨rfl, rfl, rfl, harr⟩
    · exact cartFrame_commits st rfl hst hwen (.inl ⟨rfl, harr⟩)
    · exact cartFrame_commits st rfl hst hwen (.inr ⟨rfl, subOp_append 2 x, harr⟩)
  exact ⟨fun hwen => (hcommit true hwen).unpersisted rfl, fun hwen => (hcommit true hwen).persisted rfl,
    fun hwen => (hcommit false hwen).gated rfl⟩

/-! ## Runs -/

theorem runResults_next {i : Instr} {is : List Instr} {s t u : State} {rs : List Half} (h : exec i s = .next t)
    (hrest : runResults is t = some (rs, u)) : runResults (i :: is) s = some (t.result :: rs, u) := by
  rw [runResults_cons is h, hrest]
  rfl

theorem runResults_singleton {i : Instr} {s t : State} (h : exec i s = .next t) :
    runResults [i] s = some ([t.result], t) := runResults_next h rfl

theorem runResults_append {is js : List Instr} {s t u : State} {rs qs : List Half}
    (hfirst : runResults is s = some (rs, t)) (hrest : runResults js t = some (qs, u)) :
    runResults (is ++ js) s = some (rs ++ qs, u) := by
  induction is generalizing s rs with
  | nil =>
    cases hfirst
    exact hrest
  | cons i is ih =>
    rw [runResults] at hfirst
    split at hfirst
    · next v hi =>
      obtain ⟨⟨ps, w⟩, hrun, hcons⟩ := Option.map_eq_some_iff.mp hfirst
      cases hcons
      exact runResults_next hi (ih hrun)
    · cases hfirst
    · cases hfirst

/-! ## A word on the output line -/

/-- The lowest `n` bits of a word as query results, the highest of them first (R275). -/
def streamed (w : Half) (n : Nat) : List Half :=
  (List.range n).map fun k => if w.getLsbD (n - 1 - k) = true then 1 else 0

theorem streamed_succ (w : Half) (n : Nat) :
    streamed w (n + 1) = (if w.getLsbD n = true then 1 else 0) :: streamed w n := by
  simp only [streamed, List.range_succ_eq_map, List.map_cons, List.map_map, Function.comp_def, Nat.succ_eq_add_one,
    Nat.add_sub_cancel, Nat.sub_zero, Nat.sub_sub, Nat.add_comm 1]

/-- As many queries as bits are left in `READ_OUT` return these bits and leave the engine in `START` (R275, D35). -/
theorem runResults_streamed {s : State} {n : Nat} (hst : s.cart.state = .readOut) (hcnt : s.cart.dataCnt = n + 1) :
    ∃ v, runResults (List.replicate (n + 1) .cartReaddo) s =
      some (streamed (s.cart.arr[s.cart.addr.toNat]) (n + 1),
        { s with result := v, cart := { s.cart with state := .start, dataCnt := 0 } }) := by
  induction n generalizing s with
  | zero =>
    have hquery := exec_cartReaddo_readOut hst
    rw [hcnt] at hquery
    exact ⟨_, runResults_singleton hquery⟩
  | succ n ih =>
    have hquery := exec_cartReaddo_readOut hst
    rw [hcnt, Nat.add_sub_cancel, if_neg (Nat.succ_ne_zero n)] at hquery
    obtain ⟨v, hrun⟩ := ih (s := { s with
      result := if (s.cart.arr[s.cart.addr.toNat]).getLsbD (n + 1) = true then 1 else 0
      cart := { s.cart with dataCnt := n + 1, state := .readOut } }) rfl rfl
    exact ⟨v, by rw [List.replicate_succ, streamed_succ]; exact runResults_next hquery hrun⟩

/-- Settles O40: the sixteen queries are `runResults_streamed`, and the one after them finds the engine in `START`. -/
theorem cartReadStreamsTheWord : Obligations.CartReadStreamsTheWord := by
  intro s st a hst
  obtain ⟨v, hrun⟩ := runResults_streamed (n := 15)
    (s := { s with cart := ⟨s.cart.arr, .readOut, 2, a, 0, 0, 16, s.cart.wen⟩ }) rfl rfl
  have hidle := exec_cartReaddo_idle
    (s := { s with result := v, cart := ⟨s.cart.arr, .start, 2, a, 0, 0, 0, s.cart.wen⟩ }) (.inl rfl)
  have hall := runResults_append hrun (runResults_singleton hidle)
  rw [← List.replicate_succ'] at hall
  exact ⟨exec_cartRead st hst, _, _, hall, rfl, rfl, rfl⟩

/-! ## Write, then read back -/

section ReadBack

variable {s : State} (st : Bool) (a : BitVec 6) (d : Half)

theorem exec_cartWrite_enabled (hst : s.cart.state = .start) (hwen : s.cart.wen = true) :
    ∃ t, exec (.cartWrite st a d) s = .next t ∧ t.cart.state = .busy ∧ t.cart.arr = s.cart.arr.set a.toNat d ∧
      t.nvCart = some (Memory.fill .nvCart (imageBytes (s.cart.arr.set a.toNat d))) :=
  ⟨_, (cartDataFrame_commits st rfl hst hwen (.inl ⟨rfl, rfl⟩)).persisted rfl rfl, rfl, rfl, rfl⟩

theorem exec_cartWrite_gated (hst : s.cart.state = .start) (hwen : s.cart.wen = false) :
    ∃ t, exec (.cartWrite st a d) s = .next t ∧ (t.cart.state = if s.cfg.cartBusyWhenGated then .busy else .start) ∧
      t.cart.arr = s.cart.arr ∧ t.nvCart = s.nvCart :=
  ⟨_, (cartDataFrame_commits st rfl hst hwen (.inl ⟨rfl, rfl⟩)).gated rfl, rfl, rfl, rfl⟩

/-- The query after a command shows whether it left the engine busy, and finds it or leaves it in `START` (D31). -/
theorem exec_cartReaddo_after {busy : Bool} (hst : s.cart.state = if busy then .busy else .start) :
    ∃ t, exec .cartReaddo s = .next t ∧ (t.result = if busy then 0 else 1) ∧ t.cart.state = .start ∧
      t.cart.arr = s.cart.arr ∧ t.nvCart = s.nvCart := by
  cases busy with
  | true => exact ⟨_, exec_cartReaddo_busy hst, rfl, rfl, rfl, rfl⟩
  | false => exact ⟨_, exec_cartReaddo_idle (.inl hst), rfl, hst, rfl, rfl⟩

/-- After a command, a query, a READ frame and sixteen queries: the addressed word comes back, array and image stay. -/
theorem runResults_readBack {busy : Bool} (hst : s.cart.state = if busy then .busy else .start) :
    ∃ t r, runResults (Instr.cartReaddo :: Instr.cartRead st a :: List.replicate 16 Instr.cartReaddo) s =
        some ((if busy then 0 else 1) :: r :: streamed (s.cart.arr[a.toNat]) 16, t) ∧
      t.cart.state = .start ∧ t.cart.arr = s.cart.arr ∧ t.nvCart = s.nvCart := by
  obtain ⟨u, hquery, hbusy, hstart, harr, himage⟩ := exec_cartReaddo_after hst
  obtain ⟨v, hrun⟩ := runResults_streamed (n := 15)
    (s := { u with cart := ⟨u.cart.arr, .readOut, 2, a, 0, 0, 16, u.cart.wen⟩ }) rfl rfl
  have hread := runResults_next hquery (runResults_next (exec_cartRead st hstart) hrun)
  simp only [hbusy, harr] at hread
  exact ⟨_, _, hread, rfl, rfl, himage⟩

end ReadBack

/-- The bytes of a persisted word (R86). -/
theorem byteAt_nvCart_of_image {s : State} {arr : Vector Half 64}
    (h : s.nvCart = some (Memory.fill .nvCart (imageBytes arr))) (i : Fin 64) :
    s.byteAt .nvCart (2 * i.val) = some ((arr[i.val]).extractLsb' 8 8) ∧
      s.byteAt .nvCart (2 * i.val + 1) = some ((arr[i.val]).extractLsb' 0 8) := by
  obtain ⟨hhigh, hlow⟩ := read_fill_imageBytes (sp := .nvCart) rfl arr i
  simp only [State.byteAt, h, Option.map_some, hhigh, hlow, and_self]

/-- Settles O41: the frames one after the other, and the word read back. -/
theorem cartWriteThenReadYieldsTheData : Obligations.CartWriteThenReadYieldsTheData := by
  intro s st a x d word
  have hselect := exec_cartChipselect s
  constructor
  · obtain ⟨u, hwrite, hbusy, harr, himage⟩ := exec_cartWrite_enabled st a d
      (s := { s with cart := cartSelect s.cart }) rfl rfl
    obtain ⟨t, r, hrun, hst, harr', himage'⟩ := runResults_readBack st a (busy := true) hbusy
    have hword : u.cart.arr[a.toNat] = d := by simp only [harr, Vector.getElem_set_self]
    rw [hword] at hrun
    have hbytes := byteAt_nvCart_of_image (himage'.trans himage) ⟨a.toNat, a.isLt⟩
    rw [Vector.getElem_set_self] at hbytes
    exact ⟨t, _, _, r, runResults_next hselect (runResults_next hwrite hrun), hst, by simp only [harr', hword], hbytes⟩
  · have hewds := exec_cartEwds (s := { s with cart := cartSelect s.cart }) st x rfl
    obtain ⟨u, hwrite, hbusy, harr, himage⟩ := exec_cartWrite_gated st a d (s := { s with
      cart := { cartSelect s.cart with state := .start, op := 0, addr := 0#2 ++ x, addrCnt := 0, wen := false } }) rfl rfl
    obtain ⟨t, r, hrun, hst, harr', himage'⟩ := runResults_readBack st a hbusy
    have hword : u.cart.arr[a.toNat] = s.cart.arr[a.toNat] := by simp only [harr, cartSelect]
    rw [hword] at hrun
    exact ⟨t, _, _, _, r, runResults_next hselect (runResults_next hewds (runResults_next hwrite hrun)), hst,
      harr'.trans harr, himage'.trans himage⟩

end Sys2Proof.Machine
end

section
/-! The frame of the cartridge rows (O42). -/

namespace Sys2Proof.Machine

/-- What cartridge row `i` may touch: the result, if it is a query; the engine; the image with the trace, unless it is a query
or a chip-select. -/
def CartRowOnly (i : Instr) (s t : State) : Prop :=
  ∃ v e n new, t = { s with result := v, cart := e, nvCart := n, events := s.events ++ new } ∧
    (i ≠ .cartReaddo → v = s.result) ∧ (new = [] → n = s.nvCart) ∧
    (i = .cartChipselect ∨ i = .cartReaddo → new = [])

/-- A row of clocks touches what clocks may touch. -/
theorem CartRowOnly.of_clocks {i : Instr} {s t u : State} (h : CartOnly s u)
    (hclocks : ¬ (i = .cartChipselect ∨ i = .cartReaddo)) (ht : (.next u : Res) = .next t) : CartRowOnly i s t := by
  cases ht
  obtain ⟨e, n, new, rfl, himage, -⟩ := h
  exact ⟨s.result, e, n, new, rfl, fun _ => rfl, himage, fun hport => absurd hport hclocks⟩

theorem cartFrame_only (start : Bool) (op : BitVec 2) (a : BitVec 6) (s : State) : CartOnly s (cartFrame start op a s) :=
  clockCartBits_only _ s

theorem cartDataFrame_only (start : Bool) (op : BitVec 2) (a : BitVec 6) (d : Half) (s : State) :
    CartOnly s (cartDataFrame start op a d s) :=
  (cartFrame_only start op a s).trans (clockCartBits_only _ _)

theorem exec_cartChipselect_only {s t : State} (h : exec .cartChipselect s = .next t) : CartRowOnly .cartChipselect s t := by
  cases h
  exact ⟨s.result, cartSelect s.cart, s.nvCart, [], by rw [List.append_nil], fun _ => rfl, fun _ => rfl, fun _ => rfl⟩

theorem exec_cartReaddo_only {s t : State} (h : exec .cartReaddo s = .next t) : CartRowOnly .cartReaddo s t := by
  cases h
  exact ⟨_, (cartQuery s.cart).2, s.nvCart, [], by rw [List.append_nil], fun hne => absurd rfl hne, fun _ => rfl,
    fun _ => rfl⟩

theorem State.byteAt_nvCart_of_eq {s t : State} (h : t.nvCart = s.nvCart) (k : Nat) :
    t.byteAt .nvCart k = s.byteAt .nvCart k := by
  rw [State.byteAt, State.byteAt, h]

/-- Settles O42: each row touches what `CartRowOnly` says, hence none of the components named. -/
theorem cartRowsLeaveEverythingElse : Obligations.CartRowsLeaveEverythingElse := by
  intro st b x a d i s t hi ht
  have honly : CartRowOnly i s t := by
    simp only [List.mem_cons, List.not_mem_nil, or_false] at hi
    rcases hi with rfl | rfl | rfl | rfl | rfl | rfl | rfl | rfl | rfl | rfl | rfl
    · exact .of_clocks (cartFrame_only st 0 _ s) (by simp) ht
    · exact .of_clocks (cartDataFrame_only st 0 _ d s) (by simp) ht
    · exact .of_clocks (cartFrame_only st 0 _ s) (by simp) ht
    · exact .of_clocks (cartFrame_only st 0 _ s) (by simp) ht
    · exact .of_clocks (cartDataFrame_only st 1 a d s) (by simp) ht
    · exact .of_clocks (cartFrame_only st 2 a s) (by simp) ht
    · exact .of_clocks (cartFrame_only st 3 a s) (by simp) ht
    · exact exec_cartChipselect_only ht
    · exact .of_clocks (clockCart_only b s) (by simp) ht
    · exact exec_cartReaddo_only ht
    · exact .of_clocks (clockCart_only b s) (by simp) ht
  obtain ⟨v, e, n, new, rfl, hresult, himage, hport⟩ := honly
  refine ⟨rfl, rfl, rfl, rfl, rfl, rfl, rfl, rfl, rfl, rfl, rfl, hresult, fun sp k hsp => ?_, fun hevents => ?_, fun hi => ?_⟩
  · cases sp with
    | nvCart => exact absurd rfl hsp
    | nvUnit => rfl
    | sector => rfl
  · exact State.byteAt_nvCart_of_eq (himage (List.append_right_eq_self.mp hevents))
  · exact ⟨by rw [hport hi, List.append_nil], State.byteAt_nvCart_of_eq (himage (hport hi))⟩

end Sys2Proof.Machine
end

section
/-! The CD-unit engine write by write (O43, O44): one equation for each phase, and one of `Decode` for each packet. -/

namespace Sys2Proof.Machine

/-! ## Commits -/

theorem putUnit_quiet (u : UnitEngine) (s : State) : putUnit (u, false) s = { s with unit := u } := rfl

/-- Operation `i` leaves `v` in the line half and ends in the commit of `arr` by an engine that stands at `u`. -/
def UnitCommits (i : Instr) (s : State) (v : Half) (arr : Vector Half 64) (persists : Bool) (u : UnitEngine) : Prop :=
  exec i s = .next (putUnit (unitCommit arr persists u) (storeHalf .eebus s.cfg.unitBusHalf v s))

namespace UnitCommits

variable {i : Instr} {s : State} {v : Half} {arr : Vector Half 64} {persists : Bool} {u : UnitEngine}

/-- Without the latch neither the array nor the image changes (R311, R312, R315, R316). -/
theorem gated (h : UnitCommits i s v arr persists u) (hwen : u.wen = false) :
    exec i s = .next { storeHalf .eebus s.cfg.unitBusHalf v s with unit := u } := by
  rw [h, unitCommit, hwen]
  rfl

/-- An erase under the latch whose image is not persisted (D40). -/
theorem unpersisted (h : UnitCommits i s v arr persists u) (hwen : u.wen = true) (hpersists : persists = false) :
    exec i s = .next { storeHalf .eebus s.cfg.unitBusHalf v s with unit := { u with arr := arr } } := by
  rw [h, unitCommit, hwen, hpersists]
  rfl

/-- Under the latch the array changes, and the image with it (R70, R317). -/
theorem persisted (h : UnitCommits i s v arr persists u) (hwen : u.wen = true) (hpersists : persists = true) :
    exec i s = .next { storeHalf .eebus s.cfg.unitBusHalf v s with
      unit := { u with arr := arr }
      nvUnit := some (Memory.fill .nvUnit (imageBytes arr))
      events := s.events ++ [.persist .unit (Memory.fill .nvUnit (imageBytes arr))] } := by
  rw [h, unitCommit, hwen, hpersists]
  rfl

end UnitCommits

/-! ## `Decode`, by the fields of the packet -/

/-- The sub-opcode stands above the ignored address bits (R109). -/
theorem subOp_address (cmd : BitVec 9) : subOp (cmd.extractLsb' 0 6) = cmd.extractLsb' 4 2 :=
  BitVec.extractLsb'_extractLsb'_of_le (by decide)

theorem unitDecode_malformed {c : Config} {u : UnitEngine} (hcheck : c.unitStartBitCheck = true)
    (hstart : u.cmd.getLsbD 8 = false) : unitDecode c u = ({ u with ready := false, dop := .none }, false) := by
  rw [unitDecode, hcheck, hstart]
  rfl

section Decode

variable {c : Config} {u : UnitEngine} {arr : Vector Half 64} {persists : Bool} {dop : UnitDop}
  (hstart : c.unitStartBitCheck = false ∨ u.cmd.getLsbD 8 = true)
include hstart

/-- The start bit is 1 or is not looked at (R308, D38). -/
theorem unitDecode_accepted : (c.unitStartBitCheck && !u.cmd.getLsbD 8) = false := by
  rcases hstart with h | h <;> rw [h]
  · rfl
  · exact Bool.and_false _

theorem unitDecode_ewds (hop : u.cmd.extractLsb' 6 2 = 0) (hsub : subOp (u.cmd.extractLsb' 0 6) = 0) :
    unitDecode c u = ({ u with wen := false }, false) := by
  simp only [unitDecode, unitDecode_accepted hstart, hop, hsub]
  rfl

theorem unitDecode_ewen (hop : u.cmd.extractLsb' 6 2 = 0) (hsub : subOp (u.cmd.extractLsb' 0 6) = 3) :
    unitDecode c u = ({ u with wen := true }, false) := by
  simp only [unitDecode, unitDecode_accepted hstart, hop, hsub]
  rfl

theorem unitDecode_read (hop : u.cmd.extractLsb' 6 2 = 2) :
    unitDecode c u = (unitBegin .read (u.cmd.extractLsb' 0 6)
      ((u.arr[(u.cmd.extractLsb' 0 6).toNat]).setWidth 32) u, false) := by
  simp only [unitDecode, unitDecode_accepted hstart, hop]
  rfl

/-- WRITE and WRAL have a data phase (R311, R312). -/
theorem unitDecode_write
    (h : (u.cmd.extractLsb' 6 2 = 1 ∧ dop = .write) ∨
      (u.cmd.extractLsb' 6 2 = 0 ∧ subOp (u.cmd.extractLsb' 0 6) = 1 ∧ dop = .wral)) :
    unitDecode c u = (unitBegin dop (u.cmd.extractLsb' 0 6) 0 u, false) := by
  rcases h with ⟨hop, rfl⟩ | ⟨hop, hsub, rfl⟩
  · simp only [unitDecode, unitDecode_accepted hstart, hop]
    rfl
  · simp only [unitDecode, unitDecode_accepted hstart, hop, hsub]
    rfl

/-- ERASE and ERAL commit at once (R315, R316). -/
theorem unitDecode_erase
    (h : (u.cmd.extractLsb' 6 2 = 3 ∧ arr = u.arr.set (u.cmd.extractLsb' 0 6).toNat 0xFFFF ∧
        persists = c.unitErasePersists) ∨
      (u.cmd.extractLsb' 6 2 = 0 ∧ subOp (u.cmd.extractLsb' 0 6) = 2 ∧ arr = Vector.replicate 64 0xFFFF ∧
        persists = true)) :
    unitDecode c u = unitCommit arr persists u := by
  rcases h with ⟨hop, rfl, rfl⟩ | ⟨hop, hsub, rfl, rfl⟩
  · simp only [unitDecode, unitDecode_accepted hstart, hop]
    rfl
  · simp only [unitDecode, unitDecode_accepted hstart, hop, hsub]
    rfl

end Decode

/-! ## The end of a data phase -/

/-- WRITE and WRAL commit the low half of the accumulator (R311, R312). -/
theorem unitDataDone_write {u : UnitEngine} {arr : Vector Half 64}
    (h : (u.dop = .write ∧ arr = u.arr.set u.addr.toNat (u.acc.setWidth 16)) ∨
      (u.dop = .wral ∧ arr = Vector.replicate 64 (u.acc.setWidth 16))) :
    unitDataDone u = unitCommit arr true { u with dop := .none } := by
  rcases h with ⟨hdop, rfl⟩ | ⟨hdop, rfl⟩ <;> rw [unitDataDone, hdop]

/-- A read only ends its phase (R313). -/
theorem unitDataDone_read {u : UnitEngine} (hdop : u.dop = .read) :
    unitDataDone u = ({ u with dop := .none }, false) := by
  rw [unitDataDone, hdop]

/-! ## A pulse, by the phase -/

section OnePulse

variable {c : Config} {b : Bool} {u : UnitEngine}

/-- A write is no pulse with the strobe down, or when the strobe was up and edges count (R304). -/
theorem pulse_eq_false {clk prev : Bool}
    (h : clk = false ∨ (c.unitClockEvent = .risingEdge ∧ prev = true)) : c.pulse clk prev = false := by
  rcases h with rfl | ⟨hedge, rfl⟩
  · exact pulse_low c prev
  · rw [Config.pulse, hedge]
    exact Bool.and_false clk

/-- A pulse in the idle phase is ignored (R306). -/
theorem unitPulse_idle (hcommand : ¬ (u.ready = true ∧ u.cmdCnt < 9))
    (hdata : u.dop = .none) : unitPulse c b u = (u, false) := by
  have hready : (u.ready && decide (u.cmdCnt < 9)) = false := by simpa using hcommand
  simp [unitPulse, hready, hdata]

/-- A command pulse short of the ninth (R307). -/
theorem unitPulse_command (hready : u.ready = true) (hcnt : u.cmdCnt < 8) :
    unitPulse c b u = (unitShiftCmd b u, false) := by
  have hlt : u.cmdCnt < 9 := by omega
  have hne : u.cmdCnt + 1 ≠ 9 := by omega
  simp [unitPulse, unitCommandBit, unitShiftCmd, hready, hlt, hne]

/-- A data pulse short of the sixteenth (R313). -/
theorem unitPulse_data (hready : u.ready = false) (hdop : u.dop ≠ .none)
    (hcnt : u.dataCnt ≠ 15) : unitPulse c b u = (unitShiftData b u, false) := by
  have hne : u.dataCnt + 1 ≠ 16 := by omega
  simp [unitPulse, unitDataBit, unitShiftData, hready, hdop, hne]

/-- The sixteenth data pulse (R313). -/
theorem unitPulse_lastData (hready : u.ready = false) (hdop : u.dop ≠ .none)
    (hcnt : u.dataCnt = 15) : unitPulse c b u = unitDataDone (unitShiftData b u) := by
  simp [unitPulse, unitDataBit, unitShiftData, hready, hdop, hcnt]

end OnePulse

/-! ## One write of the lines -/

section OneWrite

variable {s : State} {v : Half}

/-- The four line rows are one write (notes/assumptions/21.md). -/
theorem exec_unitLinesWrite (v : Half) (s : State) : exec (.unitLinesWrite v) s = .next (lineWrite v s) := rfl

theorem exec_unitCommandBit (v : Half) (s : State) : exec (.unitCommandBit v) s = .next (lineWrite v s) := rfl

theorem exec_unitDataBit (v : Half) (s : State) : exec (.unitDataBit v) s = .next (lineWrite v s) := rfl

theorem exec_unitChipselect (hcs : s.cfg.lineCs v = true) :
    exec (.unitChipselect v) s = .next { storeHalf .eebus s.cfg.unitBusHalf v s with
      unit := { unitSelect s.unit with prevClk := s.cfg.lineClk v } } := by
  have hrow : exec (.unitChipselect v) s = .next (lineWrite v s) := rfl
  rw [hrow, lineWrite, unitNext, hcs]
  rfl

/-- With chip-select at 0, a write that is no pulse, or one in the idle phase, only remembers the strobe (R302, R306). -/
theorem unitNext_quiet {c : Config} {clk b : Bool} {u : UnitEngine}
    (h : clk = false ∨ (c.unitClockEvent = .risingEdge ∧ u.prevClk = true) ∨
      (¬ (u.ready = true ∧ u.cmdCnt < 9) ∧ u.dop = .none)) :
    unitNext c false clk b u = ({ u with prevClk := clk }, false) := by
  by_cases hpulse : c.pulse clk u.prevClk = true
  · obtain ⟨hcommand, hdata⟩ := (or_assoc.mpr h).resolve_left fun hnone => by
      rw [pulse_eq_false hnone] at hpulse
      cases hpulse
    simp only [unitNext, hpulse, Bool.false_eq_true, if_false, if_true]
    exact unitPulse_idle hcommand hdata
  · simp only [unitNext, hpulse, Bool.false_eq_true, if_false]

theorem exec_unitLinesWrite_quiet (hcs : s.cfg.lineCs v = false)
    (h : s.cfg.lineClk v = false ∨ (s.cfg.unitClockEvent = .risingEdge ∧ s.unit.prevClk = true) ∨
      (¬ (s.unit.ready = true ∧ s.unit.cmdCnt < 9) ∧ s.unit.dop = .none)) :
    exec (.unitLinesWrite v) s = .next { storeHalf .eebus s.cfg.unitBusHalf v s with
      unit := { s.unit with prevClk := s.cfg.lineClk v } } := by
  rw [exec_unitLinesWrite, lineWrite, hcs, unitNext_quiet h, putUnit_quiet]

/-- A pulse is the engine's, with the strobe remembered (R302). -/
theorem lineWrite_pulse (hcs : s.cfg.lineCs v = false) (hclk : s.cfg.lineClk v = true)
    (hprev : s.cfg.unitClockEvent = .risingEdge → s.unit.prevClk = false) :
    lineWrite v s = putUnit (unitPulse s.cfg (s.cfg.lineDi v) { s.unit with prevClk := true })
      (storeHalf .eebus s.cfg.unitBusHalf v s) := by
  simp [lineWrite, unitNext, hcs, hclk, pulse_high hprev]

end OneWrite

/-- Settles O43: one equation of the write for each phase, and one of `Decode` for each packet the ninth pulse completes. -/
theorem unitLineWritesByPhase : Obligations.UnitLineWritesByPhase := by
  intro s v clk s1
  refine ⟨exec_unitChipselect, exec_unitLinesWrite_quiet, fun hcs hclk hprev hready hcnt => ?_,
    fun hcs hclk hprev hready hcnt => ?_⟩
  · have hpulse := unitPulse_command (c := s.cfg) (b := s.cfg.lineDi v) (u := { s.unit with prevClk := true }) hready hcnt
    rw [exec_unitCommandBit, lineWrite_pulse hcs hclk hprev, hpulse, putUnit_quiet, unitShiftCmd, shiftIn_eq]
    rfl
  · intro cmd op sub a u
    have hlast : exec (.unitCommandBit v) s = .next (putUnit (unitDecode s.cfg u) s1) := by
      rw [exec_unitCommandBit, lineWrite_lastCommand hcs hclk hprev hready hcnt, shiftIn_eq]
      rfl
    have hsubop : subOp (u.cmd.extractLsb' 0 6) = sub := subOp_address cmd
    refine ⟨fun hcheck hmalformed => ?_, fun hstart => ⟨fun hop hsub => ?_, fun hop hsub => ?_, fun hop hsub => ?_,
      fun hop => ?_, fun hop => ?_, fun arr persists herase => ?_⟩⟩
    · rw [hlast, unitDecode_malformed (u := u) hcheck hmalformed, putUnit_quiet]
    · rw [hlast, unitDecode_ewds (u := u) hstart hop (hsubop.trans hsub), putUnit_quiet]
    · rw [hlast, unitDecode_ewen (u := u) hstart hop (hsubop.trans hsub), putUnit_quiet]
    · rw [hlast, unitDecode_write (u := u) hstart (.inr ⟨hop, hsubop.trans hsub, rfl⟩), putUnit_quiet, unitBegin]
    · rw [hlast, unitDecode_write (u := u) hstart (.inl ⟨hop, rfl⟩), putUnit_quiet, unitBegin]
    · rw [hlast, unitDecode_read (u := u) hstart hop, putUnit_quiet, unitBegin]
    · have hcommit : UnitCommits (.unitCommandBit v) s v arr persists u := by
        rw [← hsubop] at herase
        rw [UnitCommits, hlast, unitDecode_erase (u := u) hstart herase]
        rfl
      exact ⟨hcommit.gated, hcommit.unpersisted, hcommit.persisted⟩

/-- Settles O44: the pulse is `unitShiftData`, and at the sixteenth the end of the phase, by its operation. -/
theorem unitDataBitShiftsAndCommits : Obligations.UnitDataBitShiftsAndCommits := by
  intro s v hcs hclk hprev hready hdop acc u s1 arr
  have hshift : unitShiftData (s.cfg.lineDi v) { s.unit with prevClk := true } = u := by
    rw [unitShiftData, shiftIn_eq]
    rfl
  have hpulse : ∀ n, unitPulse s.cfg (s.cfg.lineDi v) { s.unit with prevClk := true } = n →
      exec (.unitDataBit v) s = .next (putUnit n s1) := by
    rintro _ rfl
    rw [exec_unitDataBit, lineWrite_pulse hcs hclk hprev]
    rfl
  have hlast : s.unit.dataCnt = 15 → exec (.unitDataBit v) s = .next (putUnit (unitDataDone u) s1) := fun hcnt =>
    hpulse _ ((unitPulse_lastData (u := { s.unit with prevClk := true }) hready hdop hcnt).trans
      (congrArg unitDataDone hshift))
  have hword : s.unit.dop ≠ .read → (u.dop = .write ∧ arr = u.arr.set u.addr.toNat (u.acc.setWidth 16)) ∨
      (u.dop = .wral ∧ arr = Vector.replicate 64 (u.acc.setWidth 16)) := fun hwrite => by
    have hlow : u.acc.setWidth 16 = acc.extractLsb' 0 16 := BitVec.setWidth_eq_extractLsb' (by decide)
    rw [hlow]
    cases hop : s.unit.dop with
    | none => exact absurd hop hdop
    | write => exact .inl ⟨rfl, if_pos hop⟩
    | wral => exact .inr ⟨rfl, if_neg (by simp [hop])⟩
    | read => exact absurd hop hwrite
  have hcommit : s.unit.dataCnt = 15 → s.unit.dop ≠ .read →
      UnitCommits (.unitDataBit v) s v arr true { u with dop := .none } := fun hcnt hwrite => by
    rw [UnitCommits, hlast hcnt, unitDataDone_write (hword hwrite)]
    rfl
  refine ⟨fun hcnt => ?_, fun hcnt hquiet => ?_, fun hcnt hwrite hwen => (hcommit hcnt hwrite).persisted hwen rfl⟩
  · exact hpulse _ ((unitPulse_data (u := { s.unit with prevClk := true }) hready hdop hcnt).trans
      (congrArg (·, false) hshift))
  · by_cases hread : s.unit.dop = .read
    · rw [hlast hcnt, unitDataDone_read (u := u) hread, putUnit_quiet]
    · exact (hcommit hcnt hread).gated (hquiet.resolve_left hread)

end Sys2Proof.Machine
end

section
/-! The CD-unit packets to a selected engine (O45 to O48), and a word read back bit by bit (O49). -/

namespace Sys2Proof.Machine

/-! ## `Decode` of a packet, by its opcode -/

section PacketDecode

variable {c : Config} {start : Bool} {op : BitVec 2} {a : BitVec 6} {u : UnitEngine} {dop : UnitDop}
  {arr : Vector Half 64} {wen persists : Bool} (hstart : start = true ∨ c.unitStartBitCheck = false)
include hstart

/-- EWDS clears the latch and EWEN sets it (R309, R310). -/
theorem unitDecode_packetIn_latch (h : (subOp a = 0 ∧ wen = false) ∨ (subOp a = 3 ∧ wen = true)) :
    unitDecode c (unitPacketIn start 0 a u) = ({ unitPacketIn start 0 a u with wen := wen }, false) := by
  rcases h with ⟨hsub, rfl⟩ | ⟨hsub, rfl⟩ <;> rw [unitDecode_packetIn hstart, hsub] <;> rfl

/-- WRITE and WRAL begin a data phase (R311, R312). -/
theorem unitDecode_packetIn_write (h : (op = 1 ∧ dop = .write) ∨ (op = 0 ∧ subOp a = 1 ∧ dop = .wral)) :
    unitDecode c (unitPacketIn start op a u) = (unitBegin dop a 0 (unitPacketIn start op a u), false) := by
  rcases h with ⟨rfl, rfl⟩ | ⟨rfl, hsub, rfl⟩
  · exact unitDecode_packetIn hstart 1 a u
  · rw [unitDecode_packetIn hstart, hsub]
    rfl

/-- ERASE and ERAL commit ones (R315, R316). -/
theorem unitDecode_packetIn_erase
    (h : (op = 3 ∧ arr = u.arr.set a.toNat 0xFFFF ∧ persists = c.unitErasePersists) ∨
      (op = 0 ∧ subOp a = 2 ∧ arr = Vector.replicate 64 0xFFFF ∧ persists = true)) :
    unitDecode c (unitPacketIn start op a u) = unitCommit arr persists (unitPacketIn start op a u) := by
  rcases h with ⟨rfl, rfl, rfl⟩ | ⟨rfl, hsub, rfl, rfl⟩
  · exact unitDecode_packetIn hstart 3 a u
  · rw [unitDecode_packetIn hstart, hsub]
    rfl

end PacketDecode

/-! ## The data of a packet -/

/-- The data bits fill the low half of a cleared accumulator (R313, D39). -/
theorem foldl_shiftIn_word (d : Half) : (bitsMsb d).foldl shiftIn (0 : Word) = d.setWidth 32 := by
  apply BitVec.eq_of_getLsbD_eq
  intro j hj
  rw [foldl_shiftIn_wide d 0 j hj, BitVec.getLsbD_setWidth, decide_eq_true hj, Bool.true_and]
  split
  · rfl
  · rw [BitVec.getLsbD_of_ge d j (by omega)]
    exact BitVec.getLsbD_zero

/-- The sixteen pulses of the data of WRITE or of WRAL commit it (R311, R312). -/
theorem pulseBits_commits {d v : Half} {u : UnitEngine} {s : State} {arr : Vector Half 64} (hl : LinesApart s.cfg)
    (hready : u.ready = false) (hcnt : u.dataCnt = 0) (hacc : u.acc = 0)
    (hprev : s.cfg.unitClockEvent = .risingEdge → u.prevClk = false)
    (h : (u.dop = .write ∧ arr = u.arr.set u.addr.toNat d) ∨ (u.dop = .wral ∧ arr = Vector.replicate 64 d)) :
    pulseBits (bitsMsb d) (onLines v u s) =
      putUnit (unitCommit arr true { u with acc := d.setWidth 32, dataCnt := 16, prevClk := false, dop := .none })
        (onLines (linesValue s.cfg false false (d.getLsbD 0)) u s) := by
  have hdop : u.dop ≠ .none := by
    rcases h with ⟨hop, -⟩ | ⟨hop, -⟩ <;> simp [hop]
  have hlow : (d.setWidth 32).setWidth 16 = d := by simp
  rw [pulseBits_word d s hl v u hready hdop hcnt hprev, hacc, foldl_shiftIn_word]
  rw [unitDataDone_write (u := { u with acc := d.setWidth 32, dataCnt := 16, prevClk := false }) (by rwa [hlow])]

/-! ## Packets to a selected engine -/

section Packets

variable {i : Instr} {s : State} {start : Bool} {op : BitVec 2} {a : BitVec 6} {u : UnitEngine} {arr : Vector Half 64}
  {persists : Bool} (hok : configOk s.cfg = true) (hsel : s.unit.selected s.cfg)
include hok hsel

/-- The nine pulses of a packet are `Decode` on an engine without a data operation (R307). -/
theorem unitPacket_decoded :
    unitPacket start op a s =
      putUnit (unitDecode s.cfg (unitPacketIn start op a { s.unit with dop := .none }))
        (storeHalf .eebus s.cfg.unitBusHalf (linesValue s.cfg false false (a.getLsbD 0)) s) := by
  have ⟨_, _, hdop, _⟩ := hsel
  have hidle : ({ s.unit with dop := .none } : UnitEngine) = s.unit := by rw [← hdop]
  rw [hidle]
  exact unitPacket_of_selected start op a s (configOk_lines hok) hsel

/-- A packet that commits nothing leaves its last line value and the decoded engine. -/
theorem unitPacket_quiet
    (hdecode : unitDecode s.cfg (unitPacketIn start op a { s.unit with dop := .none }) = (u, false)) :
    unitPacket start op a s = onLines (linesValue s.cfg false false (a.getLsbD 0)) u s := by
  rw [unitPacket_decoded hok hsel, hdecode]
  rfl

/-- A packet of ERASE or of ERAL is a commit of ones (R315, R316). -/
theorem unitPacket_commits (hrow : exec i s = .next (unitPacket start op a s))
    (hstart : start = true ∨ s.cfg.unitStartBitCheck = false)
    (h : (op = 3 ∧ arr = s.unit.arr.set a.toNat 0xFFFF ∧ persists = s.cfg.unitErasePersists) ∨
      (op = 0 ∧ subOp a = 2 ∧ arr = Vector.replicate 64 0xFFFF ∧ persists = true)) :
    UnitCommits i s (linesValue s.cfg false false (a.getLsbD 0)) arr persists
      (unitPacketIn start op a { s.unit with dop := .none }) := by
  rw [UnitCommits, hrow, unitPacket_decoded hok hsel,
    unitDecode_packetIn_erase (u := { s.unit with dop := .none }) hstart h]

/-- A packet of WRITE or of WRAL with its data is the commit of that data (R311, R312). -/
theorem unitDataPacket_commits {d : Half} (hrow : exec i s = .next (unitDataPacket start op a d s))
    (hstart : start = true ∨ s.cfg.unitStartBitCheck = false)
    (h : (op = 1 ∧ arr = s.unit.arr.set a.toNat d) ∨ (op = 0 ∧ subOp a = 1 ∧ arr = Vector.replicate 64 d)) :
    UnitCommits i s (linesValue s.cfg false false (d.getLsbD 0)) arr true
      ⟨s.unit.arr, false, BitVec.ofBool start ++ op ++ a, 9, .none, a, d.setWidth 32, 16, s.unit.wen, false⟩ := by
  have hphase : ∃ dop, ((op = 1 ∧ dop = UnitDop.write) ∨ (op = 0 ∧ subOp a = 1 ∧ dop = UnitDop.wral)) ∧
      ((dop = UnitDop.write ∧ arr = s.unit.arr.set a.toNat d) ∨
        (dop = UnitDop.wral ∧ arr = Vector.replicate 64 d)) := by
    rcases h with ⟨hop, harr⟩ | ⟨hop, hsub, harr⟩
    · exact ⟨.write, .inl ⟨hop, rfl⟩, .inl ⟨rfl, harr⟩⟩
    · exact ⟨.wral, .inr ⟨hop, hsub, rfl⟩, .inr ⟨rfl, harr⟩⟩
  obtain ⟨dop, hbegin, hcommit⟩ := hphase
  have hpacket := unitPacket_quiet hok hsel (unitDecode_packetIn_write hstart hbegin)
  rw [UnitCommits, hrow, unitDataPacket, hpacket,
    pulseBits_commits (configOk_lines hok) rfl rfl rfl (fun _ => rfl) hcommit]
  rw [putUnit_onLines _ _ _ s.unit]
  rfl

end Packets

/-- The last bit of an address is the last of its ignored bits. -/
theorem getLsbD_zero_append (y : BitVec 2) (x : BitVec 4) : (y ++ x).getLsbD 0 = x.getLsbD 0 :=
  BitVec.getLsbD_append

/-- Settles O45: the ninth pulse sets the latch by the sub-opcode. -/
theorem unitEwdsAndEwenSetTheLatch : Obligations.UnitEwdsAndEwenSetTheLatch := by
  intro s st x hok hsel hstart
  have hlatch : ∀ (y : BitVec 2) (wen : Bool), (subOp (y ++ x) = 0 ∧ wen = false) ∨ (subOp (y ++ x) = 3 ∧ wen = true) →
      unitPacket st 0 (y ++ x) s = onLines (linesValue s.cfg false false (x.getLsbD 0))
        { unitPacketIn st 0 (y ++ x) { s.unit with dop := .none } with wen := wen } s := fun y wen h => by
    rw [unitPacket_quiet hok hsel (unitDecode_packetIn_latch hstart h), getLsbD_zero_append]
  exact ⟨congrArg Host.Outcome.next (hlatch 0 false (.inl ⟨subOp_append 0 x, rfl⟩)),
    congrArg Host.Outcome.next (hlatch 3 true (.inr ⟨subOp_append 3 x, rfl⟩))⟩

/-- Settles O46: both rows are commits that persist. -/
theorem unitWritesCommitUnderTheLatch : Obligations.UnitWritesCommitUnderTheLatch := by
  intro s st a x d hok hsel hstart i op ad arr hrow s1 u
  have hcommit : UnitCommits i s (linesValue s.cfg false false (d.getLsbD 0)) arr true u := by
    rcases hrow with ⟨rfl, rfl, rfl, harr⟩ | ⟨rfl, rfl, rfl, harr⟩
    · exact unitDataPacket_commits hok hsel rfl hstart (.inl ⟨rfl, harr⟩)
    · exact unitDataPacket_commits hok hsel rfl hstart (.inr ⟨rfl, subOp_append 1 x, harr⟩)
  exact ⟨fun hwen => hcommit.persisted hwen rfl, hcommit.gated⟩

/-- Settles O47: both rows are commits, the persist of ERASE being the parameter. -/
theorem unitErasesFillWithOnes : Obligations.UnitErasesFillWithOnes := by
  intro s st a x hok hsel hstart i op ad arr persists hrow s1 u
  have hcommit : UnitCommits i s (linesValue s.cfg false false (ad.getLsbD 0)) arr persists u := by
    rcases hrow with ⟨rfl, rfl, rfl, harr, hpersists⟩ | ⟨rfl, rfl, rfl, harr, hpersists⟩
    · exact unitPacket_commits hok hsel rfl hstart (.inl ⟨rfl, harr, hpersists⟩)
    · exact unitPacket_commits hok hsel rfl hstart (.inr ⟨rfl, subOp_append 2 x, harr, hpersists⟩)
  exact ⟨hcommit.persisted, hcommit.unpersisted, hcommit.gated⟩

/-- Settles O48: the check refuses the packet at the ninth pulse. -/
theorem unitMalformedPacketGoesIdle : Obligations.UnitMalformedPacketGoesIdle := by
  intro s op a hok hsel hcheck
  exact congrArg Host.Outcome.next
    (unitPacket_quiet hok hsel (unitDecode_malformed hcheck (packet_start false op a)))

/-! ## A word on the output line -/

/-- Line writes one after the other are the pulses of their bits. -/
theorem runAll_pulses (bits : List Bool) {s : State} {c : Config} (hc : s.cfg = c) :
    runAll (bits.flatMap fun b => [.unitDataBit (linesValue c false true b), .unitLinesWrite (linesValue c false false b)]) s =
      .next (pulseBits bits s) := by
  induction bits generalizing s with
  | nil => rfl
  | cons b bits ih =>
    subst hc
    exact ih (pulseBit_cfg b s)

/-- A bit of the accumulator comes from as many places below as bits were shifted in (R313). -/
theorem foldl_shiftIn_getLsbD_of_le {m : Nat} (bits : List Bool) (w : BitVec m) {j : Nat} (hj : j < m)
    (hle : bits.length ≤ j) : (bits.foldl shiftIn w).getLsbD j = w.getLsbD (j - bits.length) := by
  induction bits generalizing w with
  | nil => rfl
  | cons b bits ih =>
    rw [List.length_cons] at hle ⊢
    rw [List.foldl_cons, ih _ (by omega), shiftIn_getLsbD _ _ _ (by omega), if_neg (by omega), Nat.sub_sub]

/-- Bit 16 of the accumulator, with `k` bits shifted in after a preloaded word: 0 for none, then bit `16 - k` (R314, R318). -/
theorem getLsbD_preloaded_iff (word : Half) (bits : List Bool) (hlen : bits.length ≤ 16) :
    (bits.foldl shiftIn (word.setWidth 32 : Word)).getLsbD 16 = true ↔
      bits ≠ [] ∧ word.getLsbD (16 - bits.length) = true := by
  have hlow : 16 - bits.length < 32 := by omega
  rw [foldl_shiftIn_getLsbD_of_le bits _ (by decide) hlen, BitVec.getLsbD_setWidth, decide_eq_true hlow, Bool.true_and]
  refine ⟨fun hbit => ⟨?_, hbit⟩, fun ⟨_, hbit⟩ => hbit⟩
  rintro rfl
  exact absurd ((BitVec.getLsbD_of_ge word 16 (by decide)).symm.trans hbit) (by decide)

/-- The data pulses of a read shift the accumulator, and the sixteenth ends the phase (R313). -/
theorem pulseBits_read {bits : List Bool} {v : Half} {u : UnitEngine} {s : State} (hl : LinesApart s.cfg)
    (hready : u.ready = false) (hread : u.dop = .read) (hcnt : u.dataCnt = 0) (hlen : bits.length ≤ 16)
    (hprev : s.cfg.unitClockEvent = .risingEdge → u.prevClk = false) :
    ∃ w x, pulseBits bits (onLines v u s) = onLines w x s ∧ x.arr = u.arr ∧ x.acc = bits.foldl shiftIn u.acc ∧
      x.dop = if bits.length = 16 then .none else .read := by
  have hdop : u.dop ≠ .none := by simp [hread]
  by_cases hfull : bits.length = 16
  · obtain ⟨init, last, rfl, hinit⟩ := splitLast (n := 15) hfull
    obtain ⟨w, p, hp, hpulses⟩ := pulseBits_data init s hl v u hready hdop (by omega) hprev
    have hlast := (unitPulse_lastData (c := s.cfg) (b := last)
      (u := { u with acc := init.foldl shiftIn u.acc, dataCnt := u.dataCnt + init.length, prevClk := true }) hready hdop
      (by rw [hcnt, hinit])).trans (unitDataDone_read hread)
    rw [pulseBits_append, hpulses, pulseBits_cons, pulseBits_nil, pulseBit_onLines hl hp, hlast]
    exact ⟨_, _, rfl, rfl, by rw [List.foldl_append]; rfl, (if_pos hfull).symm⟩
  · obtain ⟨w, p, -, hpulses⟩ := pulseBits_data bits s hl v u hready hdop (by omega) hprev
    exact ⟨_, _, hpulses, rfl, rfl, hread.trans (if_neg hfull).symm⟩

/-- Settles O49: the packet preloads the accumulator, and each data pulse brings the next bit of the word to the line. -/
theorem unitReadShiftsTheWordOut : Obligations.UnitReadShiftsTheWordOut := by
  intro s st a bits hok hsel hstart hlen
  have hl := configOk_lines hok
  have hpacket := unitPacket_quiet hok hsel
    (unitDecode_packetIn hstart 2 a { s.unit with dop := .none })
  obtain ⟨w, x, hpulses, harr, hacc, hdop⟩ := pulseBits_read (bits := bits) (v := linesValue s.cfg false false (a.getLsbD 0))
    (u := unitBegin .read a ((s.unit.arr[a.toNat]).setWidth 32) (unitPacketIn st 2 a { s.unit with dop := .none }))
    (s := s) hl rfl rfl rfl hlen fun _ => rfl
  refine ⟨_, onLines w x s, congrArg Host.Outcome.next hpacket, rfl, ?_, harr, hdop, ?_⟩
  · exact (runAll_pulses bits rfl).trans (congrArg Host.Outcome.next hpulses)
  · have hline : exec .unitLinesRead (onLines w x s) = returns (unitLine s.cfg x) (onLines w x s) := rfl
    rw [hline, unitLine, hacc]
    simp only [unitBegin, getLsbD_preloaded_iff _ bits hlen]
    rfl

end Sys2Proof.Machine
end

section
/-! The frame of the CD-unit rows (O50). -/

namespace Sys2Proof.Machine

/-- What a row that writes half `h` of `eebus` may touch: that half, the engine, and the image with the trace. -/
def EebusOnly (h : RegHalf) (s t : State) : Prop :=
  ∃ v u n new, t = { storeHalf .eebus h v s with unit := u, nvUnit := n, events := s.events ++ new } ∧
    (new = [] → n = s.nvUnit)

theorem UnitOnly.eebusOnly {s t u : State} (h : UnitOnly s u) (ht : (.next u : Res) = .next t) :
    EebusOnly s.cfg.unitBusHalf s t := by
  cases ht
  obtain ⟨v, x, n, new, rfl, himage, -⟩ := h
  exact ⟨v, x, n, new, rfl, himage⟩

theorem unitPacket_only (start : Bool) (op : BitVec 2) (a : BitVec 6) (s : State) :
    UnitOnly s (unitPacket start op a s) :=
  pulseBits_only _ s (headBits_ne_nil start op a)

theorem unitDataPacket_only (start : Bool) (op : BitVec 2) (a : BitVec 6) (d : Half) (s : State) :
    UnitOnly s (unitDataPacket start op a d s) :=
  (unitPacket_only start op a s).trans (pulseBits_only _ _ (bitsMsb_ne_nil d))

/-- A write of either half of `eebus` is of the lines or a plain store (R206). -/
theorem eebusWrite_only {h : RegHalf} {v : Half} {s t : State} (ht : eebusWrite h v s = .next t) : EebusOnly h s t := by
  by_cases hline : s.cfg.unitBusHalf = h
  · subst hline
    exact (lineWrite_only v s).eebusOnly ((eebusWrite_line v rfl).symm.trans ht)
  · cases (eebusWrite_plain v hline).symm.trans ht
    exact ⟨v, s.unit, s.nvUnit, [], by rw [List.append_nil]; rfl, fun _ => rfl⟩

theorem State.byteAt_nvUnit_of_eq {s t : State} (h : t.nvUnit = s.nvUnit) (k : Nat) :
    t.byteAt .nvUnit k = s.byteAt .nvUnit k := by
  rw [State.byteAt, State.byteAt, h]

/-- Settles O50: each row touches what `EebusOnly` says, hence none of the components named. -/
theorem unitRowsLeaveEverythingElse : Obligations.UnitRowsLeaveEverythingElse := by
  intro st x op a d v i h s t hi ht
  have honly : EebusOnly h s t := by
    simp only [List.mem_cons, Prod.mk.injEq, List.not_mem_nil, or_false] at hi
    rcases hi with ⟨rfl, rfl⟩ | ⟨rfl, rfl⟩ | ⟨rfl, rfl⟩ | ⟨rfl, rfl⟩ | ⟨rfl, rfl⟩ | ⟨rfl, rfl⟩ | ⟨rfl, rfl⟩ | ⟨rfl, rfl⟩ |
      ⟨rfl, rfl⟩ | ⟨rfl, rfl⟩ | ⟨rfl, rfl⟩ | ⟨rfl, rfl⟩ | ⟨rfl, rfl⟩ | ⟨rfl, rfl⟩
    · exact (unitPacket_only st 0 _ s).eebusOnly ht
    · exact (unitDataPacket_only st 0 _ d s).eebusOnly ht
    · exact (unitPacket_only st 0 _ s).eebusOnly ht
    · exact (unitPacket_only st 0 _ s).eebusOnly ht
    · exact (unitDataPacket_only st 1 a d s).eebusOnly ht
    · exact (unitPacket_only st 2 a s).eebusOnly ht
    · exact (unitPacket_only st 3 a s).eebusOnly ht
    · exact (unitPacket_only false op a s).eebusOnly ht
    · exact (lineWrite_only v s).eebusOnly ht
    · exact (lineWrite_only v s).eebusOnly ht
    · exact (lineWrite_only v s).eebusOnly ht
    · exact (lineWrite_only v s).eebusOnly ht
    · exact eebusWrite_only ht
    · exact eebusWrite_only ht
  obtain ⟨w, u, n, new, rfl, himage⟩ := honly
  refine ⟨fun r half hne => Regs.half_setHalf_ne s.regs w hne, rfl, rfl, rfl, rfl, rfl, rfl, rfl, rfl, rfl, rfl, rfl,
    fun sp k hsp => ?_, fun hevents => State.byteAt_nvUnit_of_eq (himage (List.append_right_eq_self.mp hevents))⟩
  cases sp with
  | nvCart => rfl
  | nvUnit => exact absurd rfl hsp
  | sector => rfl

end Sys2Proof.Machine
end

section
/-! The trace and the parameters over one operation (O54): what each of the things an operation can do (`Did`) adds to the trace. -/

namespace Sys2Proof.Machine

/-- From `s` to `t` the parameters stay and the trace grows, by no `AudioReady`. -/
def SilentGrowth (s t : State) : Prop :=
  t.cfg = s.cfg ∧ ∃ new, t.events = s.events ++ new ∧ Event.audioReady ∉ new

theorem SilentGrowth.of_eq {s t : State} (hcfg : t.cfg = s.cfg) (hevents : t.events = s.events) : SilentGrowth s t :=
  ⟨hcfg, [], by rw [hevents, List.append_nil], nofun⟩

theorem CartOnly.silentGrowth {s t : State} (h : CartOnly s t) : SilentGrowth s t := by
  obtain ⟨_, _, new, rfl, -, hsilent⟩ := h
  exact ⟨rfl, new, rfl, hsilent⟩

theorem UnitOnly.silentGrowth {s t : State} (h : UnitOnly s t) : SilentGrowth s t := by
  obtain ⟨_, _, _, new, rfl, -, hsilent⟩ := h
  exact ⟨rfl, new, rfl, hsilent⟩

theorem DispatchOnly.silentGrowth {u t : State} (h : DispatchOnly u t) : SilentGrowth u t := .of_eq h.cfg h.events

theorem overlayHook_silentGrowth (s : State) : SilentGrowth s (overlayHook s) := by
  rcases overlayHook_cases s with hsame | hoff
  · rw [hsame]
    exact .of_eq rfl rfl
  · rw [hoff]
    exact ⟨rfl, [.overlayDisable], rfl, by simp⟩

/-- What is not a tick adds no `AudioReady` (R240). -/
theorem Did.silentGrowth {i : Instr} {s t : State} (hd : Did i s t) (hi : i ≠ .pumpTick) : SilentGrowth s t := by
  cases hd with
  | tick ht => exact absurd rfl hi
  | reset => exact .of_eq rfl rfl
  | none => exact .of_eq rfl rfl
  | read v => exact .of_eq rfl rfl
  | acknowledge v he => exact .of_eq rfl rfl
  | dequeue v r => exact .of_eq rfl rfl
  | store r h v => exact .of_eq rfl rfl
  | overlay h v => exact overlayHook_silentGrowth (storeHalf .ctrl h v s)
  | arm h v => exact .of_eq rfl rfl
  | command w tx htx hdis => exact hdis.silentGrowth
  | cartClock b hrow => exact (clockCart_only b s).silentGrowth
  | cartFrame bits hrow => exact (clockCartBits_only bits s).silentGrowth
  | cartPort v e harr hinv => exact .of_eq rfl rfl
  | lines v hrow => exact (lineWrite_only v s).silentGrowth
  | packet bits hb hrow => exact (pulseBits_only bits s hb).silentGrowth

/-- Settles O54: a tick appends its one event, and every other operation grows the trace silently. -/
theorem traceGrowsAndOnlyTicksSignalAudio : Obligations.TraceGrowsAndOnlyTicksSignalAudio := by
  intro i s t h
  by_cases hi : i = .pumpTick
  · subst hi
    obtain ⟨_, _, rfl, -⟩ := tick_only h
    exact ⟨rfl, [.audioReady], rfl, by simp⟩
  · obtain ⟨hcfg, new, hevents, hsilent⟩ := (exec_did h).silentGrowth hi
    exact ⟨hcfg, new, hevents, iff_of_false hsilent hi⟩

end Sys2Proof.Machine
end

section
/-! Completion (O55): the shared operations that can be refused complete under their premises, every other row outright. -/

namespace Sys2Proof.Machine

/-! ## Commands -/

/-- The reader refuses no read of the table of contents of `s`, of any session; a status that reports a failure is an answer too
(R136, R137). -/
structure TocAnswers (s : State) : Prop where
  short : ∀ p, ∃ a, readShortToc s.cfg s.disc s.dsp.adapterOk p s.toc = .ok a
  long : ∀ p, ∃ a, readLongToc s.cfg s.disc s.dsp.adapterOk p s.toc = .ok a

/-- Neither the stored word nor `tx_pending` is anything the reader looks at. -/
theorem TocAnswers.afterGuard {s : State} (h : TocAnswers s) (w : Half) :
    TocAnswers (setTxPending (storeHalf .dsdata .lo w s)) := ⟨h.short, h.long⟩

/-- The guard refuses nothing, so a command completes where its action does (R160). -/
theorem dsaCommand_completes {w : Half} {a : State → Res} {s : State}
    (ha : ∃ t, a (setTxPending (storeHalf .dsdata .lo w s)) = .next t) : ∃ t, dsaCommand w a s = .next t := by
  rcases dsaCommand_cases w a s with ⟨-, hstop⟩ | ⟨-, -, hgo⟩
  · exact ⟨_, hstop⟩
  · rwa [hgo]

/-- Of the eleven actions only the two that read the table can be refused. -/
theorem dsaAction_completes {s : State} (h : TocAnswers s) (opc p : Byte) (k : DsaKind) :
    ∃ t, dsaAction opc p k s = .next t := by
  cases k
  case readToc =>
    obtain ⟨_, ha⟩ := h.short p
    exact ⟨_, by rw [dsaAction, actReadToc, ha]⟩
  case readLongToc =>
    obtain ⟨_, ha⟩ := h.long p
    exact ⟨_, by rw [dsaAction, actReadLongToc, ha]⟩
  all_goals exact ⟨_, rfl⟩

theorem dispatchAction_completes {s : State} (h : TocAnswers s) (w : Half) : ∃ t, dispatchAction w s = .next t := by
  cases hkind : s.cfg.dsaKind (dsaOpc w) with
  | some k =>
    rw [dispatchAction_of_kind hkind]
    exact dsaAction_completes h _ _ k
  | none => exact ⟨s, dispatchAction_of_none hkind⟩

theorem exec_dsaInstr_completes {s : State} (h : TocAnswers s) (p : Byte) (k : DsaKind) :
    ∃ t, exec (dsaInstr p k) s = .next t := by
  rw [exec_dsaInstr]
  exact dsaCommand_completes (dsaAction_completes (h.afterGuard _) _ p k)

/-! ## Register halves and the tick -/

/-- Under the idempotent policy arming completes, armed or not (R233). -/
theorem armPump_completes {s : State} (hp : s.cfg.pumpRearmWhileArmed = .idempotent) : ∃ t, armPump s = .next t := by
  cases harmed : s.pump.armed with
  | false => exact ⟨_, armPump_unarmed harmed⟩
  | true => exact ⟨_, armPump_idempotent harmed hp⟩

theorem i2cntrlWrite_completes {s : State} (hp : s.cfg.pumpRearmWhileArmed = .idempotent) (h : RegHalf) (v : Half) :
    ∃ t, i2cntrlWrite h v s = .next t := by
  cases hon : i2sEnabled (storeHalf .i2cntrl h v s) with
  | false => exact ⟨_, i2cntrlWrite_disabled hon⟩
  | true =>
    rw [i2cntrlWrite_enabled hon]
    exact armPump_completes hp

theorem eebusRead_completes (h : RegHalf) (s : State) : ∃ t, eebusRead h s = .next t := by
  by_cases hline : s.cfg.unitBusHalf = h
  · exact ⟨_, eebusRead_line hline⟩
  · exact ⟨_, eebusRead_plain hline⟩

theorem eebusWrite_completes (h : RegHalf) (v : Half) (s : State) : ∃ t, eebusWrite h v s = .next t := by
  by_cases hline : s.cfg.unitBusHalf = h
  · exact ⟨_, eebusWrite_line v hline⟩
  · exact ⟨_, eebusWrite_plain v hline⟩

/-- R231: a tick is not enabled while the pump is not armed. -/
theorem exec_pumpTick_unarmed {s : State} (hidle : s.pump.armed = false) : exec .pumpTick s = .refused .tickNotArmed :=
  if_neg (by simp [hidle])

/-! ## Every operation -/

/-- The rows that share an operation that can be refused complete by that operation's lemma; each of the others is a next state
as it stands. -/
theorem exec_completes {i : Instr} {s : State} (hcursor : CursorInv s.pump)
    (hp : s.cfg.pumpRearmWhileArmed = .idempotent) (htoc : TocAnswers s) (harmed : i = .pumpTick → s.pump.armed = true) :
    ∃ t, exec i s = .next t := by
  cases i
  case pumpTick =>
    obtain ⟨t, ht, -⟩ := exec_pumpTick_armed (harmed rfl) hcursor
    exact ⟨t, ht⟩
  case w16I2cntrlHi v => exact i2cntrlWrite_completes hp .hi v
  case w16I2cntrlLo v => exact i2cntrlWrite_completes hp .lo v
  case r16EebusHi => exact eebusRead_completes .hi s
  case r16EebusLo => exact eebusRead_completes .lo s
  case w16EebusHi v => exact eebusWrite_completes .hi v s
  case w16EebusLo v => exact eebusWrite_completes .lo v s
  case w16DsdataLo w => exact dsaCommand_completes (dispatchAction_completes (htoc.afterGuard w) w)
  case dsaZeroWord => exact dsaCommand_completes ⟨_, rfl⟩
  case dsaUnrecognized opc p => exact dsaCommand_completes ⟨_, rfl⟩
  case dsaPlayTrack p => exact exec_dsaInstr_completes htoc p .playTrack
  case dsaStop p => exact exec_dsaInstr_completes htoc p .stop
  case dsaReadToc p => exact exec_dsaInstr_completes htoc p .readToc
  case dsaPause p => exact exec_dsaInstr_completes htoc p .pause
  case dsaUnpause p => exact exec_dsaInstr_completes htoc p .unpause
  case dsaGotoMin p => exact exec_dsaInstr_completes htoc p .gotoMin
  case dsaGotoSec p => exact exec_dsaInstr_completes htoc p .gotoSec
  case dsaGotoFrm p => exact exec_dsaInstr_completes htoc p .gotoFrm
  case dsaReadLongToc p => exact exec_dsaInstr_completes htoc p .readLongToc
  case dsaSetMode p => exact exec_dsaInstr_completes htoc p .setMode
  case dsaOversample p => exact exec_dsaInstr_completes htoc p .oversample
  all_goals exact ⟨_, rfl⟩

/-- Settles O55: an enabled operation completes, its tick from a cursor at a pair, which the invariant gives. -/
theorem everyOperationCompletes : Obligations.EveryOperationCompletes := by
  intro i s hinv hp hshort hlong
  exact ⟨exec_completes hinv.cursor hp ⟨hshort, hlong⟩, exec_pumpTick_unarmed⟩

end Sys2Proof.Machine
end

section
/-! The reset (O1, O2): the state it starts from meets the invariant, and what it loads into the arrays and leaves of the
images, said once for both engines. -/

namespace Sys2Proof.Machine

theorem exec_reset (s : State) : exec .reset s = .next (resetBlock s) := rfl

/-! ## The state after reset -/

/-- Both images are absent, the buffer is empty, the cursor stands at the first pair, and both engines are at rest (R370). -/
theorem State.reset_inv : State.reset.Inv where
  memory := ⟨nofun, nofun, Memory.wf_nil _⟩
  cursor := ⟨rfl, Nat.zero_le _⟩
  cart := ⟨nofun, nofun, nofun⟩
  unit := ⟨nofun, fun hdata => absurd rfl hdata⟩

/-- Settles O1: `State.reset_inv`, and the default parameters are none of those R341 excludes. -/
theorem resetStateMeetsInvariant : Obligations.ResetStateMeetsInvariant :=
  ⟨State.reset_inv, by decide⟩

/-! ## The arrays and the images (R70) -/

theorem loadImage_absent {sp : Space} {image : Option Memory} (h : image = none) (i : Fin 64) :
    (loadImage sp image)[i.val] = 0xFFFF := by
  subst h
  exact Vector.getElem_replicate _

/-- Word `i` of a loaded array is bytes `2 i` and `2 i + 1` of the image, the high byte first (R86). -/
theorem loadImage_present {sp : Space} {image : Option Memory} {m : Memory} (h : image = some m) (i : Fin 64) :
    (loadImage sp image)[i.val] = Memory.read sp m (2 * i.val) ++ Memory.read sp m (2 * i.val + 1) := by
  subst h
  exact Vector.getElem_ofFn _

/-- The buffer's bytes are left open after a reset; those of the two images stay. -/
theorem resetBlock_byteAt (s : State) {sp : Space} (hsp : sp ≠ .sector) (a : Nat) :
    (resetBlock s).byteAt sp a = s.byteAt sp a := by
  cases sp with
  | nvCart => exact State.byteAt_nvCart_of_eq rfl a
  | nvUnit => exact State.byteAt_nvUnit_of_eq rfl a
  | sector => exact absurd rfl hsp

/-- Settles O2: the next state is `resetBlock s`, its arrays are the loaded images, and its images and trace are those of `s`. -/
theorem resetGivesEveryComponentItsValue : Obligations.ResetGivesEveryComponentItsValue := by
  intro s
  refine ⟨(resetBlock s).fifo.slots, (resetBlock s).pump.buf, loadImage .nvCart s.nvCart, loadImage .nvUnit s.nvUnit,
    exec_reset s, loadImage_absent, fun _ => loadImage_present, loadImage_absent, fun _ => loadImage_present, fun t ht => ?_⟩
  obtain rfl : resetBlock s = t := by injection (exec_reset s).symm.trans ht
  exact ⟨fun _ a hsp => resetBlock_byteAt s hsp a, rfl⟩

end Sys2Proof.Machine
end
